-- ==== Sys2Proof/Word.lean ====
section
/-! DEFINITION. The word types of the LZW12 codec: symbols, codes, residual nibbles and dictionary counts. -/

namespace Sys2Proof

/-- A symbol: one byte, value 0 to 255 (R91). -/
abbrev Byte := BitVec 8

/-- A code: 12 bits, value 0 to 4095 (R92). -/
abbrev Code := BitVec 12

/-- The up-to-four leftover bits of the bit-packing protocol (R21, R28). -/
abbrev Nibble := BitVec 4

/-- The width of `dictSize` and of `fault_dictSize`, which take the value 4096 (R20, R25, R27). -/
abbrev DictSize := BitVec 13

/-- A three-bit register as the status read shows it (R24, R25). -/
abbrev Bits3 := BitVec 3

end Sys2Proof
end

