-- ==== Sys2Proof/Config.lean ====
section
/-! DEFINITION. The implementation parameters (R7) and the free value of the spec's unspecified registers. -/

namespace Sys2Proof

/-- What a stream that ends in the middle of a code does (R7, R103, U4). -/
inductive TruncationPolicy where
  /-- ordinary end of stream: the source's behaviour -/
  | silent
  /-- the fault Truncated -/
  | report
  deriving DecidableEq, Repr

/-- What the decoder does with a code of 256 or more at a reset step (R7, R187, U3). -/
inductive StalePolicy where
  /-- the fault StaleCode -/
  | fault
  /-- the literal execution of the source's steps on retained memory -/
  | legacy
  deriving DecidableEq, Repr

/-- The parameters a model takes as arguments (R7). -/
structure Config where
  /-- `ARENA_BYTES`: size of the arena in bytes -/
  arenaBytes : Nat
  /-- `TRUNCATION_POLICY` -/
  truncation : TruncationPolicy
  /-- `STALE_POLICY` -/
  stale : StalePolicy
  deriving DecidableEq, Repr

/-- The defaults of R7. -/
def Config.default : Config := ⟨8402944, .silent, .fault⟩

/-- The legal parameter values (R7, R73): an arena of at least 7,385,344 bytes. -/
def Config.legal (c : Config) : Bool := decide (7385344 ≤ c.arenaBytes)

/-- The n-th free value: what `curNode` or `prevCode` holds between a START and the first step that writes it (U6, notes/assumptions/8.md). No body: nothing can be proved of a value of it. -/
opaque Config.freeCode : Nat → Code

end Sys2Proof
end

