-- ==== Sys2Proof/Syntax.lean ====
section
/-! DEFINITION. The operations of the block, one constructor per row of spec/opcode_table.json, and the events and phases that select them. -/

namespace Sys2Proof

/-- The two units of the block (R2). -/
inductive UnitId where
  | encoder
  | decoder
  deriving DecidableEq, Repr

/-- The sequencing state of a unit (R24). -/
inductive Phase where
  /-- no invocation since power-on -/
  | idle
  /-- initial state established, no input item taken -/
  | first
  /-- at least one input item taken -/
  | run
  /-- the invocation ended normally -/
  | done
  /-- the invocation ended in a fatal error -/
  | fault
  deriving DecidableEq, Repr

/-- An event of the encoder unit: one answer of its byte source (R8, R220). -/
inductive SymbolEvent where
  | byte (v : Byte)
  | eos
  deriving DecidableEq, Repr

/-- An event of the decoder unit: one result of `GETCODE` (R8, R123). -/
inductive CodeEvent where
  | code (c : Code)
  | eos
  deriving DecidableEq, Repr

/-- The operations (R9, R101), in the order of spec/opcode_table.json. -/
inductive Instr where
  /-- PACK.PAIR3: two codes in three bytes (R93) -/
  | packPair3 (code1 code2 : Code)
  /-- PACK.TAIL2: the last unpaired code in two bytes (R94) -/
  | packTail2 (code : Code)
  /-- PUTCODE c (R121) -/
  | putCode (c : Code)
  /-- PUTLAST c (R122) -/
  | putLast (c : Code)
  /-- GETCODE (R123) -/
  | getCode
  /-- TRIE.LOOKUP n b (R140) -/
  | trieLookup (n : Code) (b : Byte)
  /-- TRIE.INSERT n b v (R141) -/
  | trieInsert (n : Code) (b : Byte) (v : Code)
  /-- TRIE.CLEAR (R142) -/
  | trieClear
  /-- ENC.FIRST b (R143) -/
  | encFirst (b : Byte)
  /-- ENC.BYTE.HIT b (R145) -/
  | encByteHit (b : Byte)
  /-- ENC.BYTE.ADD b (R146) -/
  | encByteAdd (b : Byte)
  /-- ENC.BYTE.RESET b (R147) -/
  | encByteReset (b : Byte)
  /-- ENC.EOS (R148) -/
  | encEos
  /-- ENC.EOS.EMPTY (R149) -/
  | encEosEmpty
  /-- ARENA.INIT (R170) -/
  | arenaInit
  /-- ARENA.ALLOC n (R171) -/
  | arenaAlloc (n : Nat)
  /-- ARENA.MARK (R172) -/
  | arenaMark
  /-- ARENA.REWIND (R173) -/
  | arenaRewind
  /-- DICT.INIT (R174) -/
  | dictInit
  /-- DICT.FIRSTBYTE c (R175) -/
  | dictFirstByte (c : Code)
  /-- DICT.ADD p x (R176) -/
  | dictAdd (p : Code) (x : Byte)
  /-- DICT.EMIT c (R177) -/
  | dictEmit (c : Code)
  /-- DEC.FIRST c, c a literal: bits [11:8] of the word are 0 (R180) -/
  | decFirst (c : Byte)
  /-- DEC.FIRST.BAD c (R181) -/
  | decFirstBad (c : Code)
  /-- DEC.CODE.CORRUPT c (R183) -/
  | decCodeCorrupt (c : Code)
  /-- DEC.CODE.KNOWN c (R184) -/
  | decCodeKnown (c : Code)
  /-- DEC.CODE.KWKWK c (R185) -/
  | decCodeKwkwk (c : Code)
  /-- DEC.CODE.RESET c, c a literal: bits [11:8] of the word are 0 (R186) -/
  | decCodeReset (c : Byte)
  /-- DEC.CODE.STALE c (R187) -/
  | decCodeStale (c : Code)
  /-- DEC.EOS (R188) -/
  | decEos
  /-- SRC.READ, by either unit (R220) -/
  | srcRead (u : UnitId)
  /-- SNK.WRITE v, by either unit (R221) -/
  | snkWrite (u : UnitId) (v : Byte)
  /-- ENC.START (R224) -/
  | encStart
  /-- DEC.START (R225) -/
  | decStart
  /-- STATUS.READ of either unit (R227) -/
  | statusRead (u : UnitId)
  deriving DecidableEq, Repr

end Sys2Proof
end

