-- ==== Sys2Proof/WellFormed.lean ====
section
/-! DEFINITION. Which operand values the spec admits for each operation. -/

namespace Sys2Proof

/-- The operand ranges of the rules: a child code is 256 to 4095 and greater than its node (R141), a request is for at least one byte (R171), and the operand of DEC.FIRST.BAD and DEC.CODE.STALE has bits [11:8] not all 0 (R181, R187). Every other operand takes every value of its width. -/
def Instr.WellFormed : Instr → Bool
  | .trieInsert n _ v => decide (256 ≤ v.toNat) && decide (n.toNat < v.toNat)
  | .arenaAlloc n => decide (1 ≤ n)
  | .decFirstBad c => decide (256 ≤ c.toNat)
  | .decCodeStale c => decide (256 ≤ c.toNat)
  | .packPair3 _ _ => true
  | .packTail2 _ => true
  | .putCode _ => true
  | .putLast _ => true
  | .getCode => true
  | .trieLookup _ _ => true
  | .trieClear => true
  | .encFirst _ => true
  | .encByteHit _ => true
  | .encByteAdd _ => true
  | .encByteReset _ => true
  | .encEos => true
  | .encEosEmpty => true
  | .arenaInit => true
  | .arenaMark => true
  | .arenaRewind => true
  | .dictInit => true
  | .dictFirstByte _ => true
  | .dictAdd _ _ => true
  | .dictEmit _ => true
  | .decFirst _ => true
  | .decCodeCorrupt _ => true
  | .decCodeKnown _ => true
  | .decCodeKwkwk _ => true
  | .decCodeReset _ => true
  | .decEos => true
  | .srcRead _ => true
  | .snkWrite _ _ => true
  | .encStart => true
  | .decStart => true
  | .statusRead _ => true

end Sys2Proof
end

