-- ==== Sys2Proof/Decode.lean ====
section
/-! DEFINITION. Bits: how codes lie in bytes (R93 to R97, R124, R125), how an operation is selected (R99, R100), and the operand word of each operation. -/

namespace Sys2Proof

/-! ## Slices of a code and their inverses (R11, R14 (c)) -/

/-- `c >> 4`, that is `c[11:4]`. -/
def codeHigh8 (c : Code) : Byte := c.extractLsb' 4 8

/-- `c & 0xF`, that is `c[3:0]`. -/
def codeLow4 (c : Code) : Nibble := c.extractLsb' 0 4

/-- `c >> 8`, that is `c[11:8]`. -/
def codeHigh4 (c : Code) : Nibble := c.extractLsb' 8 4

/-- `c & 0xFF`, that is `c[7:0]`. -/
def codeLow8 (c : Code) : Byte := c.extractLsb' 0 8

/-- `b >> 4`, that is `b[7:4]`. -/
def byteHigh4 (b : Byte) : Nibble := b.extractLsb' 4 4

/-- `b & 0xF`, that is `b[3:0]`. -/
def byteLow4 (b : Byte) : Nibble := b.extractLsb' 0 4

/-- `(hi << 4) | lo` for two nibbles. -/
def joinNibbles (hi lo : Nibble) : Byte := hi ++ lo

/-- The code that starts at a byte boundary: `{b0[7:0], b1[7:4]}` (R97). -/
def codeFromBytes (b0 b1 : Byte) : Code := b0 ++ byteHigh4 b1

/-- The code that starts in mid-byte: `{nib[3:0], b[7:0]}` (R97). -/
def codeFromNibble (nib : Nibble) (b : Byte) : Code := nib ++ b

/-- A literal code: the byte with bits [11:8] zero (R92). -/
def literalCode (b : Byte) : Code := b.setWidth 12

/-- A code zero-extended to the width of `dictSize` (R14 (b)). -/
def widenCode (c : Code) : DictSize := c.setWidth 13

/-! ## The wire formats (R93 to R95) and the functions pack and unpack (R124, R125) -/

/-- The three bytes of a `PAIR3`, first on the wire first (R93). -/
def pair3Bytes (code1 code2 : Code) : List Byte :=
  [codeHigh8 code1, joinNibbles (codeLow4 code1) (codeHigh4 code2), codeLow8 code2]

/-- The two bytes of a `TAIL2`, the padding nibble written 0 (R94). -/
def tail2Bytes (code : Code) : List Byte :=
  [codeHigh8 code, joinNibbles (codeLow4 code) 0#4]

/-- `pack`: one `PAIR3` per complete pair, then a `TAIL2` if a code is left (R95, R124). -/
def pack : List Code → List Byte
  | [] => []
  | [c] => tail2Bytes c
  | c1 :: c2 :: cs => pair3Bytes c1 c2 ++ pack cs

/-- `unpack`: the codes of a byte sequence; a lone last byte is dropped (R125). -/
def unpack : List Byte → List Code
  | b0 :: b1 :: b2 :: rest => codeFromBytes b0 b1 :: codeFromNibble (byteLow4 b1) b2 :: unpack rest
  | [b0, b1] => [codeFromBytes b0 b1]
  | [_] => []
  | [] => []

/-! ## Decoding -/

/-- Why no operation is decoded. -/
inductive DecodeReject where
  /-- the stream holds no byte (R95) -/
  | noBytes
  /-- the stream ends after the first byte of a code (R103 (b)) -/
  | truncatedWord
  /-- the phase has no step (R231, U8) -/
  | noStepInPhase
  /-- `dictSize` above 4096, which no run reaches: no row of R99 or R100 applies -/
  | dictSizeOutOfRange
  /-- the word has bits above its format, or no format has this width (R90) -/
  | noSuchFormat
  deriving DecidableEq, Repr

/-- What decoding answers. -/
inductive Decoded where
  | instr (i : Instr)
  | reject (r : DecodeReject)
  deriving DecidableEq, Repr

/-- The wire word at the front of a byte stream, with the bytes after it: a `PAIR3` when three bytes are there, a `TAIL2` when the source ends after two (R98); the padding nibble is ignored (R102). -/
def decodeWire : List Byte → Decoded × List Byte
  | b0 :: b1 :: b2 :: rest => (.instr (.packPair3 (codeFromBytes b0 b1) (codeFromNibble (byteLow4 b1) b2)), rest)
  | [b0, b1] => (.instr (.packTail2 (codeFromBytes b0 b1)), [])
  | [_] => (.reject .truncatedWord, [])
  | [] => (.reject .noBytes, [])

/-- The selection table of the encoder unit (R99, R144): `cell` is `TRIE[curNode][b]`, which only the RUN rows look at. -/
def decodeEnc (p : Phase) (cell : Code) (d : DictSize) (ev : SymbolEvent) : Decoded :=
  match p, ev with
  | .first, .byte b => .instr (.encFirst b)
  | .first, .eos => .instr .encEosEmpty
  | .run, .byte b =>
      if cell ≠ 0#12 then .instr (.encByteHit b)
      else if d < 4096#13 then .instr (.encByteAdd b)
      else if d = 4096#13 then .instr (.encByteReset b)
      else .reject .dictSizeOutOfRange
  | .run, .eos => .instr .encEos
  | .idle, _ => .reject .noStepInPhase
  | .done, _ => .reject .noStepInPhase
  | .fault, _ => .reject .noStepInPhase

/-- The RUN rows of the decoder's selection table for a code, tested in the order listed (R100, R182). -/
def decodeRunCode (d : DictSize) (c : Code) : Decoded :=
  if 4096#13 < d then .reject .dictSizeOutOfRange
  else if d < widenCode c then .instr (.decCodeCorrupt c)
  else if d = 4096#13 then
    (if 256 ≤ c.toNat then .instr (.decCodeStale c) else .instr (.decCodeReset (codeLow8 c)))
  else if widenCode c = d then .instr (.decCodeKwkwk c)
  else .instr (.decCodeKnown c)

/-- The selection table of the decoder unit (R100). -/
def decodeDec (p : Phase) (d : DictSize) (ev : CodeEvent) : Decoded :=
  match p, ev with
  | .first, .code c =>
      if c.toNat ≤ 255 then .instr (.decFirst (codeLow8 c)) else .instr (.decFirstBad c)
  | .run, .code c => decodeRunCode d c
  | .first, .eos => .instr .decEos
  | .run, .eos => .instr .decEos
  | .idle, _ => .reject .noStepInPhase
  | .done, _ => .reject .noStepInPhase
  | .fault, _ => .reject .noStepInPhase

/-! ## Encoding -/

/-- The operand word of an operation: its width in bits and its value. -/
structure OperandWord where
  bits : Nat
  value : Nat
  deriving DecidableEq, Repr

/-- A `SYMBOL8` word. -/
def symbolWord (b : Byte) : OperandWord := ⟨8, b.toNat⟩

/-- A `CODE12` word. -/
def codeWord (c : Code) : OperandWord := ⟨12, c.toNat⟩

/-- The format `NONE`: no word. -/
def noWord : OperandWord := ⟨0, 0⟩

/-- The word each row of the table takes, from its columns `format` and `encoding` (R90, R101). GETCODE and SRC.READ take no operand: their word is their result. -/
def encode : Instr → OperandWord
  | .packPair3 code1 code2 => ⟨24, code1.toNat * 4096 + code2.toNat⟩
  | .packTail2 code => ⟨16, code.toNat * 16⟩
  | .putCode c => codeWord c
  | .putLast c => codeWord c
  | .getCode => noWord
  | .trieLookup _ _ => noWord
  | .trieInsert _ _ _ => noWord
  | .trieClear => noWord
  | .encFirst b => symbolWord b
  | .encByteHit b => symbolWord b
  | .encByteAdd b => symbolWord b
  | .encByteReset b => symbolWord b
  | .encEos => noWord
  | .encEosEmpty => noWord
  | .arenaInit => noWord
  | .arenaAlloc _ => noWord
  | .arenaMark => noWord
  | .arenaRewind => noWord
  | .dictInit => noWord
  | .dictFirstByte c => codeWord c
  | .dictAdd _ _ => noWord
  | .dictEmit c => codeWord c
  | .decFirst c => codeWord (literalCode c)
  | .decFirstBad c => codeWord c
  | .decCodeCorrupt c => codeWord c
  | .decCodeKnown c => codeWord c
  | .decCodeKwkwk c => codeWord c
  | .decCodeReset c => codeWord (literalCode c)
  | .decCodeStale c => codeWord c
  | .decEos => noWord
  | .srcRead _ => noWord
  | .snkWrite _ v => symbolWord v
  | .encStart => noWord
  | .decStart => noWord
  | .statusRead _ => noWord

/-- The bytes of a whole-byte word of `n` bytes, most significant first: bits [23:16] of a `PAIR3` are its first byte on the wire. -/
def wordBytes : Nat → Nat → List Byte
  | 0, _ => []
  | n + 1, w => BitVec.ofNat 8 (w / 256 ^ n) :: wordBytes n w

/-- The event a word stands for to the encoder unit (R90: `SYMBOL8`). -/
def symbolEventOf (w : OperandWord) : SymbolEvent :=
  if w.bits = 8 then .byte (BitVec.ofNat 8 w.value) else .eos

/-- The event a word stands for to the decoder unit (R90: `CODE12`). -/
def codeEventOf (w : OperandWord) : CodeEvent :=
  if w.bits = 12 then .code (BitVec.ofNat 12 w.value) else .eos

/-- What the decoder answers where it decodes an instruction, else none. -/
def Decoded.toOption : Decoded → Option Instr
  | .instr i => some i
  | .reject _ => none

/-- The operation read from a word of the table alone, with no state beside it (notes/assumptions/16.md). Three and two whole bytes are wire words; a symbol and a code are read as a unit that has just been started reads them, by the rows of phase FIRST, `dictSize` = 256 (R99, R100). No other width is a format. -/
def decodeTableWord (nbits w : Nat) : Option Instr :=
  if 2 ^ nbits ≤ w then none
  else if nbits = 24 then (decodeWire (wordBytes 3 w)).1.toOption
  else if nbits = 16 then (decodeWire (wordBytes 2 w)).1.toOption
  else if nbits = 12 then (decodeDec .first 256#13 (codeEventOf ⟨12, w⟩)).toOption
  else if nbits = 8 then (decodeEnc .first 0#12 256#13 (symbolEventOf ⟨8, w⟩)).toOption
  else none

end Sys2Proof
end

