-- ==== Sys2Proof/Machine/Memory.lean ====
section
/-! DEFINITION. The three memories as address-ordered lists: reading, writing, erasing, and their canonical form. -/

namespace Sys2Proof.Machine

/-- The value listed at an address, if one is. -/
def Memory.get? {α : Type} : List (Nat × α) → Nat → Option α
  | [], _ => none
  | (k, v) :: m, a => if a = k then some v else Memory.get? m a

/-- List the value `v` at address `a`, keeping the addresses rising. -/
def Memory.set {α : Type} : List (Nat × α) → Nat → α → List (Nat × α)
  | [], a, v => [(a, v)]
  | (k, w) :: m, a, v =>
      if a < k then (a, v) :: (k, w) :: m
      else if a = k then (a, v) :: m
      else (k, w) :: Memory.set m a v

/-- List nothing at address `a`. -/
def Memory.erase {α : Type} : List (Nat × α) → Nat → List (Nat × α)
  | [], _ => []
  | (k, w) :: m, a => if a = k then Memory.erase m a else (k, w) :: Memory.erase m a

/-- Every listed address is above `lo` and the addresses rise strictly. -/
def Memory.above {α : Type} : Nat → List (Nat × α) → Bool
  | _, [] => true
  | lo, (k, _) :: m => decide (lo < k) && Memory.above k m

/-- The canonical form: addresses strictly rising. -/
def Memory.wf {α : Type} : List (Nat × α) → Bool
  | [] => true
  | (k, _) :: m => Memory.above k m

/-- The place of the cell `(n, b)` in the list that holds `TRIE`. It is one to one and nothing else of it is used: the source defines no linear address (R61). -/
def cellKey (n : Code) (b : Byte) : Nat := n.toNat * 256 + b.toNat

/-- Every listed cell is one of `TRIE`, and none holds what an unlisted cell reads as. -/
def Memory.cellsListed : List (Nat × Code) → Bool
  | [] => true
  | (k, v) :: m => decide (k < 1048576) && decide (v ≠ 0#12) && Memory.cellsListed m

/-- The canonical form of `TRIE`. -/
def Memory.trieWf (m : List (Nat × Code)) : Bool := Memory.wf m && Memory.cellsListed m

/-- The cell `TRIE[n][b]`; an unlisted cell reads 0, no child (R22). -/
def Memory.getCell (m : List (Nat × Code)) (n : Code) (b : Byte) : Code :=
  (Memory.get? m (cellKey n b)).getD 0#12

/-- `TRIE[n][b] <- v`. -/
def Memory.setCell (m : List (Nat × Code)) (n : Code) (b : Byte) (v : Code) : List (Nat × Code) :=
  if v = 0#12 then Memory.erase m (cellKey n b) else Memory.set m (cellKey n b) v

end Sys2Proof.Machine
end

