-- ==== Sys2Proof/Machine/State.lean ====
section
/-! DEFINITION. The state of the block: the encoder unit, the decoder unit, the streams attached to them, the parameters, and the host's commands; the faults and refusals of the model; the state after power-on. -/

namespace Sys2Proof.Machine

/-- The values of `fault_cause` (R25, R240). -/
inductive Cause where
  /-- no fault since START -/
  | none
  | corruptCode
  | sinkFail
  | allocFail
  | noPrevCode
  | staleCode
  /-- only under `TRUNCATION_POLICY = report` -/
  | truncated
  deriving DecidableEq, Repr

/-- One answer of a byte sink (R221). -/
inductive SinkAnswer where
  | ok
  | fail
  deriving DecidableEq, Repr

/-- A byte sink, external to the block: the bytes accepted, oldest first, and the answers it will give next; when none is listed it answers `ok` (R15, R221, notes/assumptions/3.md). -/
structure Sink where
  accepted : List Byte
  answers : List SinkAnswer
  deriving DecidableEq, Repr

/-- The decoder's byte source, external to the block (R15, R220). -/
inductive DecSource where
  /-- a finite sequence of which `rest` is still to be consumed; then EOS -/
  | stream (rest : List Byte)
  /-- the sink attached to the encoder, of which `taken` bytes have been consumed (R230) -/
  | pipe (taken : Nat)
  /-- a sink the encoder wrote to until another was attached, and whose run did not reach DONE: `rest` is still to be consumed, and no EOS follows (R230, notes/assumptions/20.md) -/
  | stalled (rest : List Byte)
  deriving DecidableEq, Repr

/-- An entry of the dictionary table `E` (R30): a handle into the arena. -/
structure Entry where
  off : Nat
  len : Nat
  deriving DecidableEq, Repr

/-- The encoder unit (R20, R21, R22, R24, R25), with the source and the sink attached to it (R15). -/
structure Encoder where
  /-- `phase` (R24) -/
  phase : Phase
  /-- `fault_cause` (R25) -/
  faultCause : Cause
  /-- `curNode` (R20) -/
  curNode : Code
  /-- the encoder's `dictSize` (R20) -/
  dictSize : DictSize
  /-- `w_have` (R21) -/
  wHave : Bool
  /-- `w_nib` (R21) -/
  wNib : Nibble
  /-- `TRIE` (R22): the cells that are not 0, in the order of `cellKey` -/
  trie : List (Nat × Code)
  /-- the bytes the source has still to answer; then EOS (R220) -/
  source : List Byte
  /-- the sink (R221) -/
  sink : Sink
  /-- no START has been accepted since the sink was attached (R230, notes/assumptions/20.md) -/
  sinkNew : Bool
  deriving DecidableEq, Repr

/-- The decoder unit (R24, R25, R27 to R31), with the source and the sink attached to it (R15). -/
structure Decoder where
  /-- `phase` (R24) -/
  phase : Phase
  /-- `fault_cause` (R25) -/
  faultCause : Cause
  /-- `fault_code` (R25) -/
  faultCode : Code
  /-- `fault_dictSize` (R25) -/
  faultDictSize : DictSize
  /-- `prevCode` (R27) -/
  prevCode : Code
  /-- the decoder's `dictSize` (R27) -/
  dictSize : DictSize
  /-- `r_have` (R28) -/
  rHave : Bool
  /-- `r_nib` (R28) -/
  rNib : Nibble
  /-- `a_ptr` (R29), a natural (D9) -/
  aPtr : Nat
  /-- `a_mark` (R29), a natural (D9) -/
  aMark : Nat
  /-- `E` (R30): the entries that hold a value, by code -/
  entries : List (Nat × Entry)
  /-- `ARENA` (R31): the bytes that hold a value, by offset -/
  arena : List Host.Cell
  /-- the source (R220) -/
  source : DecSource
  /-- the sink (R221) -/
  sink : Sink
  deriving DecidableEq, Repr

/-- What the host can do to the block (R223, R226, R230): attach a source and a sink to a unit, and issue the three commands of the table. -/
inductive HostCmd where
  | attachEncoder (source : List Byte) (answers : List SinkAnswer)
  | attachDecoder (source : DecSource) (answers : List SinkAnswer)
  | encStart
  | decStart
  | statusRead (u : UnitId)
  deriving DecidableEq, Repr

/-- Who acts next (notes/assumptions/1.md). -/
inductive Turn where
  | host (c : HostCmd)
  | encoder
  | decoder
  deriving DecidableEq, Repr

/-- What an operation that has a result returned last (notes/assumptions/10.md). -/
inductive Answer where
  | none
  /-- TRIE.LOOKUP: the cell -/
  | cell (v : Code)
  /-- ARENA.ALLOC: the offset of the block -/
  | offset (o : Nat)
  /-- DICT.FIRSTBYTE and SRC.READ: a byte -/
  | symbol (x : Byte)
  /-- GETCODE: a code -/
  | code (c : Code)
  /-- SRC.READ and GETCODE: end of stream -/
  | eos
  /-- SRC.READ and GETCODE on a pipe: the source has not answered yet -/
  | waiting
  /-- SNK.WRITE: the sink's answer -/
  | sink (a : SinkAnswer)
  /-- START accepted (R224, R225) -/
  | startAccepted
  /-- START refused: the unit is running (R229) -/
  | startRefused
  /-- source and sink attached -/
  | attached
  /-- attaching refused: the unit is running (R283, D18) -/
  | attachRefused
  /-- STATUS.READ: `phase`, `fault_cause`, `fault_code`, `fault_dictSize` -/
  | status (phase cause : Bits3) (code : Code) (dictSize : DictSize)
  deriving DecidableEq, Repr

/-- The whole state of the model. The two units share nothing (R35). -/
structure State where
  /-- the parameters; no step writes them (R7, notes/assumptions/4.md) -/
  config : Config
  enc : Encoder
  dec : Decoder
  /-- the turns still to come -/
  agenda : List Turn
  /-- an operation presented to the next step, which performs it; no step writes one here (notes/assumptions/11.md) -/
  port : Option Instr
  answer : Answer
  /-- how many free values have been drawn (notes/assumptions/8.md) -/
  draws : Nat
  deriving DecidableEq, Repr

/-- Why the model stops. None of these is a fault of the block: those are next states in phase FAULT (R254). -/
inductive Fault where
  /-- a read of an arena byte that holds no value: raised by the operations that read the arena (DICT.FIRSTBYTE, DICT.ADD, DICT.EMIT and their callers). Safe: R36 has a model treat such a read as a fault of the model -/
  | unwrittenArena
  /-- a read of an entry of `E` that holds no value: raised by the same operations. Safe, for the same reason -/
  | unwrittenEntry
  /-- an arena offset at or above `ARENA_BYTES`, which does not exist: raised by every access to the arena. Safe: no run reaches it -/
  | noSuchArenaByte
  /-- an entry number above 4095, which does not exist: raised by DICT.ADD with `dictSize` of 4096 or more. Safe: the rule excludes it at its call sites -/
  | noSuchEntry
  deriving DecidableEq, Repr

/-- Why an operation is not performed. -/
inductive Refusal where
  /-- the instruction has no meaning yet: answered by exec's arm alone. Safe -/
  | notModelled (mnemonic : String)
  /-- no row of the selection tables R99 and R100 selects this operation in this state: answered by the driver operations, and by the step where `dictSize` is above 4096. Safe: the spec gives the operation no step there -/
  | notSelected
  /-- a `PAIR3` or `TAIL2` does not start here: the writer holds a leftover nibble (R95). Answered by PACK.PAIR3 and PACK.TAIL2. Safe -/
  | notAtCodeBoundary
  deriving DecidableEq, Repr

/-! ## Updates, one per register or group of registers written together -/

/-- The control transfer `phase <- X` (R13). -/
def Encoder.setPhase (v0 : Phase) (e : Encoder) : Encoder := { e with phase := v0 }

/-- Write `fault_cause`. -/
def Encoder.setCause (v0 : Cause) (e : Encoder) : Encoder := { e with faultCause := v0 }

/-- Write `curNode`. -/
def Encoder.setCurNode (v0 : Code) (e : Encoder) : Encoder := { e with curNode := v0 }

/-- Write the encoder's `dictSize`. -/
def Encoder.setDictSize (v0 : DictSize) (e : Encoder) : Encoder := { e with dictSize := v0 }

/-- Write `w_have` and `w_nib`. -/
def Encoder.setResidual (v0 : Bool) (v1 : Nibble) (e : Encoder) : Encoder := { e with wHave := v0, wNib := v1 }

/-- Replace the contents of `TRIE`. -/
def Encoder.setTrie (v0 : List (Nat × Code)) (e : Encoder) : Encoder := { e with trie := v0 }

/-- What the source has left to answer. -/
def Encoder.setSource (v0 : List Byte) (e : Encoder) : Encoder := { e with source := v0 }

/-- The state of the sink. -/
def Encoder.setSink (v0 : Sink) (e : Encoder) : Encoder := { e with sink := v0 }

/-- Whether the sink awaits its first START. -/
def Encoder.setSinkNew (v0 : Bool) (e : Encoder) : Encoder := { e with sinkNew := v0 }

/-- The control transfer `phase <- X` (R13). -/
def Decoder.setPhase (v0 : Phase) (d : Decoder) : Decoder := { d with phase := v0 }

/-- Write the fault record. -/
def Decoder.setRecord (v0 : Cause) (v1 : Code) (v2 : DictSize) (d : Decoder) : Decoder := { d with faultCause := v0, faultCode := v1, faultDictSize := v2 }

/-- Write `prevCode`. -/
def Decoder.setPrevCode (v0 : Code) (d : Decoder) : Decoder := { d with prevCode := v0 }

/-- Write the decoder's `dictSize`. -/
def Decoder.setDictSize (v0 : DictSize) (d : Decoder) : Decoder := { d with dictSize := v0 }

/-- Write `r_have` and `r_nib`. -/
def Decoder.setResidual (v0 : Bool) (v1 : Nibble) (d : Decoder) : Decoder := { d with rHave := v0, rNib := v1 }

/-- Write `a_ptr`. -/
def Decoder.setPtr (v0 : Nat) (d : Decoder) : Decoder := { d with aPtr := v0 }

/-- Write `a_mark`. -/
def Decoder.setMark (v0 : Nat) (d : Decoder) : Decoder := { d with aMark := v0 }

/-- Replace the contents of `E`. -/
def Decoder.setEntries (v0 : List (Nat × Entry)) (d : Decoder) : Decoder := { d with entries := v0 }

/-- Replace the contents of `ARENA`. -/
def Decoder.setArena (v0 : List Host.Cell) (d : Decoder) : Decoder := { d with arena := v0 }

/-- What the source has left to answer. -/
def Decoder.setSource (v0 : DecSource) (d : Decoder) : Decoder := { d with source := v0 }

/-- The state of the sink. -/
def Decoder.setSink (v0 : Sink) (d : Decoder) : Decoder := { d with sink := v0 }

/-- The encoder unit after an operation. -/
def State.setEnc (v0 : Encoder) (s : State) : State := { s with enc := v0 }

/-- The decoder unit after an operation. -/
def State.setDec (v0 : Decoder) (s : State) : State := { s with dec := v0 }

/-- The turns still to come. -/
def State.setAgenda (v0 : List Turn) (s : State) : State := { s with agenda := v0 }

/-- The operation presented. -/
def State.setPort (v0 : Option Instr) (s : State) : State := { s with port := v0 }

/-- Record what an operation returned. -/
def State.setAnswer (v0 : Answer) (s : State) : State := { s with answer := v0 }

/-- Count the free values drawn. -/
def State.setDraws (v0 : Nat) (s : State) : State := { s with draws := v0 }


/-! ## After power-on (R36, R281) -/

/-- A sink that has accepted nothing and will answer `ok`. -/
def Sink.fresh : Sink := ⟨[], []⟩

/-- The encoder after power-on: IDLE; every other value is the model's (notes/assumptions/5.md, 6.md). -/
def Encoder.powerOn : Encoder where
  phase := .idle
  faultCause := .none
  curNode := 0#12
  dictSize := 0#13
  wHave := false
  wNib := 0#4
  trie := []
  source := []
  sink := Sink.fresh
  sinkNew := true

/-- The decoder after power-on: IDLE, no entry and no arena byte holds a value; every other value is the model's (notes/assumptions/5.md). -/
def Decoder.powerOn : Decoder where
  phase := .idle
  faultCause := .none
  faultCode := 0#12
  faultDictSize := 0#13
  prevCode := 0#12
  dictSize := 0#13
  rHave := false
  rNib := 0#4
  aPtr := 0
  aMark := 0
  entries := []
  arena := []
  source := .stream []
  sink := Sink.fresh

/-- The block after power-on (R36, R281), with the default parameters and nothing asked of it. -/
def State.reset : State where
  config := Config.default
  enc := Encoder.powerOn
  dec := Decoder.powerOn
  agenda := []
  port := none
  answer := .none
  draws := 0

end Sys2Proof.Machine
end

