-- ==== Sys2Proof/Machine/Operands.lean ====
section
/-! DEFINITION. Operand forms and small arithmetic of the rules: rounding, dictionary counts, status numbers. -/

namespace Sys2Proof.Machine

/-- The least multiple of 4 that is at least `n` (R13). -/
def round4 (n : Nat) : Nat := 4 * ((n + 3) / 4)

/-- `N_LITERALS` and `FIRST_DYNAMIC` as a dictionary count (R7). -/
def initialSize : DictSize := 256#13

/-- `DICT_MAX` (R7). -/
def fullSize : DictSize := 4096#13

/-- The code a growth step assigns: the value of `dictSize` before the increment, which is below 4096 (R146, R176). -/
def nextCode (d : DictSize) : Code := d.setWidth 12

/-- `dictSize + 1` (R14 (a)). -/
def grow (d : DictSize) : DictSize := d + 1#13

/-- Is a unit in a phase that takes events (R26, R231)? -/
def running : Phase → Bool
  | .first => true
  | .run => true
  | .idle => false
  | .done => false
  | .fault => false

/-- The number of a phase (R24). -/
def phaseNumber : Phase → Bits3
  | .idle => 0#3
  | .first => 1#3
  | .run => 2#3
  | .done => 3#3
  | .fault => 4#3

/-- The number of a cause (R240). -/
def causeNumber : Cause → Bits3
  | .none => 0#3
  | .corruptCode => 1#3
  | .sinkFail => 2#3
  | .allocFail => 3#3
  | .noPrevCode => 4#3
  | .staleCode => 5#3
  | .truncated => 6#3

end Sys2Proof.Machine
end

