-- ==== Sys2Proof/Machine/Flags.lean ====
section
/-! DEFINITION. The block's only flags, `w_have` and `r_have`, with the nibble each guards (R21, R28, R33). -/

namespace Sys2Proof.Machine

/-- "4 bits leftover": `w_nib <- n`, `w_have <- 1` (R121). -/
def Encoder.holdNibble (n : Nibble) (e : Encoder) : Encoder := e.setResidual true n

/-- "Clearing the leftover": `w_have <- 0`, `w_nib <- 0` (R121, R122). -/
def Encoder.dropNibble (e : Encoder) : Encoder := e.setResidual false 0#4

/-- "4 bits leftover": `r_nib <- n`, `r_have <- 1` (R123). -/
def Decoder.holdNibble (n : Nibble) (d : Decoder) : Decoder := d.setResidual true n

/-- `r_have <- 0`, `r_nib <- 0` (R123). -/
def Decoder.dropNibble (d : Decoder) : Decoder := d.setResidual false 0#4

end Sys2Proof.Machine
end

