-- ==== Sys2Proof/Machine/Ops.lean ====
section
/-! DEFINITION. The shared operations: how a sub-operation ends, taking a fault, the stream transactions, the accesses to the three memories, and the sub-operations of the rules over one unit. -/

namespace Sys2Proof.Machine

/-- How a sub-operation over a unit `σ` ends: it returns a value, or the unit has taken a fault and no later line is performed (R13 `raise`, R254), or the model stops. -/
inductive Run (σ α : Type) where
  | ok (a : α) (s : σ)
  | raised (s : σ)
  | stop (f : Fault)
  deriving DecidableEq, Repr

/-- The next line of a listing: performed only where the lines before it have ended normally (R13, R254). -/
def Run.bind {σ α β : Type} (r : Run σ α) (k : α → σ → Run σ β) : Run σ β :=
  match r with
  | .ok a s => k a s
  | .raised s => .raised s
  | .stop f => .stop f

/-! ## Taking a fault (R254)

One listing for both units: the cause, then the code and `dictSize` recorded ("decoder only"), then phase FAULT. There is no return beside it: R256 gives none, and only START leaves the phase. -/

/-- `raise F` in the encoder unit (R254). -/
def Encoder.raise (f : Cause) (e : Encoder) : Encoder :=
  (e.setCause f).setPhase .fault

/-- `raise F(code = c, dictSize = d)` in the decoder unit (R254). -/
def Decoder.raise (f : Cause) (c : Code) (n : DictSize) (d : Decoder) : Decoder :=
  (d.setRecord f c n).setPhase .fault

/-- `raise F` with no information: it is taken as 0, 0 (R254). -/
def Decoder.raiseBare (f : Cause) (d : Decoder) : Decoder := d.raise f 0#12 0#13

/-! ## The stream transactions (R220 to R222) -/

/-- `SnkWrite(v)` on a sink: its answer, and the sink after it (R221). -/
def Sink.write (v : Byte) (k : Sink) : SinkAnswer × Sink :=
  match k.answers with
  | [] => (.ok, { k with accepted := k.accepted ++ [v] })
  | .ok :: rest => (.ok, { accepted := k.accepted ++ [v], answers := rest })
  | .fail :: rest => (.fail, { k with answers := rest })

/-- `emit(v)` in the encoder unit (R222). -/
def Encoder.emit (v : Byte) (e : Encoder) : Run Encoder Unit :=
  match e.sink.write v with
  | (.ok, k) => .ok () (e.setSink k)
  | (.fail, k) => .raised ((e.setSink k).raise .sinkFail)

/-- `emit(v)` in the decoder unit (R222). -/
def Decoder.emit (v : Byte) (d : Decoder) : Run Decoder Unit :=
  match d.sink.write v with
  | (.ok, k) => .ok () (d.setSink k)
  | (.fail, k) => .raised ((d.setSink k).raiseBare .sinkFail)

/-- `SrcRead()` in the encoder unit (R220). -/
def Encoder.read (e : Encoder) : SymbolEvent × Encoder :=
  match e.source with
  | [] => (.eos, e)
  | v :: rest => (.byte v, e.setSource rest)

/-- What the other end of a pipe shows: the bytes the sink has accepted, and whether the encoder has reached DONE with it (R230). -/
structure Feed where
  bytes : List Byte
  ended : Bool
  deriving DecidableEq, Repr

/-- What the encoder's sink shows to a pipe (R230). DONE counts only if START came after the sink was attached; an encoder started again on the same sink goes on with the same stream, whose end is then the later DONE (the model's choice, notes/assumptions/20.md). -/
def Encoder.feed (e : Encoder) : Feed := ⟨e.sink.accepted, decide (e.phase = .done) && !e.sinkNew⟩

/-- What a source is once the encoder has another sink: a pipe keeps the bytes of the old one that are still to be consumed, and ends after them if the encoder had reached DONE with it (the model's choice, notes/assumptions/20.md). -/
def DecSource.release (f : Feed) : DecSource → DecSource
  | .stream rest => .stream rest
  | .pipe taken => if f.ended then .stream (f.bytes.drop taken) else .stalled (f.bytes.drop taken)
  | .stalled rest => .stalled rest

/-- `SrcRead()` in the decoder unit (R220); none where a pipe has not answered (R230, notes/assumptions/18.md, 20.md). -/
def Decoder.read (f : Feed) (d : Decoder) : Option (SymbolEvent × Decoder) :=
  match d.source with
  | .stream [] => some (.eos, d)
  | .stream (v :: rest) => some (.byte v, d.setSource (.stream rest))
  | .pipe taken =>
      match f.bytes.drop taken with
      | v :: _ => some (.byte v, d.setSource (.pipe (taken + 1)))
      | [] => if f.ended then some (.eos, d) else none
  | .stalled [] => none
  | .stalled (v :: rest) => some (.byte v, d.setSource (.stalled rest))

/-! ## The bit-packing codec (R121 to R123) -/

/-- `PUTCODE(c)` (R121). -/
def Encoder.putCode (c : Code) (e : Encoder) : Run Encoder Unit :=
  if e.wHave = false then
    (e.emit (codeHigh8 c)).bind fun _ e1 =>
      .ok () (e1.holdNibble (codeLow4 c))
  else
    (e.emit (joinNibbles e.wNib (codeHigh4 c))).bind fun _ e1 =>
      (e1.emit (codeLow8 c)).bind fun _ e2 =>
        .ok () e2.dropNibble

/-- `PUTLAST(c)` (R122). -/
def Encoder.putLast (c : Code) (e : Encoder) : Run Encoder Unit :=
  if e.wHave = false then
    (e.emit (codeHigh8 c)).bind fun _ e1 =>
      e1.emit (joinNibbles (codeLow4 c) 0#4)
  else
    (e.emit (joinNibbles e.wNib (codeHigh4 c))).bind fun _ e1 =>
      (e1.emit (codeLow8 c)).bind fun _ e2 =>
        .ok () e2.dropNibble

/-- What GETCODE answers where the source ends after the first byte of a code: EOS, or the fault Truncated (R123, U4). -/
def Decoder.cutShort (cfg : Config) (d : Decoder) : Run Decoder (Option CodeEvent) :=
  match cfg.truncation with
  | .silent => .ok (some .eos) d
  | .report => .raised (d.raiseBare .truncated)

/-- `GETCODE()` (R123); none, with nothing consumed, where the source has not answered every read yet. -/
def Decoder.getCode (cfg : Config) (f : Feed) (d : Decoder) : Run Decoder (Option CodeEvent) :=
  if d.rHave = false then
    match d.read f with
    | none => .ok none d
    | some (.eos, d1) => .ok (some .eos) d1
    | some (.byte a, d1) =>
      match d1.read f with
      | none => .ok none d
      | some (.eos, d2) => d2.cutShort cfg
      | some (.byte b, d2) => .ok (some (.code (codeFromBytes a b))) (d2.holdNibble (byteLow4 b))
  else
    match d.read f with
    | none => .ok none d
    | some (.eos, d1) => .ok (some .eos) d1
    | some (.byte b, d1) => .ok (some (.code (codeFromNibble d.rNib b))) d1.dropNibble

/-! ## The trie (R140 to R142) -/

/-- `TRIE[n][b]` (R140). -/
def Encoder.lookup (n : Code) (b : Byte) (e : Encoder) : Code := Memory.getCell e.trie n b

/-- `TRIE[n][b] <- v` (R141). -/
def Encoder.insert (n : Code) (b : Byte) (v : Code) (e : Encoder) : Encoder :=
  e.setTrie (Memory.setCell e.trie n b v)

/-- Every cell becomes 0 (R142). -/
def Encoder.clearTrie (e : Encoder) : Encoder := e.setTrie []

/-! ## The arena and the entry table: accesses (R13, R30, R31) -/

/-- `ARENA[o]`, a read. -/
def Decoder.readArena (cfg : Config) (o : Nat) (d : Decoder) : Run Decoder Byte :=
  if cfg.arenaBytes ≤ o then .stop .noSuchArenaByte
  else match Memory.get? d.arena o with
    | some v => .ok v d
    | none => .stop .unwrittenArena

/-- `ARENA[o] <- v`. -/
def Decoder.writeArena (cfg : Config) (o : Nat) (v : Byte) (d : Decoder) : Run Decoder Unit :=
  if cfg.arenaBytes ≤ o then .stop .noSuchArenaByte
  else .ok () (d.setArena (Memory.set d.arena o v))

/-- `E[c]`, a read. -/
def Decoder.readEntry (c : Code) (d : Decoder) : Run Decoder Entry :=
  match Memory.get? d.entries c.toNat with
  | some en => .ok en d
  | none => .stop .unwrittenEntry

/-- `E[i] <- en`; there is no entry above 4095. -/
def Decoder.writeEntry (i : Nat) (en : Entry) (d : Decoder) : Run Decoder Unit :=
  if 4096 ≤ i then .stop .noSuchEntry
  else .ok () (d.setEntries (Memory.set d.entries i en))

/-! ## The arena allocator (R170 to R173) -/

/-- `ARENA.INIT()` (R170). -/
def Decoder.arenaInit (d : Decoder) : Decoder := d.setPtr 0

/-- `ARENA.ALLOC(n)` (R171). -/
def Decoder.alloc (cfg : Config) (n : Nat) (d : Decoder) : Run Decoder Nat :=
  if cfg.arenaBytes < d.aPtr + round4 n then .raised (d.raiseBare .allocFail)
  else .ok d.aPtr (d.setPtr (d.aPtr + round4 n))

/-- `ARENA.MARK()` (R172). -/
def Decoder.mark (d : Decoder) : Decoder := d.setMark d.aPtr

/-- `ARENA.REWIND()` (R173). -/
def Decoder.rewind (d : Decoder) : Decoder := d.setPtr d.aMark

/-! ## The entry table (R174 to R177) -/

/-- The loop of `DICT.INIT`: `count` literal entries from code `c` on, ascending (R174). -/
def Decoder.initLiterals (cfg : Config) : Nat → Nat → Decoder → Run Decoder Unit
  | 0, _, d => .ok () d
  | count + 1, c, d =>
      (d.alloc cfg 1).bind fun o d1 =>
        (d1.writeArena cfg o (BitVec.ofNat 8 c)).bind fun _ d2 =>
          (d2.writeEntry c ⟨o, 1⟩).bind fun _ d3 =>
            Decoder.initLiterals cfg count (c + 1) d3

/-- `DICT.INIT()` (R174). -/
def Decoder.dictInit (cfg : Config) (d : Decoder) : Run Decoder Unit :=
  Decoder.initLiterals cfg 256 0 d

/-- `DICT.FIRSTBYTE(c)` (R175). -/
def Decoder.firstByte (cfg : Config) (c : Code) (d : Decoder) : Run Decoder Byte :=
  (d.readEntry c).bind fun en d1 => d1.readArena cfg en.off

/-- The copy loop of `DICT.ADD`: `count` bytes from `src` to `dst`, ascending (R176). -/
def Decoder.copyBytes (cfg : Config) : Nat → Nat → Nat → Decoder → Run Decoder Unit
  | 0, _, _, d => .ok () d
  | count + 1, src, dst, d =>
      (d.readArena cfg src).bind fun v d1 =>
        (d1.writeArena cfg dst v).bind fun _ d2 =>
          Decoder.copyBytes cfg count (src + 1) (dst + 1) d2

/-- `DICT.ADD(p, x)` (R176). -/
def Decoder.dictAdd (cfg : Config) (p : Code) (x : Byte) (d : Decoder) : Run Decoder Unit :=
  (d.readEntry p).bind fun en d0 =>
    (d0.alloc cfg (en.len + 1)).bind fun o d1 =>
      (Decoder.copyBytes cfg en.len en.off o d1).bind fun _ d2 =>
        (d2.writeArena cfg (o + en.len) x).bind fun _ d3 =>
          (d3.writeEntry d3.dictSize.toNat ⟨o, en.len + 1⟩).bind fun _ d4 =>
            .ok () (d4.setDictSize (grow d4.dictSize))

/-- The loop of `DICT.EMIT`: `count` bytes from offset `o`, ascending (R177). -/
def Decoder.emitRange (cfg : Config) : Nat → Nat → Decoder → Run Decoder Unit
  | 0, _, d => .ok () d
  | count + 1, o, d =>
      (d.readArena cfg o).bind fun v d1 =>
        (d1.emit v).bind fun _ d2 =>
          Decoder.emitRange cfg count (o + 1) d2

/-- `DICT.EMIT(c)` (R177). -/
def Decoder.dictEmit (cfg : Config) (c : Code) (d : Decoder) : Run Decoder Unit :=
  (d.readEntry c).bind fun en d1 => Decoder.emitRange cfg en.len en.off d1

/-! ## Ending an operation -/

/-- An encoder operation without a result: the unit after it, its fault taken where one was raised. -/
def State.endEnc (s : State) : Run Encoder Unit → Host.Outcome State Fault Refusal
  | .ok _ e => .next (s.setEnc e)
  | .raised e => .next (s.setEnc e)
  | .stop f => .fault f

/-- A decoder operation without a result. -/
def State.endDec (s : State) : Run Decoder Unit → Host.Outcome State Fault Refusal
  | .ok _ d => .next (s.setDec d)
  | .raised d => .next (s.setDec d)
  | .stop f => .fault f

/-- A decoder sub-operation performed alone: its result goes to `answer` (notes/assumptions/10.md). -/
def State.answerDec {α : Type} (s : State) (toAnswer : α → Answer) : Run Decoder α → Host.Outcome State Fault Refusal
  | .ok a d => .next ((s.setDec d).setAnswer (toAnswer a))
  | .raised d => .next (s.setDec d)
  | .stop f => .fault f

end Sys2Proof.Machine
end

