-- ==== Sys2Proof/Machine/Arena.lean ====
section
/-! DEFINITION. The arena allocator and the entry table: ARENA.INIT, ARENA.ALLOC, ARENA.MARK, ARENA.REWIND, DICT.INIT, DICT.FIRSTBYTE, DICT.ADD, DICT.EMIT. -/

namespace Sys2Proof.Machine

/-- ARENA.INIT (R170). -/
def execArenaInit (s : State) : Host.Outcome State Fault Refusal :=
  .next (s.setDec s.dec.arenaInit)

/-- ARENA.ALLOC n (R171). -/
def execArenaAlloc (n : Nat) (s : State) : Host.Outcome State Fault Refusal :=
  s.answerDec Answer.offset (s.dec.alloc s.config n)

/-- ARENA.MARK (R172). -/
def execArenaMark (s : State) : Host.Outcome State Fault Refusal :=
  .next (s.setDec s.dec.mark)

/-- ARENA.REWIND (R173). -/
def execArenaRewind (s : State) : Host.Outcome State Fault Refusal :=
  .next (s.setDec s.dec.rewind)

/-- DICT.INIT (R174). -/
def execDictInit (s : State) : Host.Outcome State Fault Refusal :=
  s.endDec (s.dec.dictInit s.config)

/-- DICT.FIRSTBYTE c (R175). -/
def execDictFirstByte (c : Code) (s : State) : Host.Outcome State Fault Refusal :=
  s.answerDec Answer.symbol (s.dec.firstByte s.config c)

/-- DICT.ADD p x (R176). -/
def execDictAdd (p : Code) (x : Byte) (s : State) : Host.Outcome State Fault Refusal :=
  s.endDec (s.dec.dictAdd s.config p x)

/-- DICT.EMIT c (R177). -/
def execDictEmit (c : Code) (s : State) : Host.Outcome State Fault Refusal :=
  s.endDec (s.dec.dictEmit s.config c)

end Sys2Proof.Machine
end

