-- ==== Sys2Proof/Machine/Codec.lean ====
section
/-! DEFINITION. The wire formats and the bit-packing codec: PACK.PAIR3, PACK.TAIL2, PUTCODE, PUTLAST, GETCODE. -/

namespace Sys2Proof.Machine

/-- Bytes given to the encoder's sink in order. -/
def Encoder.emitAll : List Byte → Encoder → Run Encoder Unit
  | [], e => .ok () e
  | v :: vs, e => (e.emit v).bind fun _ e1 => Encoder.emitAll vs e1

/-- PACK.PAIR3 (R93): the three bytes of a complete pair, which starts at a code boundary (R95, notes/assumptions/15.md). -/
def execPackPair3 (code1 code2 : Code) (s : State) : Host.Outcome State Fault Refusal :=
  if s.enc.wHave = false then s.endEnc (Encoder.emitAll (pair3Bytes code1 code2) s.enc)
  else .refused .notAtCodeBoundary

/-- PACK.TAIL2 (R94): the two bytes of the last unpaired code (notes/assumptions/15.md). -/
def execPackTail2 (code : Code) (s : State) : Host.Outcome State Fault Refusal :=
  if s.enc.wHave = false then s.endEnc (Encoder.emitAll (tail2Bytes code) s.enc)
  else .refused .notAtCodeBoundary

/-- PUTCODE c (R121). -/
def execPutCode (c : Code) (s : State) : Host.Outcome State Fault Refusal :=
  s.endEnc (s.enc.putCode c)

/-- PUTLAST c (R122). -/
def execPutLast (c : Code) (s : State) : Host.Outcome State Fault Refusal :=
  s.endEnc (s.enc.putLast c)

/-- The result of GETCODE as the model records it. -/
def codeAnswer : Option CodeEvent → Answer
  | some (.code c) => .code c
  | some .eos => .eos
  | none => .waiting

/-- GETCODE (R123). -/
def execGetCode (s : State) : Host.Outcome State Fault Refusal :=
  s.answerDec codeAnswer (s.dec.getCode s.config s.enc.feed)

end Sys2Proof.Machine
end

