-- ==== Sys2Proof/Machine/DecoderDriver.lean ====
section
/-! DEFINITION. The decoder driver: DEC.FIRST, DEC.FIRST.BAD, DEC.CODE.CORRUPT, DEC.CODE.KNOWN, DEC.CODE.KWKWK, DEC.CODE.RESET, DEC.CODE.STALE, DEC.EOS. Each is performed where its row of R100 selects it; the code itself has been taken by the step's GETCODE (notes/assumptions/12.md). -/

namespace Sys2Proof.Machine

/-- DEC.FIRST c (R180). -/
def execDecFirst (c : Byte) (s : State) : Host.Outcome State Fault Refusal :=
  if s.dec.phase = .first then
    s.endDec <|
      (s.dec.firstByte s.config (literalCode c)).bind fun x d1 =>
        (d1.emit x).bind fun _ d2 =>
          .ok () ((d2.setPrevCode (literalCode c)).setPhase .run)
  else .refused .notSelected

/-- DEC.FIRST.BAD c (R181). -/
def execDecFirstBad (c : Code) (s : State) : Host.Outcome State Fault Refusal :=
  if s.dec.phase = .first ∧ 256 ≤ c.toNat then
    (if 256 < c.toNat then .next (s.setDec (s.dec.raise .corruptCode c initialSize))
     else .next (s.setDec (s.dec.raise .noPrevCode c initialSize)))
  else .refused .notSelected

/-- DEC.CODE.CORRUPT c (R183). -/
def execDecCodeCorrupt (c : Code) (s : State) : Host.Outcome State Fault Refusal :=
  if s.dec.phase = .run ∧ s.dec.dictSize < widenCode c then
    .next (s.setDec (s.dec.raise .corruptCode c s.dec.dictSize))
  else .refused .notSelected

/-- Steps 4 to 6 of a code that adds an entry (R182): the growth step with `lastChar` chosen before it (R291), then the output (R290), then `prevCode`. -/
def Decoder.growAndEmit (cfg : Config) (c : Code) (lastChar : Byte) (d : Decoder) : Run Decoder Unit :=
  (d.dictAdd cfg d.prevCode lastChar).bind fun _ d1 =>
    (d1.dictEmit cfg c).bind fun _ d2 =>
      .ok () (d2.setPrevCode c)

/-- DEC.CODE.KNOWN c (R184). -/
def execDecCodeKnown (c : Code) (s : State) : Host.Outcome State Fault Refusal :=
  if s.dec.phase = .run ∧ s.dec.dictSize < fullSize ∧ widenCode c < s.dec.dictSize then
    s.endDec ((s.dec.firstByte s.config c).bind fun x d1 => d1.growAndEmit s.config c x)
  else .refused .notSelected

/-- DEC.CODE.KWKWK c (R185). -/
def execDecCodeKwkwk (c : Code) (s : State) : Host.Outcome State Fault Refusal :=
  if s.dec.phase = .run ∧ s.dec.dictSize < fullSize ∧ widenCode c = s.dec.dictSize then
    s.endDec ((s.dec.firstByte s.config s.dec.prevCode).bind fun x d1 => d1.growAndEmit s.config c x)
  else .refused .notSelected

/-- The reset step (R186; for a code of 256 or more, U3): `lastChar` computed and never used, the dictionary reset, the output, `prevCode`. -/
def Decoder.resetAndEmit (cfg : Config) (c : Code) (d : Decoder) : Run Decoder Unit :=
  (d.firstByte cfg c).bind fun _ d1 =>
    ((d1.setDictSize initialSize).rewind.dictEmit cfg c).bind fun _ d2 =>
      .ok () (d2.setPrevCode c)

/-- DEC.CODE.RESET c (R186). -/
def execDecCodeReset (c : Byte) (s : State) : Host.Outcome State Fault Refusal :=
  if s.dec.phase = .run ∧ s.dec.dictSize = fullSize then
    s.endDec (s.dec.resetAndEmit s.config (literalCode c))
  else .refused .notSelected

/-- DEC.CODE.STALE c (R187; under `STALE_POLICY = legacy`, U3). -/
def execDecCodeStale (c : Code) (s : State) : Host.Outcome State Fault Refusal :=
  if s.dec.phase = .run ∧ s.dec.dictSize = fullSize ∧ 256 ≤ c.toNat then
    match s.config.stale with
    | .fault => .next (s.setDec (s.dec.raise .staleCode c s.dec.dictSize))
    | .legacy => s.endDec (s.dec.resetAndEmit s.config c)
  else .refused .notSelected

/-- DEC.EOS (R188). -/
def execDecEos (s : State) : Host.Outcome State Fault Refusal :=
  if running s.dec.phase then .next (s.setDec (s.dec.setPhase .done))
  else .refused .notSelected

end Sys2Proof.Machine
end

