-- ==== Sys2Proof/Machine/EncoderDriver.lean ====
section
/-! DEFINITION. The encoder driver: ENC.FIRST, ENC.BYTE.HIT, ENC.BYTE.ADD, ENC.BYTE.RESET, ENC.EOS, ENC.EOS.EMPTY. Each is performed where its row of R99 selects it; the event itself has been taken from the source by the step (notes/assumptions/12.md). -/

namespace Sys2Proof.Machine

/-- ENC.FIRST b (R143). -/
def execEncFirst (b : Byte) (s : State) : Host.Outcome State Fault Refusal :=
  if s.enc.phase = .first then
    .next (s.setEnc ((s.enc.setCurNode (literalCode b)).setPhase .run))
  else .refused .notSelected

/-- ENC.BYTE.HIT b (R145). -/
def execEncByteHit (b : Byte) (s : State) : Host.Outcome State Fault Refusal :=
  if s.enc.phase = .run ∧ s.enc.lookup s.enc.curNode b ≠ 0#12 then
    .next (s.setEnc (s.enc.setCurNode (s.enc.lookup s.enc.curNode b)))
  else .refused .notSelected

/-- The lines of ENC.BYTE.ADD after its PUTCODE (R146). -/
def Encoder.addPhrase (b : Byte) (e : Encoder) : Encoder :=
  ((e.insert e.curNode b (nextCode e.dictSize)).setDictSize (grow e.dictSize)).setCurNode (literalCode b)

/-- ENC.BYTE.ADD b (R146). -/
def execEncByteAdd (b : Byte) (s : State) : Host.Outcome State Fault Refusal :=
  if s.enc.phase = .run ∧ s.enc.lookup s.enc.curNode b = 0#12 ∧ s.enc.dictSize < fullSize then
    s.endEnc ((s.enc.putCode s.enc.curNode).bind fun _ e => .ok () (e.addPhrase b))
  else .refused .notSelected

/-- The lines of ENC.BYTE.RESET after its PUTCODE (R147). -/
def Encoder.resetDictionary (b : Byte) (e : Encoder) : Encoder :=
  (e.clearTrie.setDictSize initialSize).setCurNode (literalCode b)

/-- ENC.BYTE.RESET b (R147). -/
def execEncByteReset (b : Byte) (s : State) : Host.Outcome State Fault Refusal :=
  if s.enc.phase = .run ∧ s.enc.lookup s.enc.curNode b = 0#12 ∧ s.enc.dictSize = fullSize then
    s.endEnc ((s.enc.putCode s.enc.curNode).bind fun _ e => .ok () (e.resetDictionary b))
  else .refused .notSelected

/-- ENC.EOS (R148). -/
def execEncEos (s : State) : Host.Outcome State Fault Refusal :=
  if s.enc.phase = .run then
    s.endEnc ((s.enc.putLast s.enc.curNode).bind fun _ e => .ok () (e.setPhase .done))
  else .refused .notSelected

/-- ENC.EOS.EMPTY (R149). -/
def execEncEosEmpty (s : State) : Host.Outcome State Fault Refusal :=
  if s.enc.phase = .first then .next (s.setEnc (s.enc.setPhase .done))
  else .refused .notSelected

end Sys2Proof.Machine
end

