-- ==== Sys2Proof/Machine/Streams.lean ====
section
/-! DEFINITION. The stream transactions and the host's commands: SRC.READ, SNK.WRITE, ENC.START, DEC.START, STATUS.READ, and attaching a source and a sink. -/

namespace Sys2Proof.Machine

/-- The answer of a source as the model records it. -/
def symbolAnswer : SymbolEvent → Answer
  | .byte v => .symbol v
  | .eos => .eos

/-- SRC.READ (R220); a pipe that has not answered yet leaves everything as it is (R230). -/
def execSrcRead (u : UnitId) (s : State) : Host.Outcome State Fault Refusal :=
  match u with
  | .encoder => .next ((s.setEnc s.enc.read.2).setAnswer (symbolAnswer s.enc.read.1))
  | .decoder =>
      match s.dec.read s.enc.feed with
      | some (ev, d) => .next ((s.setDec d).setAnswer (symbolAnswer ev))
      | none => .next (s.setAnswer .waiting)

/-- SNK.WRITE v (R221): the sink's answer is the result; only `emit` makes a fault of it (R222). -/
def execSnkWrite (u : UnitId) (v : Byte) (s : State) : Host.Outcome State Fault Refusal :=
  match u with
  | .encoder => .next ((s.setEnc (s.enc.setSink (s.enc.sink.write v).2)).setAnswer (.sink (s.enc.sink.write v).1))
  | .decoder => .next ((s.setDec (s.dec.setSink (s.dec.sink.write v).2)).setAnswer (.sink (s.dec.sink.write v).1))

/-- The lines of ENC.START (R224); `free` is what `curNode` is left with (notes/assumptions/8.md), and the sink is in use from here on (notes/assumptions/20.md). -/
def Encoder.start (free : Code) (e : Encoder) : Encoder :=
  (((((e.clearTrie.setDictSize initialSize).dropNibble).setCause .none).setCurNode free).setSinkNew false).setPhase .first

/-- ENC.START (R224), refused while the unit runs (R229, U7). -/
def execEncStart (s : State) : Host.Outcome State Fault Refusal :=
  if running s.enc.phase then .next (s.setAnswer .startRefused)
  else .next (((s.setEnc (s.enc.start (Config.freeCode s.draws))).setAnswer .startAccepted).setDraws (s.draws + 1))

/-- Nothing of an earlier invocation is left in the memories (R36, R280); `free` is what `prevCode` is left with (notes/assumptions/7.md, 8.md). -/
def Decoder.forget (free : Code) (d : Decoder) : Decoder :=
  ((d.setEntries []).setArena []).setPrevCode free

/-- The lines of DEC.START after DICT.INIT (R225). -/
def Decoder.startRegisters (d : Decoder) : Decoder :=
  (((d.mark.setDictSize initialSize).dropNibble).setRecord .none 0#12 0#13).setPhase .first

/-- The lines of DEC.START (R225). -/
def Decoder.start (cfg : Config) (free : Code) (d : Decoder) : Run Decoder Unit :=
  ((d.forget free).arenaInit.dictInit cfg).bind fun _ d1 => .ok () d1.startRegisters

/-- DEC.START (R225), refused while the unit runs (R229, U7). -/
def execDecStart (s : State) : Host.Outcome State Fault Refusal :=
  if running s.dec.phase then .next (s.setAnswer .startRefused)
  else ((s.setAnswer .startAccepted).setDraws (s.draws + 1)).endDec (s.dec.start s.config (Config.freeCode s.draws))

/-- STATUS.READ (R227): four values, any phase, no side effect but the result; of the encoder, which has no `fault_code` and no `fault_dictSize` (R25), both are 0, as for every cause that carries no code (D3, notes/assumptions/19.md). -/
def execStatusRead (u : UnitId) (s : State) : Host.Outcome State Fault Refusal :=
  match u with
  | .encoder => .next (s.setAnswer (.status (phaseNumber s.enc.phase) (causeNumber s.enc.faultCause) 0#12 0#13))
  | .decoder => .next (s.setAnswer (.status (phaseNumber s.dec.phase) (causeNumber s.dec.faultCause) s.dec.faultCode s.dec.faultDictSize))

/-- The host attaches a source and a fresh sink to the encoder; not while it runs (R226, R283, D18, notes/assumptions/13.md). A decoder whose source is the sink attached before keeps reading that one, from the position it has reached (the model's choice, notes/assumptions/20.md). -/
def State.attachEncoder (source : List Byte) (answers : List SinkAnswer) (s : State) : State :=
  if running s.enc.phase then s.setAnswer .attachRefused
  else ((s.setEnc (((s.enc.setSource source).setSink ⟨[], answers⟩).setSinkNew true)).setDec
    (s.dec.setSource (s.dec.source.release s.enc.feed))).setAnswer .attached

/-- The host attaches a source and a fresh sink to the decoder; not while it runs (R226, R230, R283, D18, notes/assumptions/13.md). A pipe is to the sink the encoder has now, and starts at whatever position the host names: `.pipe 0` reads all of it (the model's choice, notes/assumptions/20.md). -/
def State.attachDecoder (source : DecSource) (answers : List SinkAnswer) (s : State) : State :=
  if running s.dec.phase then s.setAnswer .attachRefused
  else (s.setDec ((s.dec.setSource source).setSink ⟨[], answers⟩)).setAnswer .attached

end Sys2Proof.Machine
end

