-- ==== Sys2Proof/Machine/Trie.lean ====
section
/-! DEFINITION. The trie sub-operations: TRIE.LOOKUP, TRIE.INSERT, TRIE.CLEAR. -/

namespace Sys2Proof.Machine

/-- TRIE.LOOKUP n b (R140): no side effect but the result. -/
def execTrieLookup (n : Code) (b : Byte) (s : State) : Host.Outcome State Fault Refusal :=
  .next (s.setAnswer (.cell (s.enc.lookup n b)))

/-- TRIE.INSERT n b v (R141). -/
def execTrieInsert (n : Code) (b : Byte) (v : Code) (s : State) : Host.Outcome State Fault Refusal :=
  .next (s.setEnc (s.enc.insert n b v))

/-- TRIE.CLEAR (R142). -/
def execTrieClear (s : State) : Host.Outcome State Fault Refusal :=
  .next (s.setEnc s.enc.clearTrie)

end Sys2Proof.Machine
end

