-- ==== Sys2Proof/Machine/Dispatch.lean ====
section
/-! DEFINITION. Dispatch: one arm per operation. -/

namespace Sys2Proof.Machine

/-- The meaning of an operation. -/
def exec (i : Instr) (s : State) : Host.Outcome State Fault Refusal :=
  match i with
  | .packPair3 code1 code2 => Sys2Proof.Machine.execPackPair3 code1 code2 s
  | .packTail2 code => Sys2Proof.Machine.execPackTail2 code s
  | .putCode c => Sys2Proof.Machine.execPutCode c s
  | .putLast c => Sys2Proof.Machine.execPutLast c s
  | .getCode => Sys2Proof.Machine.execGetCode s
  | .trieLookup n b => Sys2Proof.Machine.execTrieLookup n b s
  | .trieInsert n b v => Sys2Proof.Machine.execTrieInsert n b v s
  | .trieClear => Sys2Proof.Machine.execTrieClear s
  | .encFirst b => Sys2Proof.Machine.execEncFirst b s
  | .encByteHit b => Sys2Proof.Machine.execEncByteHit b s
  | .encByteAdd b => Sys2Proof.Machine.execEncByteAdd b s
  | .encByteReset b => Sys2Proof.Machine.execEncByteReset b s
  | .encEos => Sys2Proof.Machine.execEncEos s
  | .encEosEmpty => Sys2Proof.Machine.execEncEosEmpty s
  | .arenaInit => Sys2Proof.Machine.execArenaInit s
  | .arenaAlloc n => Sys2Proof.Machine.execArenaAlloc n s
  | .arenaMark => Sys2Proof.Machine.execArenaMark s
  | .arenaRewind => Sys2Proof.Machine.execArenaRewind s
  | .dictInit => Sys2Proof.Machine.execDictInit s
  | .dictFirstByte c => Sys2Proof.Machine.execDictFirstByte c s
  | .dictAdd p x => Sys2Proof.Machine.execDictAdd p x s
  | .dictEmit c => Sys2Proof.Machine.execDictEmit c s
  | .decFirst c => Sys2Proof.Machine.execDecFirst c s
  | .decFirstBad c => Sys2Proof.Machine.execDecFirstBad c s
  | .decCodeCorrupt c => Sys2Proof.Machine.execDecCodeCorrupt c s
  | .decCodeKnown c => Sys2Proof.Machine.execDecCodeKnown c s
  | .decCodeKwkwk c => Sys2Proof.Machine.execDecCodeKwkwk c s
  | .decCodeReset c => Sys2Proof.Machine.execDecCodeReset c s
  | .decCodeStale c => Sys2Proof.Machine.execDecCodeStale c s
  | .decEos => Sys2Proof.Machine.execDecEos s
  | .srcRead u => Sys2Proof.Machine.execSrcRead u s
  | .snkWrite u v => Sys2Proof.Machine.execSnkWrite u v s
  | .encStart => Sys2Proof.Machine.execEncStart s
  | .decStart => Sys2Proof.Machine.execDecStart s
  | .statusRead u => Sys2Proof.Machine.execStatusRead u s

end Sys2Proof.Machine
end

