-- ==== Sys2Proof/Machine/Fetch.lean ====
section
/-! DEFINITION. Which operation the next step performs: whose turn it is, the event taken from a source, and the row the event selects; and placing one operation where the next step finds it. -/

namespace Sys2Proof.Machine

/-- What a turn comes to before any operation is performed. -/
inductive Fetched where
  /-- the operation selected, and the state it is performed in -/
  | run (i : Instr) (s : State)
  /-- no operation in this step (R231, U8; a pipe that has not answered; the fault Truncated of GETCODE; an attachment) -/
  | quiet (s : State)
  /-- no row of the selection tables applies -/
  | unselected (r : DecodeReject)
  /-- the model stops -/
  | stop (f : Fault)
  deriving DecidableEq, Repr

/-- An event has been taken: the operation its row selects. -/
def Fetched.ofDecoded (s : State) : Decoded → Fetched
  | .instr i => .run i s
  | .reject r => .unselected r

/-- The encoder's cell that the RUN rows of R99 look at. -/
def Encoder.cellFor (e : Encoder) : SymbolEvent → Code
  | .byte b => e.lookup e.curNode b
  | .eos => 0#12

/-- The encoder's turn: one source answer, and the row of R99 it selects; nothing in a phase without steps (R231). -/
def State.fetchEncoder (s : State) : Fetched :=
  if running s.enc.phase then
    .ofDecoded (s.setEnc s.enc.read.2)
      (decodeEnc s.enc.phase (s.enc.cellFor s.enc.read.1) s.enc.dictSize s.enc.read.1)
  else .quiet s

/-- The decoder's turn: one GETCODE, and the row of R100 its result selects; nothing in a phase without steps (R231). -/
def State.fetchDecoder (s : State) : Fetched :=
  if running s.dec.phase then
    match s.dec.getCode s.config s.enc.feed with
    | .ok (some ev) d => .ofDecoded (s.setDec d) (decodeDec s.dec.phase s.dec.dictSize ev)
    | .ok none _ => .quiet s
    | .raised d => .quiet (s.setDec d)
    | .stop f => .stop f
  else .quiet s

/-- The host's turn (R223). -/
def State.fetchHost (s : State) : HostCmd → Fetched
  | .attachEncoder source answers => .quiet (s.attachEncoder source answers)
  | .attachDecoder source answers => .quiet (s.attachDecoder source answers)
  | .encStart => .run .encStart s
  | .decStart => .run .decStart s
  | .statusRead u => .run (.statusRead u) s

/-- One turn. -/
def State.fetchTurn (s : State) : Turn → Fetched
  | .host c => s.fetchHost c
  | .encoder => s.fetchEncoder
  | .decoder => s.fetchDecoder

/-- With nothing listed the units run by themselves, the encoder first (R226, notes/assumptions/1.md). -/
def State.fetchFree (s : State) : Fetched :=
  if running s.enc.phase then s.fetchEncoder
  else if running s.dec.phase then s.fetchDecoder
  else .quiet s

/-- What the next step performs: an operation presented, else the next turn. -/
def State.fetch (s : State) : Fetched :=
  match s.port with
  | some i => .run i (s.setPort none)
  | none =>
    match s.agenda with
    | t :: rest => (s.setAgenda rest).fetchTurn t
    | [] => s.fetchFree

/-- A decoder that DEC.START has just initialised, or as it is where it could not. -/
def Decoder.started (cfg : Config) (free : Code) (d : Decoder) : Decoder :=
  match d.start cfg free with
  | .ok _ d1 => d1
  | .raised d1 => d1
  | .stop _ => d

/-- Put one operation where the next step performs it (notes/assumptions/17.md): a first symbol in front of the source of an encoder just started, a first code as a `TAIL2` in the source of a decoder just started, each with its unit's turn; any other operation is presented at the port. That the unit is brought to what START leaves (R36), with `curNode` or `prevCode` as it was, is the model's choice. -/
def State.place (s : State) : Instr → State
  | .encFirst b =>
      ((s.setPort none).setAgenda (.encoder :: s.agenda)).setEnc
        ((s.enc.start s.enc.curNode).setSource (b :: s.enc.source))
  | .decFirst c =>
      ((s.setPort none).setAgenda (.decoder :: s.agenda)).setDec
        ((s.dec.started s.config s.dec.prevCode).setSource (.stream (tail2Bytes (literalCode c))))
  | .decFirstBad c =>
      ((s.setPort none).setAgenda (.decoder :: s.agenda)).setDec
        ((s.dec.started s.config s.dec.prevCode).setSource (.stream (tail2Bytes c)))
  | i => s.setPort (some i)

/-- The word of the table, read by the decoder and placed; nothing is placed where it is refused. -/
def State.placeWord (s : State) (nbits w : Nat) : State :=
  match decodeTableWord nbits w with
  | some i => s.place i
  | none => s

end Sys2Proof.Machine
end

