-- ==== Sys2Proof/Machine/Step.lean ====
section
/-! DEFINITION. One step of the block. -/

namespace Sys2Proof.Machine

/-- One step: a unit's whole reaction to one event, or a command of the host (R8). -/
def step (s : State) : Host.Outcome State Fault Refusal :=
  match s.fetch with
  | .run i s1 => exec i s1
  | .quiet s1 => .next s1
  | .unselected _ => .refused .notSelected
  | .stop f => .fault f

/-- The state with the instruction of a table word placed where the next step performs it. -/
def State.withFetchWord (s : State) (nbits w : Nat) : State := s.placeWord nbits w

end Sys2Proof.Machine
end

