-- ==== Sys2Proof/Safety.lean ====
section
/-! DEFINITION. The terms claims are stated in: what a sink will accept, what the memories hold, and the invariants R23 and R32. -/

namespace Sys2Proof.Machine

/-! ## Sinks (R221, R222) -/

/-- The next `n` writes are all answered `ok`. -/
def Sink.accepts (n : Nat) (k : Sink) : Bool := (k.answers.take n).all fun a => decide (a = .ok)

/-- The write after the next `j` is the first that fails. -/
def Sink.failsAt (j : Nat) (k : Sink) : Bool := k.accepts j && decide (k.answers[j]? = some .fail)

/-- The sink after it has accepted `bytes`. -/
def Sink.got (bytes : List Byte) (k : Sink) : Sink :=
  ⟨k.accepted ++ bytes, k.answers.drop bytes.length⟩

/-- The sink after it has accepted the first `j` of `bytes` and refused the next. -/
def Sink.failed (bytes : List Byte) (j : Nat) (k : Sink) : Sink :=
  ⟨k.accepted ++ bytes.take j, k.answers.drop (j + 1)⟩

/-- Every state a step could give from an outcome, changed by `f`. -/
def onNext (f : State → State) : Host.Outcome State Fault Refusal → Host.Outcome State Fault Refusal
  | .next s => .next (f s)
  | .fault r => .fault r
  | .refused r => .refused r

/-! ## The bytes of the bit-packing protocol, as numbers (R121, R122) -/

/-- The bytes `PUTCODE c` emits from the residual of `e` (R121). -/
def Encoder.putBytes (c : Code) (e : Encoder) : List Byte :=
  if e.wHave = false then [BitVec.ofNat 8 (c.toNat / 16)]
  else [BitVec.ofNat 8 (e.wNib.toNat * 16 + c.toNat / 256), BitVec.ofNat 8 (c.toNat % 256)]

/-- The residual `PUTCODE c` leaves from the residual of `e` (R121). -/
def Encoder.putResidual (c : Code) (e : Encoder) : Bool × Nibble :=
  if e.wHave = false then (true, BitVec.ofNat 4 (c.toNat % 16)) else (false, 0#4)

/-- The bytes `PUTLAST c` emits from the residual of `e` (R122). -/
def Encoder.lastBytes (c : Code) (e : Encoder) : List Byte :=
  if e.wHave = false then [BitVec.ofNat 8 (c.toNat / 16), BitVec.ofNat 8 (c.toNat % 16 * 16)]
  else [BitVec.ofNat 8 (e.wNib.toNat * 16 + c.toNat / 256), BitVec.ofNat 8 (c.toNat % 256)]

/-- Operation `i` emits `bytes` in order and ends as `g` says; at the first write that fails the encoder takes SinkFail with nothing else changed (R222, R254). -/
def EncoderWrites (i : Instr) (s : State) (bytes : List Byte) (g : Encoder → Encoder) : Prop :=
  (s.enc.sink.accepts bytes.length = true →
    exec i s = .next (s.setEnc (g (s.enc.setSink (s.enc.sink.got bytes)))))
  ∧ ∀ j, j < bytes.length → s.enc.sink.failsAt j = true →
      exec i s = .next (s.setEnc (((s.enc.setSink (s.enc.sink.failed bytes j)).setCause .sinkFail).setPhase .fault))

/-- Operation `i` brings the decoder to `d1`, emits `bytes` in order and ends as `g` says; at the first write that fails the decoder takes SinkFail in the state reached (R222, R254, R255). -/
def DecoderWrites (i : Instr) (s : State) (d1 : Decoder) (bytes : List Byte) (g : Decoder → Decoder) : Prop :=
  (d1.sink.accepts bytes.length = true →
    exec i s = .next (s.setDec (g (d1.setSink (d1.sink.got bytes)))))
  ∧ ∀ j, j < bytes.length → d1.sink.failsAt j = true →
      exec i s = .next (s.setDec (((d1.setSink (d1.sink.failed bytes j)).setRecord .sinkFail 0#12 0#13).setPhase .fault))

/-! ## What the decoder's memories hold (R30, R31, R65) -/

/-- The `n` bytes from offset `o` on, where each holds a value. -/
def readRange (m : List Host.Cell) : Nat → Nat → Option (List Byte)
  | 0, _ => some []
  | n + 1, o =>
      match Memory.get? m o, readRange m n (o + 1) with
      | some v, some vs => some (v :: vs)
      | _, _ => none

/-- Entry `c` is the byte sequence `bs`, in a block below `a_ptr` and inside the arena. -/
def Decoder.holds (cfg : Config) (c : Code) (bs : List Byte) (d : Decoder) : Bool :=
  match Memory.get? d.entries c.toNat with
  | some en => decide (readRange d.arena en.len en.off = some bs) && decide (en.off + en.len ≤ d.aPtr)
      && decide (d.aPtr ≤ cfg.arenaBytes)
  | none => false

/-- `seq(c)` (R13), where every byte of it holds a value. -/
def Decoder.seq? (c : Nat) (d : Decoder) : Option (List Byte) :=
  match Memory.get? d.entries c with
  | some en => readRange d.arena en.len en.off
  | none => none

/-- `d1` is `d` after `DICT.ADD` of an entry `bp ++ [x]`, everything else unchanged (R176). -/
structure AddsEntry (d : Decoder) (bp : List Byte) (x : Byte) (d1 : Decoder) : Prop where
  entry : Memory.get? d1.entries d.dictSize.toNat = some ⟨d.aPtr, bp.length + 1⟩
  bytes : readRange d1.arena (bp.length + 1) d.aPtr = some (bp ++ [x])
  otherEntries : ∀ c, c ≠ d.dictSize.toNat → Memory.get? d1.entries c = Memory.get? d.entries c
  otherBytes : ∀ o, o < d.aPtr ∨ d.aPtr + bp.length + 1 ≤ o → Memory.get? d1.arena o = Memory.get? d.arena o
  registers : d1 = (((d.setEntries d1.entries).setArena d1.arena).setPtr
    (d.aPtr + round4 (bp.length + 1))).setDictSize (d.dictSize + 1#13)

/-! ## The encoder's invariants (R23) -/

/-- R23 in the phases FIRST and RUN; in FIRST the initial state of R36. -/
structure Encoder.Live (e : Encoder) : Prop where
  /-- (a) -/
  size : 256 ≤ e.dictSize.toNat ∧ e.dictSize.toNat ≤ 4096
  /-- (b) -/
  node : e.phase = .run → e.curNode.toNat < e.dictSize.toNat
  /-- (c), (e), (f) -/
  children : ∀ n b, e.lookup n b ≠ 0#12 →
    256 ≤ (e.lookup n b).toNat ∧ (e.lookup n b).toNat < e.dictSize.toNat ∧ n.toNat < (e.lookup n b).toNat
  /-- (d) -/
  once : ∀ v : Code, 256 ≤ v.toNat → v.toNat < e.dictSize.toNat →
    ∃ n b, e.lookup n b = v ∧ ∀ n' b', e.lookup n' b' = v → n' = n ∧ b' = b
  fresh : e.phase = .first → e.dictSize = 256#13 ∧ e.wHave = false

/-- What holds of the encoder in every phase: canonical memory, no nibble without its flag (R21), a cause exactly in phase FAULT (R254), and R23 while it runs. -/
structure Encoder.Inv (e : Encoder) : Prop where
  canonical : Memory.trieWf e.trie = true
  residual : e.wHave = false → e.wNib = 0#4
  record : e.faultCause = .none ↔ e.phase ≠ .fault
  live : running e.phase = true → e.Live

/-- The unit that performs an operation: the table's column `unit`; PACK.* is the writer's (notes/assumptions/15.md). -/
def unitOf : Instr → UnitId
  | .packPair3 _ _ => .encoder
  | .packTail2 _ => .encoder
  | .putCode _ => .encoder
  | .putLast _ => .encoder
  | .getCode => .decoder
  | .trieLookup _ _ => .encoder
  | .trieInsert _ _ _ => .encoder
  | .trieClear => .encoder
  | .encFirst _ => .encoder
  | .encByteHit _ => .encoder
  | .encByteAdd _ => .encoder
  | .encByteReset _ => .encoder
  | .encEos => .encoder
  | .encEosEmpty => .encoder
  | .arenaInit => .decoder
  | .arenaAlloc _ => .decoder
  | .arenaMark => .decoder
  | .arenaRewind => .decoder
  | .dictInit => .decoder
  | .dictFirstByte _ => .decoder
  | .dictAdd _ _ => .decoder
  | .dictEmit _ => .decoder
  | .decFirst _ => .decoder
  | .decFirstBad _ => .decoder
  | .decCodeCorrupt _ => .decoder
  | .decCodeKnown _ => .decoder
  | .decCodeKwkwk _ => .decoder
  | .decCodeReset _ => .decoder
  | .decCodeStale _ => .decoder
  | .decEos => .decoder
  | .srcRead u => u
  | .snkWrite u _ => u
  | .encStart => .encoder
  | .decStart => .decoder
  | .statusRead u => u

/-- The condition of a driver operation's row of R99 or R100 on the state; the event is the operand. Every other operation is called, not selected (R101). -/
def rowHolds (i : Instr) (s : State) : Bool :=
  match i with
  | .encFirst _ => decide (s.enc.phase = .first)
  | .encByteHit b => decide (s.enc.phase = .run) && decide (s.enc.lookup s.enc.curNode b ≠ 0#12)
  | .encByteAdd b => decide (s.enc.phase = .run) && decide (s.enc.lookup s.enc.curNode b = 0#12)
      && decide (s.enc.dictSize.toNat < 4096)
  | .encByteReset b => decide (s.enc.phase = .run) && decide (s.enc.lookup s.enc.curNode b = 0#12)
      && decide (s.enc.dictSize.toNat = 4096)
  | .encEos => decide (s.enc.phase = .run)
  | .encEosEmpty => decide (s.enc.phase = .first)
  | .decFirst _ => decide (s.dec.phase = .first)
  | .decFirstBad c => decide (s.dec.phase = .first) && decide (256 ≤ c.toNat)
  | .decCodeCorrupt c => decide (s.dec.phase = .run) && decide (s.dec.dictSize.toNat < c.toNat)
  | .decCodeKnown c => decide (s.dec.phase = .run) && decide (s.dec.dictSize.toNat < 4096)
      && decide (c.toNat < s.dec.dictSize.toNat)
  | .decCodeKwkwk c => decide (s.dec.phase = .run) && decide (s.dec.dictSize.toNat < 4096)
      && decide (c.toNat = s.dec.dictSize.toNat)
  | .decCodeReset _ => decide (s.dec.phase = .run) && decide (s.dec.dictSize.toNat = 4096)
  | .decCodeStale c => decide (s.dec.phase = .run) && decide (s.dec.dictSize.toNat = 4096)
      && decide (256 ≤ c.toNat)
  | .decEos => running s.dec.phase
  | .packPair3 _ _ => true
  | .packTail2 _ => true
  | .putCode _ => true
  | .putLast _ => true
  | .getCode => true
  | .trieLookup _ _ => true
  | .trieInsert _ _ _ => true
  | .trieClear => true
  | .arenaInit => true
  | .arenaAlloc _ => true
  | .arenaMark => true
  | .arenaRewind => true
  | .dictInit => true
  | .dictFirstByte _ => true
  | .dictAdd _ _ => true
  | .dictEmit _ => true
  | .srcRead _ => true
  | .snkWrite _ _ => true
  | .encStart => true
  | .decStart => true
  | .statusRead _ => true

/-! ## The decoder's invariants (R32) -/

/-- The length of an entry, 0 where it holds no value. -/
def lenOf (m : List (Nat × Entry)) (c : Nat) : Nat :=
  match Memory.get? m c with
  | some en => en.len
  | none => 0

/-- Where the block of entry `256 + k` starts: the mark and the blocks of the entries before it (R32 (d)). -/
def blockStart (m : List (Nat × Entry)) : Nat → Nat
  | 0 => 1024
  | k + 1 => blockStart m k + round4 (lenOf m (256 + k))

/-- R32 in the phases FIRST and RUN; in FIRST the initial state of R36. -/
structure Decoder.Live (cfg : Config) (d : Decoder) : Prop where
  /-- (a) -/
  size : 256 ≤ d.dictSize.toNat ∧ d.dictSize.toNat ≤ 4096
  /-- (b) -/
  prev : d.phase = .run → d.prevCode.toNat < d.dictSize.toNat
  /-- (c) -/
  literals : ∀ c, c < 256 →
    Memory.get? d.entries c = some ⟨4 * c, 1⟩ ∧ Memory.get? d.arena (4 * c) = some (BitVec.ofNat 8 c)
  /-- (d) -/
  blocks : ∀ k, 256 + k < d.dictSize.toNat →
    ∃ en, Memory.get? d.entries (256 + k) = some en ∧ en.off = blockStart d.entries k
  /-- (e) -/
  ptr : d.aPtr = blockStart d.entries (d.dictSize.toNat - 256)
  room : d.aPtr ≤ cfg.arenaBytes
  /-- (f) -/
  lengths : ∀ k, 256 + k < d.dictSize.toNat → 2 ≤ lenOf d.entries (256 + k) ∧ lenOf d.entries (256 + k) ≤ k + 2
  /-- (g) -/
  grown : ∀ k, 256 + k < d.dictSize.toNat →
    ∃ p bs x, p < 256 + k ∧ d.seq? p = some bs ∧ d.seq? (256 + k) = some (bs ++ [x])
  /-- (h) -/
  mark : d.aMark = 1024
  fresh : d.phase = .first → d.dictSize = 256#13 ∧ d.rHave = false

/-- The causes that record a code and a dictionary size (R25). -/
def Cause.carriesCode : Cause → Bool
  | .corruptCode => true
  | .noPrevCode => true
  | .staleCode => true
  | .none => false
  | .sinkFail => false
  | .allocFail => false
  | .truncated => false

/-- What holds of the decoder in every phase: canonical memories, no nibble without its flag (R28), a cause exactly in phase FAULT (R254), a record of 0, 0 where the cause carries no code (R25), and R32 while it runs. -/
structure Decoder.Inv (cfg : Config) (d : Decoder) : Prop where
  entriesCanonical : Memory.wf d.entries = true
  arenaCanonical : Memory.wf d.arena = true
  residual : d.rHave = false → d.rNib = 0#4
  record : d.faultCause = .none ↔ d.phase ≠ .fault
  bare : d.faultCause.carriesCode = false → d.faultCode = 0#12 ∧ d.faultDictSize = 0#13
  live : running d.phase = true → d.Live cfg

/-- The invariant of the whole state under `STALE_POLICY = fault`: R32 is claimed for that policy alone (U3), and nothing is presented at the port. -/
structure State.Inv (s : State) : Prop where
  policy : s.config.stale = .fault
  port : s.port = none
  enc : s.enc.Inv
  dec : s.dec.Inv s.config

/-- The memories are in canonical form. -/
def State.canonical (s : State) : Bool :=
  Memory.trieWf s.enc.trie && Memory.wf s.dec.entries && Memory.wf s.dec.arena

end Sys2Proof.Machine
end

