-- ==== Sys2Proof/Certificates/Slice0/Obligations.lean ====
section
/-! DEFINITION. The statements about the block, each from a rule of spec/. -/

open Sys2Proof Sys2Proof.Machine

/-! ## Words and selection -/

/-- R126 (a), an inference the spec marks: unpacking a packed code sequence gives it back. -/
def Obligations.UnpackOfPackIsTheCodeSequence : Prop :=
  ∀ cs : List Code, unpack (pack cs) = cs

/-- R126 (b), an inference the spec marks: packing what was unpacked gives the stream back exactly for lengths 3m, and for lengths 3m+2 with a zero padding nibble. -/
def Obligations.PackOfUnpackIsTheStreamExactlyWhenCanonical : Prop :=
  ∀ w : List Byte, pack (unpack w) = w ↔
    (w.length % 3 = 0 ∨ (w.length % 3 = 2 ∧ ∃ b, w.getLast? = some b ∧ b.toNat % 16 = 0))

/-- R93: the three bytes of a pair, nibble by nibble, and as one 24-bit word with byte0 most significant; reading them gives the two codes. -/
def Obligations.Pair3LaysOutTwoCodes : Prop :=
  ∀ (code1 code2 : Code) (rest : List Byte),
    pair3Bytes code1 code2 = [BitVec.ofNat 8 (code1.toNat / 16),
      BitVec.ofNat 8 (code1.toNat % 16 * 16 + code2.toNat / 256), BitVec.ofNat 8 (code2.toNat % 256)]
    ∧ wordBytes 3 (code1.toNat * 4096 + code2.toNat) = pair3Bytes code1 code2
    ∧ decodeWire (pair3Bytes code1 code2 ++ rest) = (.instr (.packPair3 code1 code2), rest)

/-- R94: the two bytes of the last unpaired code, padding written 0; reading them where the stream ends gives the code whatever the padding nibble is. -/
def Obligations.Tail2LaysOutTheLastCode : Prop :=
  ∀ (code : Code) (pad : Nibble),
    tail2Bytes code = [BitVec.ofNat 8 (code.toNat / 16), BitVec.ofNat 8 (code.toNat % 16 * 16)]
    ∧ wordBytes 2 (code.toNat * 16) = tail2Bytes code
    ∧ decodeWire [BitVec.ofNat 8 (code.toNat / 16), BitVec.ofNat 8 (code.toNat % 16 * 16 + pad.toNat)]
        = (.instr (.packTail2 code), [])

/-- R99: the encoder's selection table, row by row: a row selects its operation, no other operation is selected, and a running unit with `dictSize` up to 4096 always has a row; the host's START selects ENC.START. That a command is a turn of the agenda is the model's choice (notes/assumptions/1.md), and so is that a START to a running unit, which R99 gives no row, is selected too and turned away by ENC.START itself (notes/assumptions/13.md). -/
def Obligations.EncoderSelectionTableAsWritten : Prop :=
  (∀ (p : Phase) (cell : Code) (d : DictSize) (ev : SymbolEvent) (i : Instr),
    decodeEnc p cell d ev = .instr i ↔
      ((p = .first ∧ ∃ b, ev = .byte b ∧ i = .encFirst b)
      ∨ (p = .first ∧ ev = .eos ∧ i = .encEosEmpty)
      ∨ (p = .run ∧ ∃ b, ev = .byte b ∧ cell.toNat ≠ 0 ∧ i = .encByteHit b)
      ∨ (p = .run ∧ ∃ b, ev = .byte b ∧ cell.toNat = 0 ∧ d.toNat < 4096 ∧ i = .encByteAdd b)
      ∨ (p = .run ∧ ∃ b, ev = .byte b ∧ cell.toNat = 0 ∧ d.toNat = 4096 ∧ i = .encByteReset b)
      ∨ (p = .run ∧ ev = .eos ∧ i = .encEos)))
  ∧ (∀ (p : Phase) (cell : Code) (d : DictSize) (ev : SymbolEvent), p = .first ∨ p = .run → d.toNat ≤ 4096 →
    ∃ i, decodeEnc p cell d ev = .instr i)
  ∧ ∀ (s : State) (rest : List Turn), s.port = none → s.agenda = .host .encStart :: rest →
      s.fetch = .run .encStart (s.setAgenda rest)

/-- R100: the decoder's selection table, row by row, for every `dictSize` up to 4096: a row selects its operation, no other operation is selected, and a running unit always has a row; the host's START selects DEC.START. That a command is a turn of the agenda is the model's choice (notes/assumptions/1.md), and so is that a START to a running unit, which R100 gives no row, is selected too and turned away by DEC.START itself (notes/assumptions/13.md). -/
def Obligations.DecoderSelectionTableAsWritten : Prop :=
  (∀ (p : Phase) (d : DictSize) (ev : CodeEvent) (i : Instr), d.toNat ≤ 4096 →
    (decodeDec p d ev = .instr i ↔
      ((p = .first ∧ ∃ c, ev = .code c ∧ c.toNat ≤ 255 ∧ i = .decFirst (BitVec.ofNat 8 c.toNat))
      ∨ (p = .first ∧ ∃ c, ev = .code c ∧ 256 ≤ c.toNat ∧ i = .decFirstBad c)
      ∨ ((p = .first ∨ p = .run) ∧ ev = .eos ∧ i = .decEos)
      ∨ (p = .run ∧ ∃ c, ev = .code c ∧ d.toNat < c.toNat ∧ i = .decCodeCorrupt c)
      ∨ (p = .run ∧ ∃ c, ev = .code c ∧ d.toNat = 4096 ∧ 256 ≤ c.toNat ∧ i = .decCodeStale c)
      ∨ (p = .run ∧ ∃ c, ev = .code c ∧ d.toNat = 4096 ∧ c.toNat ≤ 255
          ∧ i = .decCodeReset (BitVec.ofNat 8 c.toNat))
      ∨ (p = .run ∧ ∃ c, ev = .code c ∧ d.toNat < 4096 ∧ c.toNat = d.toNat ∧ i = .decCodeKwkwk c)
      ∨ (p = .run ∧ ∃ c, ev = .code c ∧ d.toNat < 4096 ∧ c.toNat < d.toNat ∧ i = .decCodeKnown c))))
  ∧ (∀ (p : Phase) (d : DictSize) (ev : CodeEvent), p = .first ∨ p = .run → d.toNat ≤ 4096 →
    ∃ i, decodeDec p d ev = .instr i)
  ∧ ∀ (s : State) (rest : List Turn), s.port = none → s.agenda = .host .decStart :: rest →
      s.fetch = .run .decStart (s.setAgenda rest)

/-- Encoding and decoding agree, for every operation that an input word selects and for the two wire words: the operation's word, read where the conditions of its row hold, gives the operation with every operand at every value (R90 to R94, R99, R100). For the wire words, ENC.FIRST, DEC.FIRST and DEC.FIRST.BAD the word is read with no state beside it, the format taken from its width and the row from phase FIRST, which is the model's choice (notes/assumptions/16.md). -/
def Obligations.DecodingTheOperandWordGivesTheOperation : Prop :=
  (∀ code1 code2 : Code, decodeTableWord (encode (.packPair3 code1 code2)).bits
      (encode (.packPair3 code1 code2)).value = some (.packPair3 code1 code2))
  ∧ (∀ code : Code, decodeTableWord (encode (.packTail2 code)).bits
      (encode (.packTail2 code)).value = some (.packTail2 code))
  ∧ (∀ b : Byte, decodeTableWord (encode (.encFirst b)).bits (encode (.encFirst b)).value = some (.encFirst b))
  ∧ (∀ c : Byte, decodeTableWord (encode (.decFirst c)).bits (encode (.decFirst c)).value = some (.decFirst c))
  ∧ (∀ c : Code, (Instr.decFirstBad c).WellFormed = true →
      decodeTableWord (encode (.decFirstBad c)).bits (encode (.decFirstBad c)).value = some (.decFirstBad c))
  ∧ (∀ (b : Byte) (cell : Code) (d : DictSize), cell.toNat ≠ 0 →
      decodeEnc .run cell d (symbolEventOf (encode (.encByteHit b))) = .instr (.encByteHit b))
  ∧ (∀ (b : Byte) (d : DictSize), d.toNat < 4096 →
      decodeEnc .run 0#12 d (symbolEventOf (encode (.encByteAdd b))) = .instr (.encByteAdd b))
  ∧ (∀ b : Byte, decodeEnc .run 0#12 4096#13 (symbolEventOf (encode (.encByteReset b))) = .instr (.encByteReset b))
  ∧ (∀ (c : Code) (d : DictSize), d.toNat < c.toNat →
      decodeDec .run d (codeEventOf (encode (.decCodeCorrupt c))) = .instr (.decCodeCorrupt c))
  ∧ (∀ (c : Code) (d : DictSize), d.toNat < 4096 → c.toNat < d.toNat →
      decodeDec .run d (codeEventOf (encode (.decCodeKnown c))) = .instr (.decCodeKnown c))
  ∧ (∀ (c : Code) (d : DictSize), c.toNat = d.toNat →
      decodeDec .run d (codeEventOf (encode (.decCodeKwkwk c))) = .instr (.decCodeKwkwk c))
  ∧ (∀ c : Byte, decodeDec .run 4096#13 (codeEventOf (encode (.decCodeReset c))) = .instr (.decCodeReset c))
  ∧ ∀ c : Code, (Instr.decCodeStale c).WellFormed = true →
      decodeDec .run 4096#13 (codeEventOf (encode (.decCodeStale c))) = .instr (.decCodeStale c)

/-- A few words written out from the spec's formats and the operations they are (V-PK-4, V-PK-5, V-UP-5, and the tables R99, R100). That a word alone is read by its width, 8 and 12 bits by the rows of phase FIRST, is the model's choice (notes/assumptions/16.md). -/
def Obligations.WordsOfTheFormatsDecode : Prop :=
  decodeTableWord 24 0x123456 = some (.packPair3 0x123#12 0x456#12)
  ∧ decodeTableWord 16 0x1230 = some (.packTail2 0x123#12)
  ∧ decodeWire [0x04#8, 0x11#8] = (.instr (.packTail2 65#12), [])
  ∧ decodeTableWord 8 0x41 = some (.encFirst 0x41#8)
  ∧ decodeTableWord 12 0x041 = some (.decFirst 0x41#8)
  ∧ decodeTableWord 12 0xFA0 = some (.decFirstBad 4000#12)
  ∧ decodeEnc .run 0#12 4096#13 (.byte 0x41#8) = .instr (.encByteReset 0x41#8)
  ∧ decodeDec .run 256#13 (.code 0x100#12) = .instr (.decCodeKwkwk 256#12)
  ∧ decodeDec .run 4096#13 (.code 0x12C#12) = .instr (.decCodeStale 300#12)

/-! ## The step -/

/-- A step performs the operation presented or the one the next turn's event selects, after taking that event from the source (R8, R99, R100); with nothing listed the running units take their turns by themselves (notes/assumptions/1.md, 11.md). A turn of the host performs its command (R223). -/
def Obligations.StepPerformsTheSelectedOperation : Prop :=
  (∀ (s : State) (i : Instr), s.port = some i → step s = exec i (s.setPort none))
  ∧ (∀ (s : State) (rest : List Turn) (i : Instr), s.port = none → s.agenda = .encoder :: rest →
      running s.enc.phase = true →
      decodeEnc s.enc.phase (s.enc.cellFor s.enc.read.1) s.enc.dictSize s.enc.read.1 = .instr i →
      step s = exec i ((s.setAgenda rest).setEnc s.enc.read.2))
  ∧ (∀ (s : State) (rest : List Turn) (ev : CodeEvent) (d : Decoder) (i : Instr), s.port = none →
      s.agenda = .decoder :: rest → running s.dec.phase = true →
      s.dec.getCode s.config s.enc.feed = .ok (some ev) d →
      decodeDec s.dec.phase s.dec.dictSize ev = .instr i →
      step s = exec i ((s.setAgenda rest).setDec d))
  ∧ (∀ (s : State) (i : Instr), s.port = none → s.agenda = [] → running s.enc.phase = true →
      decodeEnc s.enc.phase (s.enc.cellFor s.enc.read.1) s.enc.dictSize s.enc.read.1 = .instr i →
      step s = exec i (s.setEnc s.enc.read.2))
  ∧ (∀ (s : State) (ev : CodeEvent) (d : Decoder) (i : Instr), s.port = none → s.agenda = [] →
      running s.enc.phase = false → running s.dec.phase = true →
      s.dec.getCode s.config s.enc.feed = .ok (some ev) d →
      decodeDec s.dec.phase s.dec.dictSize ev = .instr i →
      step s = exec i (s.setDec d))
  ∧ ∀ (s : State) (rest : List Turn), s.port = none →
      (s.agenda = .host .encStart :: rest → step s = exec .encStart (s.setAgenda rest))
      ∧ (s.agenda = .host .decStart :: rest → step s = exec .decStart (s.setAgenda rest))
      ∧ (∀ u, s.agenda = .host (.statusRead u) :: rest → step s = exec (.statusRead u) (s.setAgenda rest))
      ∧ (∀ source answers, s.agenda = .host (.attachEncoder source answers) :: rest →
          step s = .next ((s.setAgenda rest).attachEncoder source answers))
      ∧ ∀ source answers, s.agenda = .host (.attachDecoder source answers) :: rest →
          step s = .next ((s.setAgenda rest).attachDecoder source answers)

/-- A table word placed in the state after reset is the operation the next step fetches and performs, and it completes (notes/assumptions/16.md, 17.md). -/
def Obligations.PlacedWordIsPerformedNext : Prop :=
  ∀ (nbits w : Nat) (i : Instr), decodeTableWord nbits w = some i →
    ∃ s1 s2, (State.reset.withFetchWord nbits w).fetch = .run i s1
      ∧ step (State.reset.withFetchWord nbits w) = exec i s1 ∧ exec i s1 = .next s2

/-- R231: a unit in IDLE, DONE or FAULT takes no step at its turn; and whatever the step, only the host's commands change such a unit. That such a turn answers the state unchanged is one of the two forms U8 gives, and the model's choice (notes/assumptions/14.md). -/
def Obligations.UnitOutsideARunTakesNoStep : Prop :=
  (∀ (s : State) (rest : List Turn), s.port = none → s.agenda = .encoder :: rest →
      running s.enc.phase = false → step s = .next (s.setAgenda rest))
  ∧ (∀ (s : State) (rest : List Turn), s.port = none → s.agenda = .decoder :: rest →
      running s.dec.phase = false → step s = .next (s.setAgenda rest))
  ∧ (∀ s : State, s.port = none → s.agenda = [] → running s.enc.phase = false → running s.dec.phase = false →
      step s = .next s)
  ∧ ∀ s s' : State, s.port = none → (∀ c rest, s.agenda ≠ .host c :: rest) → step s = .next s' →
      (running s.enc.phase = false → s'.enc = s.enc) ∧ (running s.dec.phase = false → s'.dec = s.dec)

/-- The conditions each meaning checks are those of the row that selects it: `exec` of an operation selected by an event or a command never answers a refusal. A driver operation would outside its row (notes/assumptions/12.md). A START to a running unit, which R229 refuses, is a next state that changes nothing of the block, the refusal recorded in `answer` (notes/assumptions/13.md). -/
def Obligations.SelectedOperationIsNeverTurnedAway : Prop :=
  ∀ (s s1 : State) (i : Instr) (r : Refusal), s.port = none → s.fetch = .run i s1 → exec i s1 ≠ .refused r

/-- Every refusal there is: a driver operation is refused as `notSelected` exactly where its row of R99 or R100 does not hold, and PACK.PAIR3 and PACK.TAIL2 are refused as `notAtCodeBoundary` exactly where the writer holds a nibble. Both refusals are the model's choice (notes/assumptions/12.md, 15.md). -/
def Obligations.OperationIsTurnedAwayExactlyOutsideItsRow : Prop :=
  ∀ (i : Instr) (s : State),
    (exec i s = .refused .notSelected ↔ rowHolds i s = false)
    ∧ (exec i s = .refused .notAtCodeBoundary ↔
        s.enc.wHave = true ∧ ((∃ code1 code2, i = .packPair3 code1 code2) ∨ ∃ code, i = .packTail2 code))
    ∧ ∀ r, exec i s = .refused r → r = .notSelected ∨ r = .notAtCodeBoundary

/-! ## The bit-packing codec -/

/-- R121: PUTCODE from either residual: the bytes emitted, the residual left, nothing else changed; at a failing write SinkFail with `w_have`, `w_nib` as before. -/
def Obligations.PutCodeEmitsAndAlternates : Prop :=
  ∀ (s : State) (c : Code),
    EncoderWrites (.putCode c) s (s.enc.putBytes c)
      (fun e => e.setResidual (s.enc.putResidual c).1 (s.enc.putResidual c).2)

/-- R122: PUTLAST from either residual: always exactly two bytes, no leftover afterwards; at a failing write SinkFail with `w_have`, `w_nib` as before. -/
def Obligations.PutLastFlushesTwoBytes : Prop :=
  ∀ (s : State) (c : Code),
    (s.enc.lastBytes c).length = 2
    ∧ EncoderWrites (.putLast c) s (s.enc.lastBytes c)
        (fun e => if s.enc.wHave = false then e else e.setResidual false 0#4)

/-- PACK.PAIR3 at a code boundary emits the three bytes of R93, as PUTCODE of the two codes does one after the other; with a nibble held it does not start a code (R95) and is refused. That the row is an operation of the writer, and the refusal, are the model's choice (notes/assumptions/15.md). -/
def Obligations.PackPair3IsTwoPutCodes : Prop :=
  (∀ (s : State) (code1 code2 : Code), s.enc.wHave = true →
    exec (.packPair3 code1 code2) s = .refused .notAtCodeBoundary)
  ∧ ∀ (s : State) (code1 code2 : Code), s.enc.wHave = false →
    EncoderWrites (.packPair3 code1 code2) s [BitVec.ofNat 8 (code1.toNat / 16),
      BitVec.ofNat 8 (code1.toNat % 16 * 16 + code2.toNat / 256), BitVec.ofNat 8 (code2.toNat % 256)] id
    ∧ (s.enc.wNib = 0#4 → s.enc.sink.accepts 3 = true →
        ∃ s1, exec (.putCode code1) s = .next s1 ∧ exec (.putCode code2) s1 = exec (.packPair3 code1 code2) s)

/-- PACK.TAIL2 at a code boundary emits the two bytes of R94, exactly as PUTLAST does; with a nibble held it does not start a code (R95) and is refused. That the row is an operation of the writer, and the refusal, are the model's choice (notes/assumptions/15.md). -/
def Obligations.PackTail2IsPutLast : Prop :=
  (∀ (s : State) (code : Code), s.enc.wHave = true → exec (.packTail2 code) s = .refused .notAtCodeBoundary)
  ∧ ∀ (s : State) (code : Code), s.enc.wHave = false →
    EncoderWrites (.packTail2 code) s
      [BitVec.ofNat 8 (code.toNat / 16), BitVec.ofNat 8 (code.toNat % 16 * 16)] id
    ∧ exec (.putLast code) s = exec (.packTail2 code) s

/-- R123 with R97, forms the spec marks as its own: GETCODE over a stream, from either residual, at every way the stream can stand, under both truncation policies. -/
def Obligations.GetCodeReadsOneCodeOfAStream : Prop :=
  ∀ s : State,
    (s.dec.rHave = false → ∀ (a b : Byte) (rest : List Byte), s.dec.source = .stream (a :: b :: rest) →
      exec .getCode s = .next ((s.setDec ((s.dec.setSource (.stream rest)).setResidual true
        (BitVec.ofNat 4 (b.toNat % 16)))).setAnswer (.code (BitVec.ofNat 12 (a.toNat * 16 + b.toNat / 16)))))
    ∧ (s.dec.rHave = false → s.dec.source = .stream [] → exec .getCode s = .next (s.setAnswer .eos))
    ∧ (s.dec.rHave = false → ∀ a : Byte, s.dec.source = .stream [a] →
        (s.config.truncation = .silent →
          exec .getCode s = .next ((s.setDec (s.dec.setSource (.stream []))).setAnswer .eos))
        ∧ (s.config.truncation = .report →
          exec .getCode s = .next (s.setDec (((s.dec.setSource (.stream [])).setRecord .truncated 0#12 0#13).setPhase .fault))))
    ∧ (s.dec.rHave = true → ∀ (b : Byte) (rest : List Byte), s.dec.source = .stream (b :: rest) →
      exec .getCode s = .next ((s.setDec ((s.dec.setSource (.stream rest)).setResidual false 0#4)).setAnswer
        (.code (BitVec.ofNat 12 (s.dec.rNib.toNat * 256 + b.toNat)))))
    ∧ (s.dec.rHave = true → s.dec.source = .stream [] → exec .getCode s = .next (s.setAnswer .eos))

/-- R230: GETCODE over a pipe reads what the encoder's sink has accepted, in order; while the encoder has not reached DONE with this sink it waits, and it sees EOS only after DONE with every byte consumed; where one byte is left of a code, the byte is dropped and the answer is EOS, or Truncated under `report`. That it waits before the first byte of a code, and what `feed` takes for the end, are the model's choice (notes/assumptions/18.md, 20.md). -/
def Obligations.GetCodeOverAPipe : Prop :=
  ∀ (s : State) (taken : Nat), s.dec.source = .pipe taken →
    (s.dec.rHave = false → ∀ (a b : Byte) (rest : List Byte), s.enc.sink.accepted.drop taken = a :: b :: rest →
      exec .getCode s = .next ((s.setDec ((s.dec.setSource (.pipe (taken + 2))).setResidual true
        (BitVec.ofNat 4 (b.toNat % 16)))).setAnswer (.code (BitVec.ofNat 12 (a.toNat * 16 + b.toNat / 16)))))
    ∧ (s.dec.rHave = true → ∀ (b : Byte) (rest : List Byte), s.enc.sink.accepted.drop taken = b :: rest →
      exec .getCode s = .next ((s.setDec ((s.dec.setSource (.pipe (taken + 1))).setResidual false 0#4)).setAnswer
        (.code (BitVec.ofNat 12 (s.dec.rNib.toNat * 256 + b.toNat)))))
    ∧ (¬(s.enc.phase = .done ∧ s.enc.sinkNew = false) → s.dec.rHave = false → (s.enc.sink.accepted.drop taken).length ≤ 1 →
        exec .getCode s = .next (s.setAnswer .waiting))
    ∧ (¬(s.enc.phase = .done ∧ s.enc.sinkNew = false) → s.dec.rHave = true → s.enc.sink.accepted.drop taken = [] →
        exec .getCode s = .next (s.setAnswer .waiting))
    ∧ (s.enc.phase = .done → s.enc.sinkNew = false → s.enc.sink.accepted.drop taken = [] →
        exec .getCode s = .next (s.setAnswer .eos))
    ∧ (s.enc.phase = .done → s.enc.sinkNew = false → s.dec.rHave = false →
        ∀ a : Byte, s.enc.sink.accepted.drop taken = [a] →
        (s.config.truncation = .silent →
          exec .getCode s = .next ((s.setDec (s.dec.setSource (.pipe (taken + 1)))).setAnswer .eos))
        ∧ (s.config.truncation = .report →
          exec .getCode s = .next (s.setDec (((s.dec.setSource (.pipe (taken + 1))).setRecord .truncated 0#12
            0#13).setPhase .fault))))

/-! ## The encoder unit -/

/-- R140: TRIE.LOOKUP returns the cell and changes nothing; where R23 holds, a result other than 0 is a code from 256 to `dictSize` - 1. -/
def Obligations.TrieLookupReadsTheCell : Prop :=
  ∀ (s : State) (n : Code) (b : Byte), ∃ v,
    exec (.trieLookup n b) s = .next (s.setAnswer (.cell v)) ∧ v = Memory.getCell s.enc.trie n b
    ∧ (s.enc.Live → v ≠ 0#12 → 256 ≤ v.toNat ∧ v.toNat < s.enc.dictSize.toNat)

/-- R141: TRIE.INSERT writes one cell; every other cell, and everything outside the trie, is as before. -/
def Obligations.TrieInsertWritesOneCell : Prop :=
  ∀ (s : State) (n : Code) (b : Byte) (v : Code), ∃ m,
    exec (.trieInsert n b v) s = .next (s.setEnc (s.enc.setTrie m))
    ∧ Memory.getCell m n b = v
    ∧ ∀ n' b', ¬(n' = n ∧ b' = b) → Memory.getCell m n' b' = Memory.getCell s.enc.trie n' b'

/-- R142: after TRIE.CLEAR every cell is 0, the cells of the literal nodes included, and nothing outside the trie has changed. -/
def Obligations.TrieClearEmptiesEveryCell : Prop :=
  ∀ s : State, ∃ m, exec .trieClear s = .next (s.setEnc (s.enc.setTrie m)) ∧ ∀ n b, Memory.getCell m n b = 0#12

/-- R143: ENC.FIRST. -/
def Obligations.EncFirstTakesTheByteAsItsCode : Prop :=
  ∀ (s : State) (b : Byte), s.enc.phase = .first →
    exec (.encFirst b) s = .next (s.setEnc ((s.enc.setCurNode (BitVec.ofNat 12 b.toNat)).setPhase .run))

/-- R145: ENC.BYTE.HIT. -/
def Obligations.EncByteHitMovesToTheChild : Prop :=
  ∀ (s : State) (b : Byte), s.enc.phase = .run → s.enc.lookup s.enc.curNode b ≠ 0#12 →
    exec (.encByteHit b) s = .next (s.setEnc (s.enc.setCurNode (Memory.getCell s.enc.trie s.enc.curNode b)))

/-- R146: ENC.BYTE.ADD: PUTCODE of `curNode`, then the child `dictSize` for the byte, the count one up, the byte as the new `curNode`; at a failing write none of these lines. -/
def Obligations.EncByteAddEmitsThenAddsTheChild : Prop :=
  ∀ (s : State) (b : Byte), s.enc.phase = .run → s.enc.lookup s.enc.curNode b = 0#12 →
    s.enc.dictSize.toNat < 4096 →
    ∃ m, Memory.getCell m s.enc.curNode b = BitVec.ofNat 12 s.enc.dictSize.toNat
      ∧ (∀ n' b', ¬(n' = s.enc.curNode ∧ b' = b) → Memory.getCell m n' b' = Memory.getCell s.enc.trie n' b')
      ∧ EncoderWrites (.encByteAdd b) s (s.enc.putBytes s.enc.curNode)
          (fun e => (((e.setResidual (s.enc.putResidual s.enc.curNode).1 (s.enc.putResidual s.enc.curNode).2).setTrie
            m).setDictSize (BitVec.ofNat 13 (s.enc.dictSize.toNat + 1))).setCurNode (BitVec.ofNat 12 b.toNat))

/-- R147: ENC.BYTE.RESET: PUTCODE of `curNode`, then every cell 0, `dictSize` 256, no entry added, the byte as the new `curNode`; at a failing write none of these lines. -/
def Obligations.EncByteResetEmitsThenClears : Prop :=
  ∀ (s : State) (b : Byte), s.enc.phase = .run → s.enc.lookup s.enc.curNode b = 0#12 →
    s.enc.dictSize.toNat = 4096 →
    ∃ m, (∀ n' b', Memory.getCell m n' b' = 0#12)
      ∧ EncoderWrites (.encByteReset b) s (s.enc.putBytes s.enc.curNode)
          (fun e => (((e.setResidual (s.enc.putResidual s.enc.curNode).1 (s.enc.putResidual s.enc.curNode).2).setTrie
            m).setDictSize 256#13).setCurNode (BitVec.ofNat 12 b.toNat))

/-- R148: ENC.EOS: PUTLAST of `curNode`, then DONE; trie and `dictSize` unchanged; at a failing write FAULT, not DONE. -/
def Obligations.EncEosFlushesThenEnds : Prop :=
  ∀ s : State, s.enc.phase = .run →
    EncoderWrites .encEos s (s.enc.lastBytes s.enc.curNode)
      (fun e => (if s.enc.wHave = false then e else e.setResidual false 0#4).setPhase .done)

/-- R149: ENC.EOS.EMPTY ends the run and emits nothing. -/
def Obligations.EncEosEmptyEndsSilently : Prop :=
  ∀ s : State, s.enc.phase = .first → exec .encEosEmpty s = .next (s.setEnc (s.enc.setPhase .done))

/-! ## The decoder unit: arena and table -/

/-- R170, R172 and R173: ARENA.INIT, ARENA.MARK and ARENA.REWIND write one register each; no byte of the arena and no entry changes, nor anything else. The base 0 is the spec's own decision D7. -/
def Obligations.ArenaPointerOperationsWriteOneRegister : Prop :=
  ∀ s : State,
    exec .arenaInit s = .next (s.setDec (s.dec.setPtr 0))
    ∧ exec .arenaMark s = .next (s.setDec (s.dec.setMark s.dec.aPtr))
    ∧ exec .arenaRewind s = .next (s.setDec (s.dec.setPtr s.dec.aMark))

/-- R171: ARENA.ALLOC takes the least multiple of 4 that is at least the request, from `a_ptr` on; AllocFail with `a_ptr` unchanged where it does not fit, which is the spec's own decision D13. -/
def Obligations.ArenaAllocCarvesABlock : Prop :=
  ∀ (s : State) (n : Nat), ∃ size, size % 4 = 0 ∧ n ≤ size ∧ size < n + 4
    ∧ (s.dec.aPtr + size ≤ s.config.arenaBytes →
        exec (.arenaAlloc n) s = .next ((s.setDec (s.dec.setPtr (s.dec.aPtr + size))).setAnswer (.offset s.dec.aPtr)))
    ∧ (s.config.arenaBytes < s.dec.aPtr + size →
        exec (.arenaAlloc n) s = .next (s.setDec ((s.dec.setRecord .allocFail 0#12 0#13).setPhase .fault)))

/-- R174: DICT.INIT writes the 256 literal entries, each in a block of 4 bytes from `a_ptr` on in ascending order (the spec's own decision D7), and no other entry, arena byte or register. Where they do not all fit it writes those that do and takes AllocFail (R171). -/
def Obligations.DictInitWritesTheLiterals : Prop :=
  ∀ s : State,
    (s.dec.aPtr + 1024 ≤ s.config.arenaBytes → ∃ es ar, exec .dictInit s
        = .next (s.setDec (((s.dec.setEntries es).setArena ar).setPtr (s.dec.aPtr + 1024)))
      ∧ (∀ c, c < 256 → Memory.get? es c = some ⟨s.dec.aPtr + 4 * c, 1⟩
          ∧ Memory.get? ar (s.dec.aPtr + 4 * c) = some (BitVec.ofNat 8 c))
      ∧ (∀ c, 256 ≤ c → Memory.get? es c = Memory.get? s.dec.entries c)
      ∧ ∀ o, (∀ c, c < 256 → o ≠ s.dec.aPtr + 4 * c) → Memory.get? ar o = Memory.get? s.dec.arena o)
    ∧ (s.config.arenaBytes < s.dec.aPtr + 1024 → ∃ es ar k, k = (s.config.arenaBytes - s.dec.aPtr) / 4
      ∧ exec .dictInit s = .next (s.setDec (((((s.dec.setEntries es).setArena ar).setPtr
          (s.dec.aPtr + 4 * k)).setRecord .allocFail 0#12 0#13).setPhase .fault))
      ∧ (∀ c, c < k → Memory.get? es c = some ⟨s.dec.aPtr + 4 * c, 1⟩
          ∧ Memory.get? ar (s.dec.aPtr + 4 * c) = some (BitVec.ofNat 8 c))
      ∧ (∀ c, k ≤ c → Memory.get? es c = Memory.get? s.dec.entries c)
      ∧ ∀ o, (∀ c, c < k → o ≠ s.dec.aPtr + 4 * c) → Memory.get? ar o = Memory.get? s.dec.arena o)

/-- R175: DICT.FIRSTBYTE returns the byte at the entry's offset and changes nothing; for a literal it is the code itself where R32 holds. -/
def Obligations.DictFirstByteReadsTheBlock : Prop :=
  (∀ (s : State) (c : Code) (en : Entry) (x : Byte), Memory.get? s.dec.entries c.toNat = some en →
    en.off < s.config.arenaBytes → Memory.get? s.dec.arena en.off = some x →
    exec (.dictFirstByte c) s = .next (s.setAnswer (.symbol x)))
  ∧ ∀ (s : State) (b : Byte), s.dec.Live s.config →
    exec (.dictFirstByte (literalCode b)) s = .next (s.setAnswer (.symbol b))

/-- R36 has a model treat a read of what holds no value as a fault of the model: so do DICT.FIRSTBYTE, DICT.EMIT and DICT.ADD, of a missing entry and of an entry whose first byte holds no value. The names of the stops are the model's (notes/assumptions/7.md). -/
def Obligations.ReadingWhatHoldsNoValueStops : Prop :=
  ∀ (s : State) (c : Code),
    (Memory.get? s.dec.entries c.toNat = none →
      exec (.dictFirstByte c) s = .fault .unwrittenEntry ∧ exec (.dictEmit c) s = .fault .unwrittenEntry
      ∧ ∀ x, exec (.dictAdd c x) s = .fault .unwrittenEntry)
    ∧ ∀ en : Entry, Memory.get? s.dec.entries c.toNat = some en → en.off < s.config.arenaBytes →
        Memory.get? s.dec.arena en.off = none →
        exec (.dictFirstByte c) s = .fault .unwrittenArena
        ∧ (1 ≤ en.len → exec (.dictEmit c) s = .fault .unwrittenArena)
        ∧ (1 ≤ en.len → s.dec.aPtr + round4 (en.len + 1) ≤ s.config.arenaBytes →
            ∀ x, exec (.dictAdd c x) s = .fault .unwrittenArena)

/-- R176: DICT.ADD of a valid entry builds `seq(p) ++ [x]` in a new block and registers it; everything else is unchanged. Where the block does not fit, AllocFail before anything is written. -/
def Obligations.DictAddBuildsTheNewEntry : Prop :=
  ∀ (s : State) (p : Code) (x : Byte) (bp : List Byte), s.dec.holds s.config p bp = true →
    s.dec.dictSize.toNat < 4096 →
    (s.dec.aPtr + round4 (bp.length + 1) ≤ s.config.arenaBytes →
      ∃ d1, exec (.dictAdd p x) s = .next (s.setDec d1) ∧ AddsEntry s.dec bp x d1)
    ∧ (s.config.arenaBytes < s.dec.aPtr + round4 (bp.length + 1) →
      exec (.dictAdd p x) s = .next (s.setDec ((s.dec.setRecord .allocFail 0#12 0#13).setPhase .fault)))

/-- U3: where the source block lies at or above the new block, as after a stale code under the `legacy` policy, the ascending copy of R176 is exact even if the two overlap; the order is the spec's own decision D17. -/
def Obligations.DictAddCopiesDownwardExactly : Prop :=
  ∀ (s : State) (p : Code) (x : Byte) (en : Entry) (bp : List Byte),
    Memory.get? s.dec.entries p.toNat = some en → readRange s.dec.arena en.len en.off = some bp →
    s.dec.aPtr ≤ en.off → en.off + en.len ≤ s.config.arenaBytes → s.dec.dictSize.toNat < 4096 →
    s.dec.aPtr + round4 (bp.length + 1) ≤ s.config.arenaBytes →
    ∃ d1, exec (.dictAdd p x) s = .next (s.setDec d1) ∧ AddsEntry s.dec bp x d1

/-- R177: DICT.EMIT writes the entry's sequence to the sink in order and changes no state of the decoder; at a failing write the bytes before it have been delivered. -/
def Obligations.DictEmitWritesTheSequence : Prop :=
  ∀ (s : State) (c : Code) (bs : List Byte), s.dec.holds s.config c bs = true →
    DecoderWrites (.dictEmit c) s s.dec bs id

/-! ## The decoder unit: driver -/

/-- R180: DEC.FIRST emits the literal as its byte and makes it `prevCode`; the dictionary does not change. -/
def Obligations.DecFirstEmitsTheLiteral : Prop :=
  ∀ (s : State) (c : Byte), s.dec.Live s.config → s.dec.phase = .first →
    DecoderWrites (.decFirst c) s s.dec [c]
      (fun d => (d.setPrevCode (BitVec.ofNat 12 c.toNat)).setPhase .run)

/-- R181, the spec's own decision D10: a first code of 257 or more is CorruptCode, a first code of 256 NoPrevCode, both with `dictSize` 256; nothing is emitted. -/
def Obligations.DecFirstBadTakesTheFault : Prop :=
  ∀ (s : State) (c : Code), s.dec.phase = .first →
    (256 < c.toNat → exec (.decFirstBad c) s = .next (s.setDec ((s.dec.setRecord .corruptCode c 256#13).setPhase .fault)))
    ∧ (c.toNat = 256 → exec (.decFirstBad c) s = .next (s.setDec ((s.dec.setRecord .noPrevCode 256#12 256#13).setPhase .fault)))

/-- R183: a code above `dictSize` takes CorruptCode with the code and `dictSize`; nothing else changes and nothing is emitted. -/
def Obligations.DecCodeCorruptTakesTheFault : Prop :=
  ∀ (s : State) (c : Code), s.dec.phase = .run → s.dec.dictSize.toNat < c.toNat →
    exec (.decCodeCorrupt c) s = .next (s.setDec ((s.dec.setRecord .corruptCode c s.dec.dictSize).setPhase .fault))

/-- R184: DEC.CODE.KNOWN adds `seq(prevCode) ++ [first byte of the code]`, then emits the code's sequence, then makes the code `prevCode`; AllocFail changes nothing else; SinkFail leaves the entry added and `prevCode` as before. -/
def Obligations.DecCodeKnownAddsThenEmits : Prop :=
  ∀ (s : State) (c : Code) (bp bs : List Byte) (x : Byte), s.dec.phase = .run → s.dec.dictSize.toNat < 4096 →
    c.toNat < s.dec.dictSize.toNat → s.dec.holds s.config s.dec.prevCode bp = true →
    s.dec.holds s.config c (x :: bs) = true →
    (s.dec.aPtr + round4 (bp.length + 1) ≤ s.config.arenaBytes →
      ∃ d1, AddsEntry s.dec bp x d1 ∧ DecoderWrites (.decCodeKnown c) s d1 (x :: bs) (fun d => d.setPrevCode c))
    ∧ (s.config.arenaBytes < s.dec.aPtr + round4 (bp.length + 1) →
      exec (.decCodeKnown c) s = .next (s.setDec ((s.dec.setRecord .allocFail 0#12 0#13).setPhase .fault)))

/-- R185: DEC.CODE.KWKWK adds `seq(prevCode)` followed by its own first byte as the entry of the code itself, then emits that sequence, then makes the code `prevCode`; faults as R184. -/
def Obligations.DecCodeKwkwkAddsThenEmits : Prop :=
  ∀ (s : State) (c : Code) (bp : List Byte) (x : Byte), s.dec.phase = .run → s.dec.dictSize.toNat < 4096 →
    c.toNat = s.dec.dictSize.toNat → s.dec.holds s.config s.dec.prevCode (x :: bp) = true →
    (s.dec.aPtr + round4 (bp.length + 2) ≤ s.config.arenaBytes →
      ∃ d1, AddsEntry s.dec (x :: bp) x d1
        ∧ DecoderWrites (.decCodeKwkwk c) s d1 (x :: bp ++ [x]) (fun d => d.setPrevCode c))
    ∧ (s.config.arenaBytes < s.dec.aPtr + round4 (bp.length + 2) →
      exec (.decCodeKwkwk c) s = .next (s.setDec ((s.dec.setRecord .allocFail 0#12 0#13).setPhase .fault)))

/-- R186: DEC.CODE.RESET sets `dictSize` to 256 and `a_ptr` to the mark, adds no entry, emits the literal's sequence, and makes the literal `prevCode`. -/
def Obligations.DecCodeResetRewindsThenEmits : Prop :=
  ∀ (s : State) (c : Byte) (bs : List Byte) (x : Byte), s.dec.phase = .run → s.dec.dictSize.toNat = 4096 →
    s.dec.holds s.config (literalCode c) (x :: bs) = true →
    DecoderWrites (.decCodeReset c) s ((s.dec.setDictSize 256#13).setPtr s.dec.aMark) (x :: bs)
      (fun d => d.setPrevCode (BitVec.ofNat 12 c.toNat))

/-- R187, the spec's own decision D11: a code of 256 or more at a reset step takes StaleCode before anything is changed (`STALE_POLICY = fault`); under `legacy` (U3) the reset is performed, the retained sequence of the code is emitted, and the code becomes `prevCode`. -/
def Obligations.DecCodeStaleByPolicy : Prop :=
  ∀ (s : State) (c : Code), s.dec.phase = .run → s.dec.dictSize.toNat = 4096 → 256 ≤ c.toNat →
    (s.config.stale = .fault →
      exec (.decCodeStale c) s = .next (s.setDec ((s.dec.setRecord .staleCode c 4096#13).setPhase .fault)))
    ∧ (s.config.stale = .legacy → ∀ (bs : List Byte) (x : Byte), s.dec.holds s.config c (x :: bs) = true →
      DecoderWrites (.decCodeStale c) s ((s.dec.setDictSize 256#13).setPtr s.dec.aMark) (x :: bs)
        (fun d => d.setPrevCode c))

/-- R188: DEC.EOS ends the run whatever the reader holds, and emits nothing. -/
def Obligations.DecEosEndsTheRun : Prop :=
  ∀ s : State, (s.dec.phase = .first ∨ s.dec.phase = .run) →
    exec .decEos s = .next (s.setDec (s.dec.setPhase .done))

/-! ## Streams and host -/

/-- R220: SRC.READ of a stream takes the first remaining byte, or answers EOS and takes nothing (that a source has no third answer is the spec's own decision D14). Over a pipe (R230) it takes the next byte the encoder's sink has accepted, answers EOS once the encoder has reached DONE and all are taken, and until then waits with nothing changed, which is the model's form of a transaction not yet answered (notes/assumptions/18.md, 20.md). -/
def Obligations.SrcReadTakesTheFirstByte : Prop :=
  (∀ (s : State) (v : Byte) (rest : List Byte), s.enc.source = v :: rest →
    exec (.srcRead .encoder) s = .next ((s.setEnc (s.enc.setSource rest)).setAnswer (.symbol v)))
  ∧ (∀ s : State, s.enc.source = [] → exec (.srcRead .encoder) s = .next (s.setAnswer .eos))
  ∧ (∀ (s : State) (v : Byte) (rest : List Byte), s.dec.source = .stream (v :: rest) →
    exec (.srcRead .decoder) s = .next ((s.setDec (s.dec.setSource (.stream rest))).setAnswer (.symbol v)))
  ∧ (∀ s : State, s.dec.source = .stream [] → exec (.srcRead .decoder) s = .next (s.setAnswer .eos))
  ∧ ∀ (s : State) (taken : Nat), s.dec.source = .pipe taken →
    (∀ (v : Byte) (rest : List Byte), s.enc.sink.accepted.drop taken = v :: rest →
      exec (.srcRead .decoder) s = .next ((s.setDec (s.dec.setSource (.pipe (taken + 1)))).setAnswer (.symbol v)))
    ∧ (s.enc.sink.accepted.drop taken = [] →
      (s.enc.phase = .done ∧ s.enc.sinkNew = false → exec (.srcRead .decoder) s = .next (s.setAnswer .eos))
      ∧ (¬(s.enc.phase = .done ∧ s.enc.sinkNew = false) →
        exec (.srcRead .decoder) s = .next (s.setAnswer .waiting)))

/-- R221: SNK.WRITE answered `ok` appends the byte after every byte accepted earlier; answered `fail` it appends nothing. -/
def Obligations.SnkWriteAppendsOrFails : Prop :=
  ∀ (s : State) (v : Byte),
    (s.enc.sink.accepts 1 = true → exec (.snkWrite .encoder v) s
      = .next ((s.setEnc (s.enc.setSink (s.enc.sink.got [v]))).setAnswer (.sink .ok)))
    ∧ (s.enc.sink.failsAt 0 = true → exec (.snkWrite .encoder v) s
      = .next ((s.setEnc (s.enc.setSink (s.enc.sink.failed [] 0))).setAnswer (.sink .fail)))
    ∧ (s.dec.sink.accepts 1 = true → exec (.snkWrite .decoder v) s
      = .next ((s.setDec (s.dec.setSink (s.dec.sink.got [v]))).setAnswer (.sink .ok)))
    ∧ (s.dec.sink.failsAt 0 = true → exec (.snkWrite .decoder v) s
      = .next ((s.setDec (s.dec.setSink (s.dec.sink.failed [] 0))).setAnswer (.sink .fail)))

/-- R224 with R36: ENC.START establishes the encoder's initial state; what `curNode` is left with is not said (notes/assumptions/8.md), and that the trie starts empty is the spec's own decision D6. The sink counts as in use from here on (notes/assumptions/20.md). -/
def Obligations.EncStartEstablishesTheInitialState : Prop :=
  ∀ s : State, running s.enc.phase = false →
    ∃ m free, (∀ n b, Memory.getCell m n b = 0#12)
      ∧ exec .encStart s = .next (((s.setEnc (((((((s.enc.setTrie m).setDictSize 256#13).setResidual false 0#4).setCause
          .none).setCurNode free).setSinkNew false).setPhase .first)).setAnswer .startAccepted).setDraws (s.draws + 1))

/-- R225 with R36 and R71: DEC.START establishes the decoder's initial state, entry by entry and byte by byte; every other entry and byte holds no value (notes/assumptions/7.md); what `prevCode` is left with is not said (notes/assumptions/8.md). With fewer than 1024 bytes of arena it takes AllocFail. -/
def Obligations.DecStartEstablishesTheInitialState : Prop :=
  ∀ s : State, running s.dec.phase = false →
    (1024 ≤ s.config.arenaBytes → ∃ es ar free,
      exec .decStart s = .next (((s.setDec (((((((((s.dec.setEntries es).setArena ar).setPtr 1024).setMark
          1024).setDictSize 256#13).setResidual false 0#4).setRecord .none 0#12 0#13).setPrevCode free).setPhase
          .first)).setAnswer .startAccepted).setDraws (s.draws + 1))
      ∧ (∀ c, c < 256 → Memory.get? es c = some ⟨4 * c, 1⟩ ∧ Memory.get? ar (4 * c) = some (BitVec.ofNat 8 c))
      ∧ (∀ c, 256 ≤ c → Memory.get? es c = none)
      ∧ ∀ o, (∀ c, c < 256 → o ≠ 4 * c) → Memory.get? ar o = none)
    ∧ (s.config.arenaBytes < 1024 → ∃ d,
      exec .decStart s = .next (((s.setDec d).setAnswer .startAccepted).setDraws (s.draws + 1))
      ∧ d.phase = .fault ∧ d.faultCause = .allocFail ∧ d.faultCode = 0#12 ∧ d.faultDictSize = 0#13
      ∧ d.sink = s.dec.sink ∧ d.source = s.dec.source)

/-- R229, the spec's own decisions D4 and D18: START to a unit in FIRST or RUN is refused and recorded, and no state of the block changes; likewise the host attaches nothing to a running unit (R283, notes/assumptions/13.md). -/
def Obligations.RunningUnitRefusesTheHost : Prop :=
  ∀ s : State,
    (running s.enc.phase = true → exec .encStart s = .next (s.setAnswer .startRefused)
      ∧ ∀ source answers, s.attachEncoder source answers = s.setAnswer .attachRefused)
    ∧ (running s.dec.phase = true → exec .decStart s = .next (s.setAnswer .startRefused)
      ∧ ∀ source answers, s.attachDecoder source answers = s.setAnswer .attachRefused)

/-- R230 leaves open what a pipe is once the encoder has another sink; the model's choice (notes/assumptions/20.md): a decoder goes on with the sink it had. Whatever GETCODE and SRC.READ did before the host attached a fresh sink to the encoder they do after it, the position in the old sink counted in `release`; the encoder has the new source and the new sink, and a DONE of the run before is no end of it. -/
def Obligations.FreshSinkLeavesThePipeTheOldOne : Prop :=
  ∀ (s : State) (source : List Byte) (answers : List SinkAnswer), running s.enc.phase = false →
    ∃ t, s.attachEncoder source answers = t
      ∧ t.enc = ((s.enc.setSource source).setSink ⟨[], answers⟩).setSinkNew true
      ∧ t.enc.feed = ⟨[], false⟩ ∧ t.answer = .attached
      ∧ ∀ i, i = .getCode ∨ i = .srcRead .decoder →
        exec i t = onNext (fun u => (u.setEnc t.enc).setDec (u.dec.setSource (u.dec.source.release s.enc.feed)))
          (exec i (s.setAnswer .attached))

/-- R227 with R24 and R240: STATUS.READ in any phase returns four values, the phase and the fault record by their numbers, and changes nothing; of the encoder, which has no `fault_code` and no `fault_dictSize` (R25), both are 0, as for every cause without a code, which is read from D3 by inference, and before the first START the model's choice (notes/assumptions/5.md, 19.md). -/
def Obligations.StatusReadReportsThePhaseAndRecord : Prop :=
  ∀ s : State, ∃ pe ce pd cd,
    exec (.statusRead .encoder) s = .next (s.setAnswer (.status pe ce 0#12 0#13))
    ∧ exec (.statusRead .decoder) s = .next (s.setAnswer (.status pd cd s.dec.faultCode s.dec.faultDictSize))
    ∧ [(Phase.idle, 0#3), (Phase.first, 1#3), (Phase.run, 2#3), (Phase.done, 3#3), (Phase.fault, 4#3)].lookup
        s.enc.phase = some pe
    ∧ [(Phase.idle, 0#3), (Phase.first, 1#3), (Phase.run, 2#3), (Phase.done, 3#3), (Phase.fault, 4#3)].lookup
        s.dec.phase = some pd
    ∧ [(Cause.none, 0#3), (Cause.corruptCode, 1#3), (Cause.sinkFail, 2#3), (Cause.allocFail, 3#3),
        (Cause.noPrevCode, 4#3), (Cause.staleCode, 5#3), (Cause.truncated, 6#3)].lookup s.enc.faultCause = some ce
    ∧ [(Cause.none, 0#3), (Cause.corruptCode, 1#3), (Cause.sinkFail, 2#3), (Cause.allocFail, 3#3),
        (Cause.noPrevCode, 4#3), (Cause.staleCode, 5#3), (Cause.truncated, 6#3)].lookup s.dec.faultCause = some cd

/-! ## The whole machine -/

/-- After power-on (R36, R281, the spec's own decision D4) both units are IDLE, no entry and no arena byte holds a value, nothing is asked of the block, and the invariants hold; of the registers R36 leaves unspecified they see the zeros the model chose (notes/assumptions/5.md). That nothing is asked of the block, and that a step then answers the state unchanged, are the model's choice too (notes/assumptions/1.md, 14.md, 17.md). -/
def Obligations.ResetMeetsTheInvariants : Prop :=
  State.reset.Inv ∧ State.reset.enc.phase = .idle ∧ State.reset.dec.phase = .idle
  ∧ (∀ c, Memory.get? State.reset.dec.entries c = none) ∧ (∀ o, Memory.get? State.reset.dec.arena o = none)
  ∧ step State.reset = .next State.reset

/-- R35: an operation of one unit leaves the other unit as it is, and what it does does not depend on it, but for a decoder whose source is the encoder's sink (R230); no operation writes the parameters (R7, R16), the agenda or the port, no step writes the parameters, and none leaves an operation at the port. The parameters held in the state, the agenda and the port are fields of the model's own (notes/assumptions/4.md, 1.md, 11.md). -/
def Obligations.UnitsShareNoState : Prop :=
  (∀ (i : Instr) (s s' : State), exec i s = .next s' →
    s'.config = s.config ∧ s'.agenda = s.agenda ∧ s'.port = s.port
    ∧ (unitOf i = .encoder → s'.dec = s.dec) ∧ (unitOf i = .decoder → s'.enc = s.enc))
  ∧ (∀ s s' : State, step s = .next s' → s'.config = s.config ∧ s'.port = none)
  ∧ (∀ (i : Instr) (s : State) (d : Decoder), unitOf i = .encoder →
      exec i (s.setDec d) = onNext (fun t => t.setDec d) (exec i s))
  ∧ ∀ (i : Instr) (s : State) (e : Encoder), unitOf i = .decoder →
      (∀ taken, s.dec.source ≠ .pipe taken) → exec i (s.setEnc e) = onNext (fun t => t.setEnc e) (exec i s)

/-- R26, an inference the spec marks: no step changes a phase but along a line of the table; DEC.START can end in FAULT only with fewer than 1024 bytes of arena. -/
def Obligations.PhasesMoveOnlyAlongTheTable : Prop :=
  ∀ s s' : State, s.port = none → step s = .next s' →
    (s'.enc.phase = s.enc.phase
      ∨ (running s.enc.phase = false ∧ s'.enc.phase = .first)
      ∨ (s.enc.phase = .first ∧ (s'.enc.phase = .run ∨ s'.enc.phase = .done))
      ∨ (s.enc.phase = .run ∧ (s'.enc.phase = .done ∨ s'.enc.phase = .fault)))
    ∧ (s'.dec.phase = s.dec.phase
      ∨ (running s.dec.phase = false ∧ s'.dec.phase = .first)
      ∨ (running s.dec.phase = false ∧ s'.dec.phase = .fault ∧ s.config.arenaBytes < 1024)
      ∨ (s.dec.phase = .first ∧ (s'.dec.phase = .run ∨ s'.dec.phase = .done ∨ s'.dec.phase = .fault))
      ∨ (s.dec.phase = .run ∧ (s'.dec.phase = .done ∨ s'.dec.phase = .fault)))

/-- Every step, whatever is presented to it, keeps the three memories in canonical form. -/
def Obligations.StepKeepsMemoriesCanonical : Prop :=
  ∀ s s' : State, s.canonical = true → step s = .next s' → s'.canonical = true

/-- R23, an inference the spec marks: every step keeps the encoder's invariants, from every state that meets them. -/
def Obligations.StepKeepsTheEncoderInvariants : Prop :=
  ∀ s s' : State, s.port = none → s.enc.Inv → step s = .next s' → s'.enc.Inv

/-- R32, an inference the spec marks, under `STALE_POLICY = fault`: every step keeps the decoder's invariants, from every state that meets them, whatever the size of the arena. -/
def Obligations.StepKeepsTheDecoderInvariants : Prop :=
  ∀ s s' : State, s.port = none → s.config.stale = .fault → s.dec.Inv s.config → step s = .next s' →
    s'.dec.Inv s'.config

/-- From every state that meets the invariants a step gives a next state: no rule reads what holds no value (R36), no selected operation is turned away, and every fault of the block is a next state (R254). Where a unit is not running, waits on a pipe, or is sent a START while it runs, that the step is a next state is the model's choice (notes/assumptions/14.md, 18.md, 13.md). -/
def Obligations.InvariantStatesAlwaysStep : Prop :=
  ∀ s : State, s.Inv → ∃ s', step s = .next s'

/-- R73, an inference the spec marks: where R32 holds `a_ptr` is at most 7,385,344, so with a legal arena no step takes AllocFail. -/
def Obligations.ArenaNeverOverflows : Prop :=
  (∀ (cfg : Config) (d : Decoder), d.Live cfg → d.aPtr ≤ 7385344)
  ∧ ∀ s s' : State, s.Inv → s.config.legal = true → s.dec.faultCause ≠ .allocFail → step s = .next s' →
      s'.dec.faultCause ≠ .allocFail

/-- R193 and the idempotence of literals (R174, V-SRC-7), inferences the spec marks: wherever R32 holds, a literal expands to exactly its own value, and no valid entry is longer than 3841 bytes. -/
def Obligations.ValidEntriesAreBoundedAndLiteralsFixed : Prop :=
  (∀ (cfg : Config) (d : Decoder) (b : Byte), d.Live cfg → d.holds cfg (literalCode b) [b] = true)
  ∧ ∀ (cfg : Config) (d : Decoder) (c : Nat), d.Live cfg → c < d.dictSize.toNat →
    ∃ bs, d.seq? c = some bs ∧ 1 ≤ bs.length ∧ bs.length ≤ 3841
end

