-- ==== Sys2Proof/Laws/Memory.lean ====
section
/-! SUPPORT. The three memories: reading after writing, and that every operation keeps the canonical form. -/

namespace Sys2Proof.Machine

variable {α : Type}

/-! ## Reading after writing -/

@[simp] theorem Memory.get?_nil (a : Nat) : Memory.get? ([] : List (Nat × α)) a = none := rfl

theorem Memory.get?_cons (k : Nat) (v : α) (m : List (Nat × α)) (a : Nat) :
    Memory.get? ((k, v) :: m) a = if a = k then some v else Memory.get? m a := rfl

theorem Memory.get?_set_self (m : List (Nat × α)) (a : Nat) (v : α) :
    Memory.get? (Memory.set m a v) a = some v := by
  induction m with
  | nil => simp [Memory.set, Memory.get?]
  | cons p m ih =>
    obtain ⟨k, w⟩ := p
    by_cases h1 : a < k
    · simp [Memory.set, Memory.get?, h1]
    · by_cases h2 : a = k
      · simp [Memory.set, Memory.get?, h2]
      · simpa [Memory.set, Memory.get?, h1, h2] using ih

theorem Memory.get?_set_other (m : List (Nat × α)) {a b : Nat} (v : α) (h : b ≠ a) :
    Memory.get? (Memory.set m a v) b = Memory.get? m b := by
  induction m with
  | nil => simp [Memory.set, Memory.get?, h]
  | cons p m ih =>
    obtain ⟨k, w⟩ := p
    by_cases h1 : a < k
    · simp [Memory.set, Memory.get?, h1, h]
    · by_cases h2 : a = k
      · subst h2
        simp [Memory.set, Memory.get?, h]
      · simp [Memory.set, Memory.get?, h1, h2, ih]

theorem Memory.get?_set (m : List (Nat × α)) (a b : Nat) (v : α) :
    Memory.get? (Memory.set m a v) b = if b = a then some v else Memory.get? m b := by
  by_cases h : b = a
  · simp [h, Memory.get?_set_self]
  · simp [h, Memory.get?_set_other]

theorem Memory.get?_erase (m : List (Nat × α)) (a b : Nat) :
    Memory.get? (Memory.erase m a) b = if b = a then none else Memory.get? m b := by
  induction m with
  | nil => simp [Memory.erase]
  | cons p m ih =>
    obtain ⟨k, w⟩ := p
    by_cases h : a = k
    · subst h
      by_cases hb : b = a
      · subst hb
        simpa [Memory.erase] using ih
      · simpa [Memory.erase, Memory.get?, hb] using ih
    · by_cases hb : b = k
      · subst hb
        have : ¬ b = a := fun e => h e.symm
        simp [Memory.erase, Memory.get?, h, this]
      · simp [Memory.erase, Memory.get?, h, hb, ih]

/-! ## The canonical form -/

theorem Memory.above_set {lo a : Nat} (v : α) (h : lo < a) :
    ∀ m : List (Nat × α), Memory.above lo m = true → Memory.above lo (Memory.set m a v) = true := by
  intro m
  induction m generalizing lo with
  | nil => intro _; simp [Memory.set, Memory.above, h]
  | cons p m ih =>
    obtain ⟨k, w⟩ := p
    intro hm
    simp only [Memory.above, Bool.and_eq_true, decide_eq_true_eq] at hm
    by_cases h1 : a < k
    · simp [Memory.set, Memory.above, h1, h, hm.2]
    · by_cases h2 : a = k
      · subst h2
        simp [Memory.set, Memory.above, h, hm.2]
      · have h3 : k < a := by omega
        simp [Memory.set, Memory.above, h1, h2, hm.1, ih h3 hm.2]

theorem Memory.above_weaken {lo lo' : Nat} (h : lo' ≤ lo) :
    ∀ m : List (Nat × α), Memory.above lo m = true → Memory.above lo' m = true := by
  intro m
  cases m with
  | nil => intro _; rfl
  | cons p m =>
    intro hm
    simp only [Memory.above, Bool.and_eq_true, decide_eq_true_eq] at hm ⊢
    exact ⟨by omega, hm.2⟩

theorem Memory.wf_of_above {lo : Nat} :
    ∀ m : List (Nat × α), Memory.above lo m = true → Memory.wf m = true := by
  intro m
  cases m with
  | nil => intro _; rfl
  | cons p m =>
    intro hm
    simp only [Memory.above, Bool.and_eq_true] at hm
    exact hm.2

theorem Memory.wf_set (m : List (Nat × α)) (a : Nat) (v : α) (h : Memory.wf m = true) :
    Memory.wf (Memory.set m a v) = true := by
  cases m with
  | nil => rfl
  | cons p m =>
    obtain ⟨k, w⟩ := p
    have hk : Memory.above k m = true := h
    by_cases h1 : a < k
    · simpa [Memory.set, h1, Memory.wf, Memory.above] using hk
    · by_cases h2 : a = k
      · subst h2
        simpa [Memory.set, Memory.wf] using hk
      · have h3 : k < a := by omega
        simpa [Memory.set, h1, h2, Memory.wf] using Memory.above_set v h3 m hk

theorem Memory.above_erase {lo : Nat} (a : Nat) :
    ∀ m : List (Nat × α), Memory.above lo m = true → Memory.above lo (Memory.erase m a) = true := by
  intro m
  induction m generalizing lo with
  | nil => intro _; rfl
  | cons p m ih =>
    obtain ⟨k, w⟩ := p
    intro hm
    simp only [Memory.above, Bool.and_eq_true, decide_eq_true_eq] at hm
    by_cases h : a = k
    · simpa [Memory.erase, h] using
        ih (Memory.above_weaken (Nat.le_of_lt hm.1) m hm.2)
    · simp [Memory.erase, Memory.above, h, hm.1, ih hm.2]

theorem Memory.wf_erase (m : List (Nat × α)) (a : Nat) (h : Memory.wf m = true) :
    Memory.wf (Memory.erase m a) = true := by
  cases m with
  | nil => rfl
  | cons p m =>
    obtain ⟨k, w⟩ := p
    have hk : Memory.above k m = true := h
    by_cases h1 : a = k
    · simpa [Memory.erase, h1] using
        Memory.wf_of_above _ (Memory.above_erase k m hk)
    · simpa [Memory.erase, h1, Memory.wf] using Memory.above_erase a m hk

/-! ## The cells of `TRIE` -/

theorem cellKey_lt (n : Code) (b : Byte) : cellKey n b < 1048576 := by
  have := n.isLt
  have := b.isLt
  unfold cellKey
  omega

theorem cellKey_inj {n n' : Code} {b b' : Byte} : cellKey n b = cellKey n' b' ↔ n = n' ∧ b = b' := by
  constructor
  · intro h
    have := b.isLt
    have := b'.isLt
    unfold cellKey at h
    exact ⟨BitVec.eq_of_toNat_eq (by omega), BitVec.eq_of_toNat_eq (by omega)⟩
  · rintro ⟨rfl, rfl⟩
    rfl

theorem Memory.getCell_setCell_self (m : List (Nat × Code)) (n : Code) (b : Byte) (v : Code) :
    Memory.getCell (Memory.setCell m n b v) n b = v := by
  unfold Memory.getCell Memory.setCell
  by_cases h : v = 0#12
  · simp [h, Memory.get?_erase]
  · simp [h, Memory.get?_set_self]

theorem Memory.getCell_setCell_other (m : List (Nat × Code)) {n n' : Code} {b b' : Byte} (v : Code)
    (h : ¬(n' = n ∧ b' = b)) : Memory.getCell (Memory.setCell m n b v) n' b' = Memory.getCell m n' b' := by
  have hk : cellKey n' b' ≠ cellKey n b := fun e => h (cellKey_inj.mp e)
  unfold Memory.getCell Memory.setCell
  by_cases hv : v = 0#12
  · simp [hv, Memory.get?_erase, hk]
  · simp [hv, Memory.get?_set_other _ _ hk]

@[simp] theorem Memory.getCell_nil (n : Code) (b : Byte) : Memory.getCell [] n b = 0#12 := rfl

theorem Memory.cellsListed_set {m : List (Nat × Code)} {a : Nat} {v : Code} (ha : a < 1048576) (hv : v ≠ 0#12)
    (h : Memory.cellsListed m = true) : Memory.cellsListed (Memory.set m a v) = true := by
  induction m with
  | nil => simp [Memory.set, Memory.cellsListed, ha, hv]
  | cons p m ih =>
    obtain ⟨k, w⟩ := p
    simp only [Memory.cellsListed, Bool.and_eq_true, decide_eq_true_eq] at h
    by_cases h1 : a < k
    · simp [Memory.set, Memory.cellsListed, h1, ha, hv, h.1.1, h.1.2, h.2]
    · by_cases h2 : a = k
      · subst h2
        simp [Memory.set, Memory.cellsListed, ha, hv, h.2]
      · simp [Memory.set, Memory.cellsListed, h1, h2, h.1.1, h.1.2, ih h.2]

theorem Memory.cellsListed_erase {m : List (Nat × Code)} (a : Nat)
    (h : Memory.cellsListed m = true) : Memory.cellsListed (Memory.erase m a) = true := by
  induction m with
  | nil => rfl
  | cons p m ih =>
    obtain ⟨k, w⟩ := p
    simp only [Memory.cellsListed, Bool.and_eq_true, decide_eq_true_eq] at h
    by_cases h1 : a = k
    · subst h1
      simpa [Memory.erase] using ih h.2
    · simp [Memory.erase, Memory.cellsListed, h1, h.1.1, h.1.2, ih h.2]

theorem Memory.trieWf_setCell (m : List (Nat × Code)) (n : Code) (b : Byte) (v : Code)
    (h : Memory.trieWf m = true) : Memory.trieWf (Memory.setCell m n b v) = true := by
  simp only [Memory.trieWf, Bool.and_eq_true] at h ⊢
  unfold Memory.setCell
  by_cases hv : v = 0#12
  · simpa [hv] using ⟨Memory.wf_erase _ _ h.1, Memory.cellsListed_erase _ h.2⟩
  · simpa [hv] using ⟨Memory.wf_set _ _ _ h.1, Memory.cellsListed_set (cellKey_lt n b) hv h.2⟩

/-- The memories after power-on are in canonical form. -/
theorem State.reset_memories_wf :
    Memory.trieWf State.reset.enc.trie = true ∧ Memory.wf State.reset.dec.entries = true
      ∧ Memory.wf State.reset.dec.arena = true := ⟨rfl, rfl, rfl⟩

end Sys2Proof.Machine
end

