-- ==== Sys2Proof/Laws/State.lean ====
section
/-! SUPPORT. What each update of the state leaves in each field. -/

namespace Sys2Proof.Machine

@[simp] theorem Encoder.setPhase_phase (v0 : Phase) (e : Encoder) : (e.setPhase v0).phase = v0 := rfl
@[simp] theorem Encoder.setPhase_faultCause (v0 : Phase) (e : Encoder) : (e.setPhase v0).faultCause = e.faultCause := rfl
@[simp] theorem Encoder.setPhase_curNode (v0 : Phase) (e : Encoder) : (e.setPhase v0).curNode = e.curNode := rfl
@[simp] theorem Encoder.setPhase_dictSize (v0 : Phase) (e : Encoder) : (e.setPhase v0).dictSize = e.dictSize := rfl
@[simp] theorem Encoder.setPhase_wHave (v0 : Phase) (e : Encoder) : (e.setPhase v0).wHave = e.wHave := rfl
@[simp] theorem Encoder.setPhase_wNib (v0 : Phase) (e : Encoder) : (e.setPhase v0).wNib = e.wNib := rfl
@[simp] theorem Encoder.setPhase_trie (v0 : Phase) (e : Encoder) : (e.setPhase v0).trie = e.trie := rfl
@[simp] theorem Encoder.setPhase_source (v0 : Phase) (e : Encoder) : (e.setPhase v0).source = e.source := rfl
@[simp] theorem Encoder.setPhase_sink (v0 : Phase) (e : Encoder) : (e.setPhase v0).sink = e.sink := rfl
@[simp] theorem Encoder.setPhase_sinkNew (v0 : Phase) (e : Encoder) : (e.setPhase v0).sinkNew = e.sinkNew := rfl

@[simp] theorem Encoder.setCause_phase (v0 : Cause) (e : Encoder) : (e.setCause v0).phase = e.phase := rfl
@[simp] theorem Encoder.setCause_faultCause (v0 : Cause) (e : Encoder) : (e.setCause v0).faultCause = v0 := rfl
@[simp] theorem Encoder.setCause_curNode (v0 : Cause) (e : Encoder) : (e.setCause v0).curNode = e.curNode := rfl
@[simp] theorem Encoder.setCause_dictSize (v0 : Cause) (e : Encoder) : (e.setCause v0).dictSize = e.dictSize := rfl
@[simp] theorem Encoder.setCause_wHave (v0 : Cause) (e : Encoder) : (e.setCause v0).wHave = e.wHave := rfl
@[simp] theorem Encoder.setCause_wNib (v0 : Cause) (e : Encoder) : (e.setCause v0).wNib = e.wNib := rfl
@[simp] theorem Encoder.setCause_trie (v0 : Cause) (e : Encoder) : (e.setCause v0).trie = e.trie := rfl
@[simp] theorem Encoder.setCause_source (v0 : Cause) (e : Encoder) : (e.setCause v0).source = e.source := rfl
@[simp] theorem Encoder.setCause_sink (v0 : Cause) (e : Encoder) : (e.setCause v0).sink = e.sink := rfl
@[simp] theorem Encoder.setCause_sinkNew (v0 : Cause) (e : Encoder) : (e.setCause v0).sinkNew = e.sinkNew := rfl

@[simp] theorem Encoder.setCurNode_phase (v0 : Code) (e : Encoder) : (e.setCurNode v0).phase = e.phase := rfl
@[simp] theorem Encoder.setCurNode_faultCause (v0 : Code) (e : Encoder) : (e.setCurNode v0).faultCause = e.faultCause := rfl
@[simp] theorem Encoder.setCurNode_curNode (v0 : Code) (e : Encoder) : (e.setCurNode v0).curNode = v0 := rfl
@[simp] theorem Encoder.setCurNode_dictSize (v0 : Code) (e : Encoder) : (e.setCurNode v0).dictSize = e.dictSize := rfl
@[simp] theorem Encoder.setCurNode_wHave (v0 : Code) (e : Encoder) : (e.setCurNode v0).wHave = e.wHave := rfl
@[simp] theorem Encoder.setCurNode_wNib (v0 : Code) (e : Encoder) : (e.setCurNode v0).wNib = e.wNib := rfl
@[simp] theorem Encoder.setCurNode_trie (v0 : Code) (e : Encoder) : (e.setCurNode v0).trie = e.trie := rfl
@[simp] theorem Encoder.setCurNode_source (v0 : Code) (e : Encoder) : (e.setCurNode v0).source = e.source := rfl
@[simp] theorem Encoder.setCurNode_sink (v0 : Code) (e : Encoder) : (e.setCurNode v0).sink = e.sink := rfl
@[simp] theorem Encoder.setCurNode_sinkNew (v0 : Code) (e : Encoder) : (e.setCurNode v0).sinkNew = e.sinkNew := rfl

@[simp] theorem Encoder.setDictSize_phase (v0 : DictSize) (e : Encoder) : (e.setDictSize v0).phase = e.phase := rfl
@[simp] theorem Encoder.setDictSize_faultCause (v0 : DictSize) (e : Encoder) : (e.setDictSize v0).faultCause = e.faultCause := rfl
@[simp] theorem Encoder.setDictSize_curNode (v0 : DictSize) (e : Encoder) : (e.setDictSize v0).curNode = e.curNode := rfl
@[simp] theorem Encoder.setDictSize_dictSize (v0 : DictSize) (e : Encoder) : (e.setDictSize v0).dictSize = v0 := rfl
@[simp] theorem Encoder.setDictSize_wHave (v0 : DictSize) (e : Encoder) : (e.setDictSize v0).wHave = e.wHave := rfl
@[simp] theorem Encoder.setDictSize_wNib (v0 : DictSize) (e : Encoder) : (e.setDictSize v0).wNib = e.wNib := rfl
@[simp] theorem Encoder.setDictSize_trie (v0 : DictSize) (e : Encoder) : (e.setDictSize v0).trie = e.trie := rfl
@[simp] theorem Encoder.setDictSize_source (v0 : DictSize) (e : Encoder) : (e.setDictSize v0).source = e.source := rfl
@[simp] theorem Encoder.setDictSize_sink (v0 : DictSize) (e : Encoder) : (e.setDictSize v0).sink = e.sink := rfl
@[simp] theorem Encoder.setDictSize_sinkNew (v0 : DictSize) (e : Encoder) : (e.setDictSize v0).sinkNew = e.sinkNew := rfl

@[simp] theorem Encoder.setResidual_phase (v0 : Bool) (v1 : Nibble) (e : Encoder) : (e.setResidual v0 v1).phase = e.phase := rfl
@[simp] theorem Encoder.setResidual_faultCause (v0 : Bool) (v1 : Nibble) (e : Encoder) : (e.setResidual v0 v1).faultCause = e.faultCause := rfl
@[simp] theorem Encoder.setResidual_curNode (v0 : Bool) (v1 : Nibble) (e : Encoder) : (e.setResidual v0 v1).curNode = e.curNode := rfl
@[simp] theorem Encoder.setResidual_dictSize (v0 : Bool) (v1 : Nibble) (e : Encoder) : (e.setResidual v0 v1).dictSize = e.dictSize := rfl
@[simp] theorem Encoder.setResidual_wHave (v0 : Bool) (v1 : Nibble) (e : Encoder) : (e.setResidual v0 v1).wHave = v0 := rfl
@[simp] theorem Encoder.setResidual_wNib (v0 : Bool) (v1 : Nibble) (e : Encoder) : (e.setResidual v0 v1).wNib = v1 := rfl
@[simp] theorem Encoder.setResidual_trie (v0 : Bool) (v1 : Nibble) (e : Encoder) : (e.setResidual v0 v1).trie = e.trie := rfl
@[simp] theorem Encoder.setResidual_source (v0 : Bool) (v1 : Nibble) (e : Encoder) : (e.setResidual v0 v1).source = e.source := rfl
@[simp] theorem Encoder.setResidual_sink (v0 : Bool) (v1 : Nibble) (e : Encoder) : (e.setResidual v0 v1).sink = e.sink := rfl
@[simp] theorem Encoder.setResidual_sinkNew (v0 : Bool) (v1 : Nibble) (e : Encoder) : (e.setResidual v0 v1).sinkNew = e.sinkNew := rfl

@[simp] theorem Encoder.setTrie_phase (v0 : List (Nat × Code)) (e : Encoder) : (e.setTrie v0).phase = e.phase := rfl
@[simp] theorem Encoder.setTrie_faultCause (v0 : List (Nat × Code)) (e : Encoder) : (e.setTrie v0).faultCause = e.faultCause := rfl
@[simp] theorem Encoder.setTrie_curNode (v0 : List (Nat × Code)) (e : Encoder) : (e.setTrie v0).curNode = e.curNode := rfl
@[simp] theorem Encoder.setTrie_dictSize (v0 : List (Nat × Code)) (e : Encoder) : (e.setTrie v0).dictSize = e.dictSize := rfl
@[simp] theorem Encoder.setTrie_wHave (v0 : List (Nat × Code)) (e : Encoder) : (e.setTrie v0).wHave = e.wHave := rfl
@[simp] theorem Encoder.setTrie_wNib (v0 : List (Nat × Code)) (e : Encoder) : (e.setTrie v0).wNib = e.wNib := rfl
@[simp] theorem Encoder.setTrie_trie (v0 : List (Nat × Code)) (e : Encoder) : (e.setTrie v0).trie = v0 := rfl
@[simp] theorem Encoder.setTrie_source (v0 : List (Nat × Code)) (e : Encoder) : (e.setTrie v0).source = e.source := rfl
@[simp] theorem Encoder.setTrie_sink (v0 : List (Nat × Code)) (e : Encoder) : (e.setTrie v0).sink = e.sink := rfl
@[simp] theorem Encoder.setTrie_sinkNew (v0 : List (Nat × Code)) (e : Encoder) : (e.setTrie v0).sinkNew = e.sinkNew := rfl

@[simp] theorem Encoder.setSource_phase (v0 : List Byte) (e : Encoder) : (e.setSource v0).phase = e.phase := rfl
@[simp] theorem Encoder.setSource_faultCause (v0 : List Byte) (e : Encoder) : (e.setSource v0).faultCause = e.faultCause := rfl
@[simp] theorem Encoder.setSource_curNode (v0 : List Byte) (e : Encoder) : (e.setSource v0).curNode = e.curNode := rfl
@[simp] theorem Encoder.setSource_dictSize (v0 : List Byte) (e : Encoder) : (e.setSource v0).dictSize = e.dictSize := rfl
@[simp] theorem Encoder.setSource_wHave (v0 : List Byte) (e : Encoder) : (e.setSource v0).wHave = e.wHave := rfl
@[simp] theorem Encoder.setSource_wNib (v0 : List Byte) (e : Encoder) : (e.setSource v0).wNib = e.wNib := rfl
@[simp] theorem Encoder.setSource_trie (v0 : List Byte) (e : Encoder) : (e.setSource v0).trie = e.trie := rfl
@[simp] theorem Encoder.setSource_source (v0 : List Byte) (e : Encoder) : (e.setSource v0).source = v0 := rfl
@[simp] theorem Encoder.setSource_sink (v0 : List Byte) (e : Encoder) : (e.setSource v0).sink = e.sink := rfl
@[simp] theorem Encoder.setSource_sinkNew (v0 : List Byte) (e : Encoder) : (e.setSource v0).sinkNew = e.sinkNew := rfl

@[simp] theorem Encoder.setSink_phase (v0 : Sink) (e : Encoder) : (e.setSink v0).phase = e.phase := rfl
@[simp] theorem Encoder.setSink_faultCause (v0 : Sink) (e : Encoder) : (e.setSink v0).faultCause = e.faultCause := rfl
@[simp] theorem Encoder.setSink_curNode (v0 : Sink) (e : Encoder) : (e.setSink v0).curNode = e.curNode := rfl
@[simp] theorem Encoder.setSink_dictSize (v0 : Sink) (e : Encoder) : (e.setSink v0).dictSize = e.dictSize := rfl
@[simp] theorem Encoder.setSink_wHave (v0 : Sink) (e : Encoder) : (e.setSink v0).wHave = e.wHave := rfl
@[simp] theorem Encoder.setSink_wNib (v0 : Sink) (e : Encoder) : (e.setSink v0).wNib = e.wNib := rfl
@[simp] theorem Encoder.setSink_trie (v0 : Sink) (e : Encoder) : (e.setSink v0).trie = e.trie := rfl
@[simp] theorem Encoder.setSink_source (v0 : Sink) (e : Encoder) : (e.setSink v0).source = e.source := rfl
@[simp] theorem Encoder.setSink_sink (v0 : Sink) (e : Encoder) : (e.setSink v0).sink = v0 := rfl
@[simp] theorem Encoder.setSink_sinkNew (v0 : Sink) (e : Encoder) : (e.setSink v0).sinkNew = e.sinkNew := rfl

@[simp] theorem Encoder.setSinkNew_phase (v0 : Bool) (e : Encoder) : (e.setSinkNew v0).phase = e.phase := rfl
@[simp] theorem Encoder.setSinkNew_faultCause (v0 : Bool) (e : Encoder) : (e.setSinkNew v0).faultCause = e.faultCause := rfl
@[simp] theorem Encoder.setSinkNew_curNode (v0 : Bool) (e : Encoder) : (e.setSinkNew v0).curNode = e.curNode := rfl
@[simp] theorem Encoder.setSinkNew_dictSize (v0 : Bool) (e : Encoder) : (e.setSinkNew v0).dictSize = e.dictSize := rfl
@[simp] theorem Encoder.setSinkNew_wHave (v0 : Bool) (e : Encoder) : (e.setSinkNew v0).wHave = e.wHave := rfl
@[simp] theorem Encoder.setSinkNew_wNib (v0 : Bool) (e : Encoder) : (e.setSinkNew v0).wNib = e.wNib := rfl
@[simp] theorem Encoder.setSinkNew_trie (v0 : Bool) (e : Encoder) : (e.setSinkNew v0).trie = e.trie := rfl
@[simp] theorem Encoder.setSinkNew_source (v0 : Bool) (e : Encoder) : (e.setSinkNew v0).source = e.source := rfl
@[simp] theorem Encoder.setSinkNew_sink (v0 : Bool) (e : Encoder) : (e.setSinkNew v0).sink = e.sink := rfl
@[simp] theorem Encoder.setSinkNew_sinkNew (v0 : Bool) (e : Encoder) : (e.setSinkNew v0).sinkNew = v0 := rfl

@[simp] theorem Decoder.setPhase_phase (v0 : Phase) (d : Decoder) : (d.setPhase v0).phase = v0 := rfl
@[simp] theorem Decoder.setPhase_faultCause (v0 : Phase) (d : Decoder) : (d.setPhase v0).faultCause = d.faultCause := rfl
@[simp] theorem Decoder.setPhase_faultCode (v0 : Phase) (d : Decoder) : (d.setPhase v0).faultCode = d.faultCode := rfl
@[simp] theorem Decoder.setPhase_faultDictSize (v0 : Phase) (d : Decoder) : (d.setPhase v0).faultDictSize = d.faultDictSize := rfl
@[simp] theorem Decoder.setPhase_prevCode (v0 : Phase) (d : Decoder) : (d.setPhase v0).prevCode = d.prevCode := rfl
@[simp] theorem Decoder.setPhase_dictSize (v0 : Phase) (d : Decoder) : (d.setPhase v0).dictSize = d.dictSize := rfl
@[simp] theorem Decoder.setPhase_rHave (v0 : Phase) (d : Decoder) : (d.setPhase v0).rHave = d.rHave := rfl
@[simp] theorem Decoder.setPhase_rNib (v0 : Phase) (d : Decoder) : (d.setPhase v0).rNib = d.rNib := rfl
@[simp] theorem Decoder.setPhase_aPtr (v0 : Phase) (d : Decoder) : (d.setPhase v0).aPtr = d.aPtr := rfl
@[simp] theorem Decoder.setPhase_aMark (v0 : Phase) (d : Decoder) : (d.setPhase v0).aMark = d.aMark := rfl
@[simp] theorem Decoder.setPhase_entries (v0 : Phase) (d : Decoder) : (d.setPhase v0).entries = d.entries := rfl
@[simp] theorem Decoder.setPhase_arena (v0 : Phase) (d : Decoder) : (d.setPhase v0).arena = d.arena := rfl
@[simp] theorem Decoder.setPhase_source (v0 : Phase) (d : Decoder) : (d.setPhase v0).source = d.source := rfl
@[simp] theorem Decoder.setPhase_sink (v0 : Phase) (d : Decoder) : (d.setPhase v0).sink = d.sink := rfl

@[simp] theorem Decoder.setRecord_phase (v0 : Cause) (v1 : Code) (v2 : DictSize) (d : Decoder) : (d.setRecord v0 v1 v2).phase = d.phase := rfl
@[simp] theorem Decoder.setRecord_faultCause (v0 : Cause) (v1 : Code) (v2 : DictSize) (d : Decoder) : (d.setRecord v0 v1 v2).faultCause = v0 := rfl
@[simp] theorem Decoder.setRecord_faultCode (v0 : Cause) (v1 : Code) (v2 : DictSize) (d : Decoder) : (d.setRecord v0 v1 v2).faultCode = v1 := rfl
@[simp] theorem Decoder.setRecord_faultDictSize (v0 : Cause) (v1 : Code) (v2 : DictSize) (d : Decoder) : (d.setRecord v0 v1 v2).faultDictSize = v2 := rfl
@[simp] theorem Decoder.setRecord_prevCode (v0 : Cause) (v1 : Code) (v2 : DictSize) (d : Decoder) : (d.setRecord v0 v1 v2).prevCode = d.prevCode := rfl
@[simp] theorem Decoder.setRecord_dictSize (v0 : Cause) (v1 : Code) (v2 : DictSize) (d : Decoder) : (d.setRecord v0 v1 v2).dictSize = d.dictSize := rfl
@[simp] theorem Decoder.setRecord_rHave (v0 : Cause) (v1 : Code) (v2 : DictSize) (d : Decoder) : (d.setRecord v0 v1 v2).rHave = d.rHave := rfl
@[simp] theorem Decoder.setRecord_rNib (v0 : Cause) (v1 : Code) (v2 : DictSize) (d : Decoder) : (d.setRecord v0 v1 v2).rNib = d.rNib := rfl
@[simp] theorem Decoder.setRecord_aPtr (v0 : Cause) (v1 : Code) (v2 : DictSize) (d : Decoder) : (d.setRecord v0 v1 v2).aPtr = d.aPtr := rfl
@[simp] theorem Decoder.setRecord_aMark (v0 : Cause) (v1 : Code) (v2 : DictSize) (d : Decoder) : (d.setRecord v0 v1 v2).aMark = d.aMark := rfl
@[simp] theorem Decoder.setRecord_entries (v0 : Cause) (v1 : Code) (v2 : DictSize) (d : Decoder) : (d.setRecord v0 v1 v2).entries = d.entries := rfl
@[simp] theorem Decoder.setRecord_arena (v0 : Cause) (v1 : Code) (v2 : DictSize) (d : Decoder) : (d.setRecord v0 v1 v2).arena = d.arena := rfl
@[simp] theorem Decoder.setRecord_source (v0 : Cause) (v1 : Code) (v2 : DictSize) (d : Decoder) : (d.setRecord v0 v1 v2).source = d.source := rfl
@[simp] theorem Decoder.setRecord_sink (v0 : Cause) (v1 : Code) (v2 : DictSize) (d : Decoder) : (d.setRecord v0 v1 v2).sink = d.sink := rfl

@[simp] theorem Decoder.setPrevCode_phase (v0 : Code) (d : Decoder) : (d.setPrevCode v0).phase = d.phase := rfl
@[simp] theorem Decoder.setPrevCode_faultCause (v0 : Code) (d : Decoder) : (d.setPrevCode v0).faultCause = d.faultCause := rfl
@[simp] theorem Decoder.setPrevCode_faultCode (v0 : Code) (d : Decoder) : (d.setPrevCode v0).faultCode = d.faultCode := rfl
@[simp] theorem Decoder.setPrevCode_faultDictSize (v0 : Code) (d : Decoder) : (d.setPrevCode v0).faultDictSize = d.faultDictSize := rfl
@[simp] theorem Decoder.setPrevCode_prevCode (v0 : Code) (d : Decoder) : (d.setPrevCode v0).prevCode = v0 := rfl
@[simp] theorem Decoder.setPrevCode_dictSize (v0 : Code) (d : Decoder) : (d.setPrevCode v0).dictSize = d.dictSize := rfl
@[simp] theorem Decoder.setPrevCode_rHave (v0 : Code) (d : Decoder) : (d.setPrevCode v0).rHave = d.rHave := rfl
@[simp] theorem Decoder.setPrevCode_rNib (v0 : Code) (d : Decoder) : (d.setPrevCode v0).rNib = d.rNib := rfl
@[simp] theorem Decoder.setPrevCode_aPtr (v0 : Code) (d : Decoder) : (d.setPrevCode v0).aPtr = d.aPtr := rfl
@[simp] theorem Decoder.setPrevCode_aMark (v0 : Code) (d : Decoder) : (d.setPrevCode v0).aMark = d.aMark := rfl
@[simp] theorem Decoder.setPrevCode_entries (v0 : Code) (d : Decoder) : (d.setPrevCode v0).entries = d.entries := rfl
@[simp] theorem Decoder.setPrevCode_arena (v0 : Code) (d : Decoder) : (d.setPrevCode v0).arena = d.arena := rfl
@[simp] theorem Decoder.setPrevCode_source (v0 : Code) (d : Decoder) : (d.setPrevCode v0).source = d.source := rfl
@[simp] theorem Decoder.setPrevCode_sink (v0 : Code) (d : Decoder) : (d.setPrevCode v0).sink = d.sink := rfl

@[simp] theorem Decoder.setDictSize_phase (v0 : DictSize) (d : Decoder) : (d.setDictSize v0).phase = d.phase := rfl
@[simp] theorem Decoder.setDictSize_faultCause (v0 : DictSize) (d : Decoder) : (d.setDictSize v0).faultCause = d.faultCause := rfl
@[simp] theorem Decoder.setDictSize_faultCode (v0 : DictSize) (d : Decoder) : (d.setDictSize v0).faultCode = d.faultCode := rfl
@[simp] theorem Decoder.setDictSize_faultDictSize (v0 : DictSize) (d : Decoder) : (d.setDictSize v0).faultDictSize = d.faultDictSize := rfl
@[simp] theorem Decoder.setDictSize_prevCode (v0 : DictSize) (d : Decoder) : (d.setDictSize v0).prevCode = d.prevCode := rfl
@[simp] theorem Decoder.setDictSize_dictSize (v0 : DictSize) (d : Decoder) : (d.setDictSize v0).dictSize = v0 := rfl
@[simp] theorem Decoder.setDictSize_rHave (v0 : DictSize) (d : Decoder) : (d.setDictSize v0).rHave = d.rHave := rfl
@[simp] theorem Decoder.setDictSize_rNib (v0 : DictSize) (d : Decoder) : (d.setDictSize v0).rNib = d.rNib := rfl
@[simp] theorem Decoder.setDictSize_aPtr (v0 : DictSize) (d : Decoder) : (d.setDictSize v0).aPtr = d.aPtr := rfl
@[simp] theorem Decoder.setDictSize_aMark (v0 : DictSize) (d : Decoder) : (d.setDictSize v0).aMark = d.aMark := rfl
@[simp] theorem Decoder.setDictSize_entries (v0 : DictSize) (d : Decoder) : (d.setDictSize v0).entries = d.entries := rfl
@[simp] theorem Decoder.setDictSize_arena (v0 : DictSize) (d : Decoder) : (d.setDictSize v0).arena = d.arena := rfl
@[simp] theorem Decoder.setDictSize_source (v0 : DictSize) (d : Decoder) : (d.setDictSize v0).source = d.source := rfl
@[simp] theorem Decoder.setDictSize_sink (v0 : DictSize) (d : Decoder) : (d.setDictSize v0).sink = d.sink := rfl

@[simp] theorem Decoder.setResidual_phase (v0 : Bool) (v1 : Nibble) (d : Decoder) : (d.setResidual v0 v1).phase = d.phase := rfl
@[simp] theorem Decoder.setResidual_faultCause (v0 : Bool) (v1 : Nibble) (d : Decoder) : (d.setResidual v0 v1).faultCause = d.faultCause := rfl
@[simp] theorem Decoder.setResidual_faultCode (v0 : Bool) (v1 : Nibble) (d : Decoder) : (d.setResidual v0 v1).faultCode = d.faultCode := rfl
@[simp] theorem Decoder.setResidual_faultDictSize (v0 : Bool) (v1 : Nibble) (d : Decoder) : (d.setResidual v0 v1).faultDictSize = d.faultDictSize := rfl
@[simp] theorem Decoder.setResidual_prevCode (v0 : Bool) (v1 : Nibble) (d : Decoder) : (d.setResidual v0 v1).prevCode = d.prevCode := rfl
@[simp] theorem Decoder.setResidual_dictSize (v0 : Bool) (v1 : Nibble) (d : Decoder) : (d.setResidual v0 v1).dictSize = d.dictSize := rfl
@[simp] theorem Decoder.setResidual_rHave (v0 : Bool) (v1 : Nibble) (d : Decoder) : (d.setResidual v0 v1).rHave = v0 := rfl
@[simp] theorem Decoder.setResidual_rNib (v0 : Bool) (v1 : Nibble) (d : Decoder) : (d.setResidual v0 v1).rNib = v1 := rfl
@[simp] theorem Decoder.setResidual_aPtr (v0 : Bool) (v1 : Nibble) (d : Decoder) : (d.setResidual v0 v1).aPtr = d.aPtr := rfl
@[simp] theorem Decoder.setResidual_aMark (v0 : Bool) (v1 : Nibble) (d : Decoder) : (d.setResidual v0 v1).aMark = d.aMark := rfl
@[simp] theorem Decoder.setResidual_entries (v0 : Bool) (v1 : Nibble) (d : Decoder) : (d.setResidual v0 v1).entries = d.entries := rfl
@[simp] theorem Decoder.setResidual_arena (v0 : Bool) (v1 : Nibble) (d : Decoder) : (d.setResidual v0 v1).arena = d.arena := rfl
@[simp] theorem Decoder.setResidual_source (v0 : Bool) (v1 : Nibble) (d : Decoder) : (d.setResidual v0 v1).source = d.source := rfl
@[simp] theorem Decoder.setResidual_sink (v0 : Bool) (v1 : Nibble) (d : Decoder) : (d.setResidual v0 v1).sink = d.sink := rfl

@[simp] theorem Decoder.setPtr_phase (v0 : Nat) (d : Decoder) : (d.setPtr v0).phase = d.phase := rfl
@[simp] theorem Decoder.setPtr_faultCause (v0 : Nat) (d : Decoder) : (d.setPtr v0).faultCause = d.faultCause := rfl
@[simp] theorem Decoder.setPtr_faultCode (v0 : Nat) (d : Decoder) : (d.setPtr v0).faultCode = d.faultCode := rfl
@[simp] theorem Decoder.setPtr_faultDictSize (v0 : Nat) (d : Decoder) : (d.setPtr v0).faultDictSize = d.faultDictSize := rfl
@[simp] theorem Decoder.setPtr_prevCode (v0 : Nat) (d : Decoder) : (d.setPtr v0).prevCode = d.prevCode := rfl
@[simp] theorem Decoder.setPtr_dictSize (v0 : Nat) (d : Decoder) : (d.setPtr v0).dictSize = d.dictSize := rfl
@[simp] theorem Decoder.setPtr_rHave (v0 : Nat) (d : Decoder) : (d.setPtr v0).rHave = d.rHave := rfl
@[simp] theorem Decoder.setPtr_rNib (v0 : Nat) (d : Decoder) : (d.setPtr v0).rNib = d.rNib := rfl
@[simp] theorem Decoder.setPtr_aPtr (v0 : Nat) (d : Decoder) : (d.setPtr v0).aPtr = v0 := rfl
@[simp] theorem Decoder.setPtr_aMark (v0 : Nat) (d : Decoder) : (d.setPtr v0).aMark = d.aMark := rfl
@[simp] theorem Decoder.setPtr_entries (v0 : Nat) (d : Decoder) : (d.setPtr v0).entries = d.entries := rfl
@[simp] theorem Decoder.setPtr_arena (v0 : Nat) (d : Decoder) : (d.setPtr v0).arena = d.arena := rfl
@[simp] theorem Decoder.setPtr_source (v0 : Nat) (d : Decoder) : (d.setPtr v0).source = d.source := rfl
@[simp] theorem Decoder.setPtr_sink (v0 : Nat) (d : Decoder) : (d.setPtr v0).sink = d.sink := rfl

@[simp] theorem Decoder.setMark_phase (v0 : Nat) (d : Decoder) : (d.setMark v0).phase = d.phase := rfl
@[simp] theorem Decoder.setMark_faultCause (v0 : Nat) (d : Decoder) : (d.setMark v0).faultCause = d.faultCause := rfl
@[simp] theorem Decoder.setMark_faultCode (v0 : Nat) (d : Decoder) : (d.setMark v0).faultCode = d.faultCode := rfl
@[simp] theorem Decoder.setMark_faultDictSize (v0 : Nat) (d : Decoder) : (d.setMark v0).faultDictSize = d.faultDictSize := rfl
@[simp] theorem Decoder.setMark_prevCode (v0 : Nat) (d : Decoder) : (d.setMark v0).prevCode = d.prevCode := rfl
@[simp] theorem Decoder.setMark_dictSize (v0 : Nat) (d : Decoder) : (d.setMark v0).dictSize = d.dictSize := rfl
@[simp] theorem Decoder.setMark_rHave (v0 : Nat) (d : Decoder) : (d.setMark v0).rHave = d.rHave := rfl
@[simp] theorem Decoder.setMark_rNib (v0 : Nat) (d : Decoder) : (d.setMark v0).rNib = d.rNib := rfl
@[simp] theorem Decoder.setMark_aPtr (v0 : Nat) (d : Decoder) : (d.setMark v0).aPtr = d.aPtr := rfl
@[simp] theorem Decoder.setMark_aMark (v0 : Nat) (d : Decoder) : (d.setMark v0).aMark = v0 := rfl
@[simp] theorem Decoder.setMark_entries (v0 : Nat) (d : Decoder) : (d.setMark v0).entries = d.entries := rfl
@[simp] theorem Decoder.setMark_arena (v0 : Nat) (d : Decoder) : (d.setMark v0).arena = d.arena := rfl
@[simp] theorem Decoder.setMark_source (v0 : Nat) (d : Decoder) : (d.setMark v0).source = d.source := rfl
@[simp] theorem Decoder.setMark_sink (v0 : Nat) (d : Decoder) : (d.setMark v0).sink = d.sink := rfl

@[simp] theorem Decoder.setEntries_phase (v0 : List (Nat × Entry)) (d : Decoder) : (d.setEntries v0).phase = d.phase := rfl
@[simp] theorem Decoder.setEntries_faultCause (v0 : List (Nat × Entry)) (d : Decoder) : (d.setEntries v0).faultCause = d.faultCause := rfl
@[simp] theorem Decoder.setEntries_faultCode (v0 : List (Nat × Entry)) (d : Decoder) : (d.setEntries v0).faultCode = d.faultCode := rfl
@[simp] theorem Decoder.setEntries_faultDictSize (v0 : List (Nat × Entry)) (d : Decoder) : (d.setEntries v0).faultDictSize = d.faultDictSize := rfl
@[simp] theorem Decoder.setEntries_prevCode (v0 : List (Nat × Entry)) (d : Decoder) : (d.setEntries v0).prevCode = d.prevCode := rfl
@[simp] theorem Decoder.setEntries_dictSize (v0 : List (Nat × Entry)) (d : Decoder) : (d.setEntries v0).dictSize = d.dictSize := rfl
@[simp] theorem Decoder.setEntries_rHave (v0 : List (Nat × Entry)) (d : Decoder) : (d.setEntries v0).rHave = d.rHave := rfl
@[simp] theorem Decoder.setEntries_rNib (v0 : List (Nat × Entry)) (d : Decoder) : (d.setEntries v0).rNib = d.rNib := rfl
@[simp] theorem Decoder.setEntries_aPtr (v0 : List (Nat × Entry)) (d : Decoder) : (d.setEntries v0).aPtr = d.aPtr := rfl
@[simp] theorem Decoder.setEntries_aMark (v0 : List (Nat × Entry)) (d : Decoder) : (d.setEntries v0).aMark = d.aMark := rfl
@[simp] theorem Decoder.setEntries_entries (v0 : List (Nat × Entry)) (d : Decoder) : (d.setEntries v0).entries = v0 := rfl
@[simp] theorem Decoder.setEntries_arena (v0 : List (Nat × Entry)) (d : Decoder) : (d.setEntries v0).arena = d.arena := rfl
@[simp] theorem Decoder.setEntries_source (v0 : List (Nat × Entry)) (d : Decoder) : (d.setEntries v0).source = d.source := rfl
@[simp] theorem Decoder.setEntries_sink (v0 : List (Nat × Entry)) (d : Decoder) : (d.setEntries v0).sink = d.sink := rfl

@[simp] theorem Decoder.setArena_phase (v0 : List Host.Cell) (d : Decoder) : (d.setArena v0).phase = d.phase := rfl
@[simp] theorem Decoder.setArena_faultCause (v0 : List Host.Cell) (d : Decoder) : (d.setArena v0).faultCause = d.faultCause := rfl
@[simp] theorem Decoder.setArena_faultCode (v0 : List Host.Cell) (d : Decoder) : (d.setArena v0).faultCode = d.faultCode := rfl
@[simp] theorem Decoder.setArena_faultDictSize (v0 : List Host.Cell) (d : Decoder) : (d.setArena v0).faultDictSize = d.faultDictSize := rfl
@[simp] theorem Decoder.setArena_prevCode (v0 : List Host.Cell) (d : Decoder) : (d.setArena v0).prevCode = d.prevCode := rfl
@[simp] theorem Decoder.setArena_dictSize (v0 : List Host.Cell) (d : Decoder) : (d.setArena v0).dictSize = d.dictSize := rfl
@[simp] theorem Decoder.setArena_rHave (v0 : List Host.Cell) (d : Decoder) : (d.setArena v0).rHave = d.rHave := rfl
@[simp] theorem Decoder.setArena_rNib (v0 : List Host.Cell) (d : Decoder) : (d.setArena v0).rNib = d.rNib := rfl
@[simp] theorem Decoder.setArena_aPtr (v0 : List Host.Cell) (d : Decoder) : (d.setArena v0).aPtr = d.aPtr := rfl
@[simp] theorem Decoder.setArena_aMark (v0 : List Host.Cell) (d : Decoder) : (d.setArena v0).aMark = d.aMark := rfl
@[simp] theorem Decoder.setArena_entries (v0 : List Host.Cell) (d : Decoder) : (d.setArena v0).entries = d.entries := rfl
@[simp] theorem Decoder.setArena_arena (v0 : List Host.Cell) (d : Decoder) : (d.setArena v0).arena = v0 := rfl
@[simp] theorem Decoder.setArena_source (v0 : List Host.Cell) (d : Decoder) : (d.setArena v0).source = d.source := rfl
@[simp] theorem Decoder.setArena_sink (v0 : List Host.Cell) (d : Decoder) : (d.setArena v0).sink = d.sink := rfl

@[simp] theorem Decoder.setSource_phase (v0 : DecSource) (d : Decoder) : (d.setSource v0).phase = d.phase := rfl
@[simp] theorem Decoder.setSource_faultCause (v0 : DecSource) (d : Decoder) : (d.setSource v0).faultCause = d.faultCause := rfl
@[simp] theorem Decoder.setSource_faultCode (v0 : DecSource) (d : Decoder) : (d.setSource v0).faultCode = d.faultCode := rfl
@[simp] theorem Decoder.setSource_faultDictSize (v0 : DecSource) (d : Decoder) : (d.setSource v0).faultDictSize = d.faultDictSize := rfl
@[simp] theorem Decoder.setSource_prevCode (v0 : DecSource) (d : Decoder) : (d.setSource v0).prevCode = d.prevCode := rfl
@[simp] theorem Decoder.setSource_dictSize (v0 : DecSource) (d : Decoder) : (d.setSource v0).dictSize = d.dictSize := rfl
@[simp] theorem Decoder.setSource_rHave (v0 : DecSource) (d : Decoder) : (d.setSource v0).rHave = d.rHave := rfl
@[simp] theorem Decoder.setSource_rNib (v0 : DecSource) (d : Decoder) : (d.setSource v0).rNib = d.rNib := rfl
@[simp] theorem Decoder.setSource_aPtr (v0 : DecSource) (d : Decoder) : (d.setSource v0).aPtr = d.aPtr := rfl
@[simp] theorem Decoder.setSource_aMark (v0 : DecSource) (d : Decoder) : (d.setSource v0).aMark = d.aMark := rfl
@[simp] theorem Decoder.setSource_entries (v0 : DecSource) (d : Decoder) : (d.setSource v0).entries = d.entries := rfl
@[simp] theorem Decoder.setSource_arena (v0 : DecSource) (d : Decoder) : (d.setSource v0).arena = d.arena := rfl
@[simp] theorem Decoder.setSource_source (v0 : DecSource) (d : Decoder) : (d.setSource v0).source = v0 := rfl
@[simp] theorem Decoder.setSource_sink (v0 : DecSource) (d : Decoder) : (d.setSource v0).sink = d.sink := rfl

@[simp] theorem Decoder.setSink_phase (v0 : Sink) (d : Decoder) : (d.setSink v0).phase = d.phase := rfl
@[simp] theorem Decoder.setSink_faultCause (v0 : Sink) (d : Decoder) : (d.setSink v0).faultCause = d.faultCause := rfl
@[simp] theorem Decoder.setSink_faultCode (v0 : Sink) (d : Decoder) : (d.setSink v0).faultCode = d.faultCode := rfl
@[simp] theorem Decoder.setSink_faultDictSize (v0 : Sink) (d : Decoder) : (d.setSink v0).faultDictSize = d.faultDictSize := rfl
@[simp] theorem Decoder.setSink_prevCode (v0 : Sink) (d : Decoder) : (d.setSink v0).prevCode = d.prevCode := rfl
@[simp] theorem Decoder.setSink_dictSize (v0 : Sink) (d : Decoder) : (d.setSink v0).dictSize = d.dictSize := rfl
@[simp] theorem Decoder.setSink_rHave (v0 : Sink) (d : Decoder) : (d.setSink v0).rHave = d.rHave := rfl
@[simp] theorem Decoder.setSink_rNib (v0 : Sink) (d : Decoder) : (d.setSink v0).rNib = d.rNib := rfl
@[simp] theorem Decoder.setSink_aPtr (v0 : Sink) (d : Decoder) : (d.setSink v0).aPtr = d.aPtr := rfl
@[simp] theorem Decoder.setSink_aMark (v0 : Sink) (d : Decoder) : (d.setSink v0).aMark = d.aMark := rfl
@[simp] theorem Decoder.setSink_entries (v0 : Sink) (d : Decoder) : (d.setSink v0).entries = d.entries := rfl
@[simp] theorem Decoder.setSink_arena (v0 : Sink) (d : Decoder) : (d.setSink v0).arena = d.arena := rfl
@[simp] theorem Decoder.setSink_source (v0 : Sink) (d : Decoder) : (d.setSink v0).source = d.source := rfl
@[simp] theorem Decoder.setSink_sink (v0 : Sink) (d : Decoder) : (d.setSink v0).sink = v0 := rfl

@[simp] theorem State.setEnc_config (v0 : Encoder) (s : State) : (s.setEnc v0).config = s.config := rfl
@[simp] theorem State.setEnc_enc (v0 : Encoder) (s : State) : (s.setEnc v0).enc = v0 := rfl
@[simp] theorem State.setEnc_dec (v0 : Encoder) (s : State) : (s.setEnc v0).dec = s.dec := rfl
@[simp] theorem State.setEnc_agenda (v0 : Encoder) (s : State) : (s.setEnc v0).agenda = s.agenda := rfl
@[simp] theorem State.setEnc_port (v0 : Encoder) (s : State) : (s.setEnc v0).port = s.port := rfl
@[simp] theorem State.setEnc_answer (v0 : Encoder) (s : State) : (s.setEnc v0).answer = s.answer := rfl
@[simp] theorem State.setEnc_draws (v0 : Encoder) (s : State) : (s.setEnc v0).draws = s.draws := rfl

@[simp] theorem State.setDec_config (v0 : Decoder) (s : State) : (s.setDec v0).config = s.config := rfl
@[simp] theorem State.setDec_enc (v0 : Decoder) (s : State) : (s.setDec v0).enc = s.enc := rfl
@[simp] theorem State.setDec_dec (v0 : Decoder) (s : State) : (s.setDec v0).dec = v0 := rfl
@[simp] theorem State.setDec_agenda (v0 : Decoder) (s : State) : (s.setDec v0).agenda = s.agenda := rfl
@[simp] theorem State.setDec_port (v0 : Decoder) (s : State) : (s.setDec v0).port = s.port := rfl
@[simp] theorem State.setDec_answer (v0 : Decoder) (s : State) : (s.setDec v0).answer = s.answer := rfl
@[simp] theorem State.setDec_draws (v0 : Decoder) (s : State) : (s.setDec v0).draws = s.draws := rfl

@[simp] theorem State.setAgenda_config (v0 : List Turn) (s : State) : (s.setAgenda v0).config = s.config := rfl
@[simp] theorem State.setAgenda_enc (v0 : List Turn) (s : State) : (s.setAgenda v0).enc = s.enc := rfl
@[simp] theorem State.setAgenda_dec (v0 : List Turn) (s : State) : (s.setAgenda v0).dec = s.dec := rfl
@[simp] theorem State.setAgenda_agenda (v0 : List Turn) (s : State) : (s.setAgenda v0).agenda = v0 := rfl
@[simp] theorem State.setAgenda_port (v0 : List Turn) (s : State) : (s.setAgenda v0).port = s.port := rfl
@[simp] theorem State.setAgenda_answer (v0 : List Turn) (s : State) : (s.setAgenda v0).answer = s.answer := rfl
@[simp] theorem State.setAgenda_draws (v0 : List Turn) (s : State) : (s.setAgenda v0).draws = s.draws := rfl

@[simp] theorem State.setPort_config (v0 : Option Instr) (s : State) : (s.setPort v0).config = s.config := rfl
@[simp] theorem State.setPort_enc (v0 : Option Instr) (s : State) : (s.setPort v0).enc = s.enc := rfl
@[simp] theorem State.setPort_dec (v0 : Option Instr) (s : State) : (s.setPort v0).dec = s.dec := rfl
@[simp] theorem State.setPort_agenda (v0 : Option Instr) (s : State) : (s.setPort v0).agenda = s.agenda := rfl
@[simp] theorem State.setPort_port (v0 : Option Instr) (s : State) : (s.setPort v0).port = v0 := rfl
@[simp] theorem State.setPort_answer (v0 : Option Instr) (s : State) : (s.setPort v0).answer = s.answer := rfl
@[simp] theorem State.setPort_draws (v0 : Option Instr) (s : State) : (s.setPort v0).draws = s.draws := rfl

@[simp] theorem State.setAnswer_config (v0 : Answer) (s : State) : (s.setAnswer v0).config = s.config := rfl
@[simp] theorem State.setAnswer_enc (v0 : Answer) (s : State) : (s.setAnswer v0).enc = s.enc := rfl
@[simp] theorem State.setAnswer_dec (v0 : Answer) (s : State) : (s.setAnswer v0).dec = s.dec := rfl
@[simp] theorem State.setAnswer_agenda (v0 : Answer) (s : State) : (s.setAnswer v0).agenda = s.agenda := rfl
@[simp] theorem State.setAnswer_port (v0 : Answer) (s : State) : (s.setAnswer v0).port = s.port := rfl
@[simp] theorem State.setAnswer_answer (v0 : Answer) (s : State) : (s.setAnswer v0).answer = v0 := rfl
@[simp] theorem State.setAnswer_draws (v0 : Answer) (s : State) : (s.setAnswer v0).draws = s.draws := rfl

@[simp] theorem State.setDraws_config (v0 : Nat) (s : State) : (s.setDraws v0).config = s.config := rfl
@[simp] theorem State.setDraws_enc (v0 : Nat) (s : State) : (s.setDraws v0).enc = s.enc := rfl
@[simp] theorem State.setDraws_dec (v0 : Nat) (s : State) : (s.setDraws v0).dec = s.dec := rfl
@[simp] theorem State.setDraws_agenda (v0 : Nat) (s : State) : (s.setDraws v0).agenda = s.agenda := rfl
@[simp] theorem State.setDraws_port (v0 : Nat) (s : State) : (s.setDraws v0).port = s.port := rfl
@[simp] theorem State.setDraws_answer (v0 : Nat) (s : State) : (s.setDraws v0).answer = s.answer := rfl
@[simp] theorem State.setDraws_draws (v0 : Nat) (s : State) : (s.setDraws v0).draws = v0 := rfl


/-! ## A register written twice holds the later value -/

@[simp] theorem Encoder.setPhase_setPhase (v0 w0 : Phase) (e : Encoder) : (e.setPhase v0).setPhase w0 = e.setPhase w0 := rfl
@[simp] theorem Encoder.setCause_setCause (v0 w0 : Cause) (e : Encoder) : (e.setCause v0).setCause w0 = e.setCause w0 := rfl
@[simp] theorem Encoder.setCurNode_setCurNode (v0 w0 : Code) (e : Encoder) : (e.setCurNode v0).setCurNode w0 = e.setCurNode w0 := rfl
@[simp] theorem Encoder.setDictSize_setDictSize (v0 w0 : DictSize) (e : Encoder) : (e.setDictSize v0).setDictSize w0 = e.setDictSize w0 := rfl
@[simp] theorem Encoder.setResidual_setResidual (v0 w0 : Bool) (v1 w1 : Nibble) (e : Encoder) : (e.setResidual v0 v1).setResidual w0 w1 = e.setResidual w0 w1 := rfl
@[simp] theorem Encoder.setTrie_setTrie (v0 w0 : List (Nat × Code)) (e : Encoder) : (e.setTrie v0).setTrie w0 = e.setTrie w0 := rfl
@[simp] theorem Encoder.setSource_setSource (v0 w0 : List Byte) (e : Encoder) : (e.setSource v0).setSource w0 = e.setSource w0 := rfl
@[simp] theorem Encoder.setSink_setSink (v0 w0 : Sink) (e : Encoder) : (e.setSink v0).setSink w0 = e.setSink w0 := rfl
@[simp] theorem Encoder.setSinkNew_setSinkNew (v0 w0 : Bool) (e : Encoder) : (e.setSinkNew v0).setSinkNew w0 = e.setSinkNew w0 := rfl
@[simp] theorem Decoder.setPhase_setPhase (v0 w0 : Phase) (d : Decoder) : (d.setPhase v0).setPhase w0 = d.setPhase w0 := rfl
@[simp] theorem Decoder.setRecord_setRecord (v0 w0 : Cause) (v1 w1 : Code) (v2 w2 : DictSize) (d : Decoder) : (d.setRecord v0 v1 v2).setRecord w0 w1 w2 = d.setRecord w0 w1 w2 := rfl
@[simp] theorem Decoder.setPrevCode_setPrevCode (v0 w0 : Code) (d : Decoder) : (d.setPrevCode v0).setPrevCode w0 = d.setPrevCode w0 := rfl
@[simp] theorem Decoder.setDictSize_setDictSize (v0 w0 : DictSize) (d : Decoder) : (d.setDictSize v0).setDictSize w0 = d.setDictSize w0 := rfl
@[simp] theorem Decoder.setResidual_setResidual (v0 w0 : Bool) (v1 w1 : Nibble) (d : Decoder) : (d.setResidual v0 v1).setResidual w0 w1 = d.setResidual w0 w1 := rfl
@[simp] theorem Decoder.setPtr_setPtr (v0 w0 : Nat) (d : Decoder) : (d.setPtr v0).setPtr w0 = d.setPtr w0 := rfl
@[simp] theorem Decoder.setMark_setMark (v0 w0 : Nat) (d : Decoder) : (d.setMark v0).setMark w0 = d.setMark w0 := rfl
@[simp] theorem Decoder.setEntries_setEntries (v0 w0 : List (Nat × Entry)) (d : Decoder) : (d.setEntries v0).setEntries w0 = d.setEntries w0 := rfl
@[simp] theorem Decoder.setArena_setArena (v0 w0 : List Host.Cell) (d : Decoder) : (d.setArena v0).setArena w0 = d.setArena w0 := rfl
@[simp] theorem Decoder.setSource_setSource (v0 w0 : DecSource) (d : Decoder) : (d.setSource v0).setSource w0 = d.setSource w0 := rfl
@[simp] theorem Decoder.setSink_setSink (v0 w0 : Sink) (d : Decoder) : (d.setSink v0).setSink w0 = d.setSink w0 := rfl
@[simp] theorem State.setEnc_setEnc (v0 w0 : Encoder) (s : State) : (s.setEnc v0).setEnc w0 = s.setEnc w0 := rfl
@[simp] theorem State.setDec_setDec (v0 w0 : Decoder) (s : State) : (s.setDec v0).setDec w0 = s.setDec w0 := rfl
@[simp] theorem State.setAgenda_setAgenda (v0 w0 : List Turn) (s : State) : (s.setAgenda v0).setAgenda w0 = s.setAgenda w0 := rfl
@[simp] theorem State.setPort_setPort (v0 w0 : Option Instr) (s : State) : (s.setPort v0).setPort w0 = s.setPort w0 := rfl
@[simp] theorem State.setAnswer_setAnswer (v0 w0 : Answer) (s : State) : (s.setAnswer v0).setAnswer w0 = s.setAnswer w0 := rfl
@[simp] theorem State.setDraws_setDraws (v0 w0 : Nat) (s : State) : (s.setDraws v0).setDraws w0 = s.setDraws w0 := rfl

end Sys2Proof.Machine
end

