-- ==== Sys2Proof/Laws/Ops.lean ====
section
/-! SUPPORT. What each shared operation can do, said once: how it ends, what it changes, and what it gives where its reads and writes succeed. -/

namespace Sys2Proof.Machine

/-! ## Sequencing -/

@[simp] theorem Run.bind_ok {σ α β : Type} (a : α) (s : σ) (k : α → σ → Run σ β) :
    Run.bind (.ok a s) k = k a s := rfl

@[simp] theorem Run.bind_raised {σ α β : Type} (s : σ) (k : α → σ → Run σ β) :
    Run.bind (.raised s) k = .raised s := rfl

@[simp] theorem Run.bind_stop {σ α β : Type} (f : Fault) (k : α → σ → Run σ β) :
    Run.bind (.stop f) k = .stop f := rfl

theorem Run.bind_assoc {σ α β γ : Type} (r : Run σ α) (k : α → σ → Run σ β) (l : β → σ → Run σ γ) :
    (r.bind k).bind l = r.bind fun a s => (k a s).bind l := by
  cases r <;> rfl

@[simp] theorem State.endEnc_ok (s : State) (e : Encoder) : s.endEnc (.ok () e) = .next (s.setEnc e) := rfl

@[simp] theorem State.endEnc_raised (s : State) (e : Encoder) : s.endEnc (.raised e) = .next (s.setEnc e) := rfl

@[simp] theorem State.endDec_ok (s : State) (d : Decoder) : s.endDec (.ok () d) = .next (s.setDec d) := rfl

@[simp] theorem State.endDec_raised (s : State) (d : Decoder) : s.endDec (.raised d) = .next (s.setDec d) := rfl

@[simp] theorem State.endDec_stop (s : State) (f : Fault) : s.endDec (.stop f) = .fault f := rfl

/-- An encoder operation that ends in a next state: the unit, and nothing else. -/
theorem State.endEnc_next {s s' : State} {r : Run Encoder Unit} (h : s.endEnc r = .next s') :
    ∃ e, (r = .ok () e ∨ r = .raised e) ∧ s' = s.setEnc e := by
  cases r with
  | ok a e => exact ⟨e, .inl rfl, by simpa [State.endEnc] using h.symm⟩
  | raised e => exact ⟨e, .inr rfl, by simpa [State.endEnc] using h.symm⟩
  | stop f => simp [State.endEnc] at h

/-- A decoder operation that ends in a next state: the unit, and nothing else. -/
theorem State.endDec_next {s s' : State} {r : Run Decoder Unit} (h : s.endDec r = .next s') :
    ∃ d, (r = .ok () d ∨ r = .raised d) ∧ s' = s.setDec d := by
  cases r with
  | ok a d => exact ⟨d, .inl rfl, by simpa [State.endDec] using h.symm⟩
  | raised d => exact ⟨d, .inr rfl, by simpa [State.endDec] using h.symm⟩
  | stop f => simp [State.endDec] at h

/-- A decoder sub-operation performed alone that ends in a next state: the unit, and the answer where it returned. -/
theorem State.answerDec_next {α : Type} {s s' : State} {f : α → Answer} {r : Run Decoder α}
    (h : s.answerDec f r = .next s') :
    (∃ a d, r = .ok a d ∧ s' = (s.setDec d).setAnswer (f a)) ∨ ∃ d, r = .raised d ∧ s' = s.setDec d := by
  cases r with
  | ok a d => exact .inl ⟨a, d, rfl, by simpa [State.answerDec] using h.symm⟩
  | raised d => exact .inr ⟨d, rfl, by simpa [State.answerDec] using h.symm⟩
  | stop f => simp [State.answerDec] at h

/-! ## Sinks -/

theorem Sink.write_of_accepts {k : Sink} (v : Byte) (h : k.accepts 1 = true) : k.write v = (.ok, k.got [v]) := by
  obtain ⟨acc, ans⟩ := k
  cases ans with
  | nil => rfl
  | cons a rest => cases a <;> simp_all [Sink.accepts, Sink.write, Sink.got]

theorem Sink.write_of_fails {k : Sink} (v : Byte) (h : k.failsAt 0 = true) : k.write v = (.fail, k.failed [v] 0) := by
  obtain ⟨acc, ans⟩ := k
  cases ans with
  | nil => simp [Sink.failsAt] at h
  | cons a rest => cases a <;> simp_all [Sink.failsAt, Sink.accepts, Sink.write, Sink.failed]

/-- Every write is answered one way or the other. -/
theorem Sink.accepts_or_fails (k : Sink) : k.accepts 1 = true ∨ k.failsAt 0 = true := by
  obtain ⟨acc, ans⟩ := k
  cases ans with
  | nil => exact .inl rfl
  | cons a rest => cases a <;> simp [Sink.accepts, Sink.failsAt]

theorem Sink.accepts_succ (k : Sink) (v : Byte) (n : Nat) :
    k.accepts (n + 1) = (k.accepts 1 && (k.got [v]).accepts n) := by
  obtain ⟨acc, ans⟩ := k
  cases ans <;> simp [Sink.accepts, Sink.got]

theorem Sink.failsAt_succ (k : Sink) (v : Byte) (j : Nat) :
    k.failsAt (j + 1) = (k.accepts 1 && (k.got [v]).failsAt j) := by
  obtain ⟨acc, ans⟩ := k
  cases ans <;> simp [Sink.failsAt, Sink.accepts, Sink.got, Bool.and_assoc]

@[simp] theorem Sink.got_nil (k : Sink) : k.got [] = k := by
  simp [Sink.got]

theorem Sink.got_got (k : Sink) (v : Byte) (bs : List Byte) : (k.got [v]).got bs = k.got (v :: bs) := by
  simp [Sink.got, Nat.add_comm]

theorem Sink.failed_got (k : Sink) (v : Byte) (bs : List Byte) (j : Nat) :
    (k.got [v]).failed bs j = k.failed (v :: bs) (j + 1) := by
  simp [Sink.got, Sink.failed, Nat.add_comm]

theorem Sink.failed_zero (k : Sink) (v : Byte) (bs : List Byte) : k.failed [v] 0 = k.failed (v :: bs) 0 := by
  simp [Sink.failed]

/-! ## `emit` in the encoder -/

theorem Encoder.emit_of_accepts {e : Encoder} (v : Byte) (h : e.sink.accepts 1 = true) :
    e.emit v = .ok () (e.setSink (e.sink.got [v])) := by
  simp [Encoder.emit, Sink.write_of_accepts v h]

theorem Encoder.emit_of_fails {e : Encoder} (v : Byte) (h : e.sink.failsAt 0 = true) :
    e.emit v = .raised ((e.setSink (e.sink.failed [v] 0)).raise .sinkFail) := by
  simp [Encoder.emit, Sink.write_of_fails v h]

/-- `emit` changes the sink, and takes SinkFail where the write fails; it does nothing else (R222). -/
theorem Encoder.emit_cases (e : Encoder) (v : Byte) :
    (∃ k, e.emit v = .ok () (e.setSink k)) ∨ ∃ k, e.emit v = .raised ((e.setSink k).raise .sinkFail) := by
  rcases e.sink.accepts_or_fails with h | h
  · exact .inl ⟨_, e.emit_of_accepts v h⟩
  · exact .inr ⟨_, e.emit_of_fails v h⟩

theorem Encoder.emitAll_of_accepts (bs : List Byte) (e : Encoder) (h : e.sink.accepts bs.length = true) :
    Encoder.emitAll bs e = .ok () (e.setSink (e.sink.got bs)) := by
  induction bs generalizing e with
  | nil => simp [Encoder.emitAll, Encoder.setSink]
  | cons v vs ih =>
    rw [List.length_cons, e.sink.accepts_succ v, Bool.and_eq_true] at h
    simp only [Encoder.emitAll, Encoder.emit_of_accepts v h.1, Run.bind_ok]
    rw [ih _ (by simpa using h.2)]
    simp only [Encoder.setSink_sink, Sink.got_got]
    rfl

theorem Encoder.emitAll_of_fails (bs : List Byte) (e : Encoder) (j : Nat) (hj : j < bs.length)
    (h : e.sink.failsAt j = true) :
    Encoder.emitAll bs e = .raised ((e.setSink (e.sink.failed bs j)).raise .sinkFail) := by
  induction bs generalizing e j with
  | nil => simp at hj
  | cons v vs ih =>
    cases j with
    | zero =>
      simp only [Encoder.emitAll, Encoder.emit_of_fails v h, Run.bind_raised]
      rw [Sink.failed_zero _ _ vs]
    | succ j =>
      rw [e.sink.failsAt_succ v, Bool.and_eq_true] at h
      simp only [Encoder.emitAll, Encoder.emit_of_accepts v h.1, Run.bind_ok]
      rw [ih _ j (by simpa using hj) (by simpa using h.2)]
      simp only [Encoder.setSink_sink, Sink.failed_got]
      rfl

/-! ## The writer (R121, R122) -/

/-- `PUTCODE` as its bytes and its residual. -/
theorem Encoder.putCode_eq (c : Code) (e : Encoder) : e.putCode c
    = if e.wHave = false then
        (Encoder.emitAll [codeHigh8 c] e).bind fun _ e1 => .ok () (e1.setResidual true (codeLow4 c))
      else
        (Encoder.emitAll [joinNibbles e.wNib (codeHigh4 c), codeLow8 c] e).bind fun _ e1 =>
          .ok () (e1.setResidual false 0#4) := by
  by_cases h : e.wHave = false
  · simp only [Encoder.putCode, Encoder.emitAll, h, if_true, Run.bind_assoc, Run.bind_ok, Encoder.holdNibble]
  · simp only [Encoder.putCode, Encoder.emitAll, h, Run.bind_assoc, Run.bind_ok, Encoder.dropNibble]
    rfl

/-- `PUTLAST` as its bytes and its residual. -/
theorem Encoder.putLast_eq (c : Code) (e : Encoder) : e.putLast c
    = if e.wHave = false then Encoder.emitAll (tail2Bytes c) e
      else
        (Encoder.emitAll [joinNibbles e.wNib (codeHigh4 c), codeLow8 c] e).bind fun _ e1 =>
          .ok () (e1.setResidual false 0#4) := by
  by_cases h : e.wHave = false
  · simp only [Encoder.putLast, Encoder.emitAll, tail2Bytes, h, if_true]
    congr 1
    funext _ e1
    cases e1.emit (joinNibbles (codeLow4 c) 0#4) <;> rfl
  · simp only [Encoder.putLast, Encoder.emitAll, h, Run.bind_assoc, Run.bind_ok, Encoder.dropNibble]
    rfl

theorem Encoder.emitAll_cases (bs : List Byte) (e : Encoder) :
    (∃ k, Encoder.emitAll bs e = .ok () (e.setSink k))
    ∨ ∃ k, Encoder.emitAll bs e = .raised ((e.setSink k).raise .sinkFail) := by
  induction bs generalizing e with
  | nil => exact .inl ⟨e.sink, rfl⟩
  | cons v vs ih =>
    rcases e.emit_cases v with ⟨k, hk⟩ | ⟨k, hk⟩
    · rcases ih (e.setSink k) with ⟨k', h'⟩ | ⟨k', h'⟩
      · exact .inl ⟨k', by simp only [Encoder.emitAll, hk, Run.bind_ok, h']; rfl⟩
      · exact .inr ⟨k', by simp only [Encoder.emitAll, hk, Run.bind_ok, h']; rfl⟩
    · exact .inr ⟨k, by simp only [Encoder.emitAll, hk, Run.bind_raised]⟩

/-- Everything `PUTCODE` can do: the sink and the residual change, the nibble 0 without its flag; or SinkFail with the residual as before (R121, R255). -/
theorem Encoder.putCode_cases (c : Code) (e : Encoder) :
    (∃ k h n, e.putCode c = .ok () ((e.setSink k).setResidual h n) ∧ h = !e.wHave ∧ (h = false → n = 0#4))
    ∨ ∃ k, e.putCode c = .raised ((e.setSink k).raise .sinkFail) := by
  rw [Encoder.putCode_eq]
  by_cases hw : e.wHave = false
  · rcases Encoder.emitAll_cases [codeHigh8 c] e with ⟨k, hk⟩ | ⟨k, hk⟩
    · exact .inl ⟨k, true, codeLow4 c, by simp [hw, hk], by simp [hw], by simp⟩
    · exact .inr ⟨k, by simp [hw, hk]⟩
  · rcases Encoder.emitAll_cases [joinNibbles e.wNib (codeHigh4 c), codeLow8 c] e with ⟨k, hk⟩ | ⟨k, hk⟩
    · exact .inl ⟨k, false, 0#4, by simp [hw, hk], by simp at hw; simp [hw], fun _ => rfl⟩
    · exact .inr ⟨k, by simp [hw, hk]⟩

/-- Everything `PUTLAST` can do: the sink changes and no leftover is held; or SinkFail with the residual as before (R122, R255). -/
theorem Encoder.putLast_cases (c : Code) (e : Encoder) :
    (∃ k n, e.putLast c = .ok () ((e.setSink k).setResidual false n) ∧ (n = 0#4 ∨ (e.wHave = false ∧ n = e.wNib)))
    ∨ ∃ k, e.putLast c = .raised ((e.setSink k).raise .sinkFail) := by
  rw [Encoder.putLast_eq]
  by_cases hw : e.wHave = false
  · rcases Encoder.emitAll_cases (tail2Bytes c) e with ⟨k, hk⟩ | ⟨k, hk⟩
    · refine .inl ⟨k, e.wNib, ?_, .inr ⟨hw, rfl⟩⟩
      simp only [hw, if_true, hk]
      rw [← hw]
      rfl
    · exact .inr ⟨k, by simp [hw, hk]⟩
  · rcases Encoder.emitAll_cases [joinNibbles e.wNib (codeHigh4 c), codeLow8 c] e with ⟨k, hk⟩ | ⟨k, hk⟩
    · exact .inl ⟨k, 0#4, by simp [hw, hk], .inl rfl⟩
    · exact .inr ⟨k, by simp [hw, hk]⟩

/-! ## The source -/

/-- Everything `SrcRead` can do in the encoder: the source gets shorter by the byte answered, or EOS with nothing changed (R220). -/
theorem Encoder.read_cases (e : Encoder) :
    (∃ v rest, e.source = v :: rest ∧ e.read = (.byte v, e.setSource rest))
    ∨ (e.source = [] ∧ e.read = (.eos, e)) := by
  cases h : e.source with
  | nil => exact .inr ⟨rfl, by simp [Encoder.read, h]⟩
  | cons v rest => exact .inl ⟨v, rest, rfl, by simp [Encoder.read, h]⟩

theorem Encoder.read_snd (e : Encoder) : ∃ src, e.read.2 = e.setSource src := by
  rcases e.read_cases with ⟨v, rest, _, h⟩ | ⟨_, h⟩
  · exact ⟨rest, by rw [h]⟩
  · exact ⟨e.source, by rw [h]; rfl⟩

/-- Everything `SrcRead` can do in the decoder: only the source changes (R220). -/
theorem Decoder.read_some {f : Feed} {d d' : Decoder} {ev : SymbolEvent} (h : d.read f = some (ev, d')) :
    ∃ src, d' = d.setSource src := by
  unfold Decoder.read at h
  split at h
  · simp only [Option.some.injEq, Prod.mk.injEq] at h
    exact ⟨d.source, h.2 ▸ rfl⟩
  · simp only [Option.some.injEq, Prod.mk.injEq] at h
    exact ⟨_, h.2.symm⟩
  · split at h
    · simp only [Option.some.injEq, Prod.mk.injEq] at h
      exact ⟨_, h.2.symm⟩
    · split at h
      · simp only [Option.some.injEq, Prod.mk.injEq] at h
        exact ⟨d.source, h.2 ▸ rfl⟩
      · simp at h
  · simp at h
  · simp only [Option.some.injEq, Prod.mk.injEq] at h
    exact ⟨_, h.2.symm⟩

/-- A released source answers what the pipe answered, whatever the other end shows now. -/
theorem Decoder.read_release (f g : Feed) (d : Decoder) :
    (d.setSource (d.source.release f)).read g
      = (d.read f).map fun a => (a.1, a.2.setSource (a.2.source.release f)) := by
  cases d with
  | mk ph ca co ds pc di rh rn ap am es ar source sink =>
  cases source with
  | stream rest => cases rest <;> rfl
  | stalled rest => cases rest <;> rfl
  | pipe taken =>
    unfold Decoder.read Decoder.setSource DecSource.release
    cases hd : f.bytes.drop taken with
    | nil => cases f.ended <;> simp [hd]
    | cons v rest =>
      have hr : f.bytes.drop (taken + 1) = rest := by rw [← List.drop_drop, hd]; rfl
      cases f.ended <;> simp [hd, hr]

/-- Everything `GETCODE` can do (R123): the source and the reader's residual change, the nibble 0 without its flag; or Truncated, under `report` alone; it never stops. -/
theorem Decoder.getCode_cases (cfg : Config) (f : Feed) (d : Decoder) :
    (∃ r src h n, d.getCode cfg f = .ok r ((d.setSource src).setResidual h n)
      ∧ ((h = d.rHave ∧ n = d.rNib) ∨ h = true ∨ n = 0#4))
    ∨ ∃ src, cfg.truncation = .report ∧ d.getCode cfg f = .raised ((d.setSource src).raiseBare .truncated) := by
  have keep : ∀ src, d.setSource src = (d.setSource src).setResidual d.rHave d.rNib := fun _ => rfl
  unfold Decoder.getCode
  split
  · split
    · exact .inl ⟨none, d.source, d.rHave, d.rNib, rfl, .inl ⟨rfl, rfl⟩⟩
    · next d1 h1 =>
      obtain ⟨src, rfl⟩ := Decoder.read_some h1
      exact .inl ⟨some .eos, src, d.rHave, d.rNib, rfl, .inl ⟨rfl, rfl⟩⟩
    · next a d1 h1 =>
      obtain ⟨src, rfl⟩ := Decoder.read_some h1
      split
      · exact .inl ⟨none, d.source, d.rHave, d.rNib, rfl, .inl ⟨rfl, rfl⟩⟩
      · next d2 h2 =>
        obtain ⟨src2, rfl⟩ := Decoder.read_some h2
        unfold Decoder.cutShort
        split
        · exact .inl ⟨some .eos, src2, d.rHave, d.rNib, rfl, .inl ⟨rfl, rfl⟩⟩
        · next ht => exact .inr ⟨src2, ht, rfl⟩
      · next b d2 h2 =>
        obtain ⟨src2, rfl⟩ := Decoder.read_some h2
        exact .inl ⟨_, src2, true, byteLow4 b, rfl, .inr (.inl rfl)⟩
  · split
    · exact .inl ⟨none, d.source, d.rHave, d.rNib, rfl, .inl ⟨rfl, rfl⟩⟩
    · next d1 h1 =>
      obtain ⟨src, rfl⟩ := Decoder.read_some h1
      exact .inl ⟨some .eos, src, d.rHave, d.rNib, rfl, .inl ⟨rfl, rfl⟩⟩
    · next b d1 h1 =>
      obtain ⟨src, rfl⟩ := Decoder.read_some h1
      exact .inl ⟨_, src, false, 0#4, rfl, .inr (.inr rfl)⟩

/-! ## `emit` in the decoder -/

theorem Decoder.emit_of_accepts {d : Decoder} (v : Byte) (h : d.sink.accepts 1 = true) :
    d.emit v = .ok () (d.setSink (d.sink.got [v])) := by
  simp [Decoder.emit, Sink.write_of_accepts v h]

theorem Decoder.emit_of_fails {d : Decoder} (v : Byte) (h : d.sink.failsAt 0 = true) :
    d.emit v = .raised ((d.setSink (d.sink.failed [v] 0)).raiseBare .sinkFail) := by
  simp [Decoder.emit, Sink.write_of_fails v h]

/-- `emit` changes the sink, and takes SinkFail where the write fails; it does nothing else (R222). -/
theorem Decoder.emit_cases (d : Decoder) (v : Byte) :
    (∃ k, d.emit v = .ok () (d.setSink k)) ∨ ∃ k, d.emit v = .raised ((d.setSink k).raiseBare .sinkFail) := by
  rcases d.sink.accepts_or_fails with h | h
  · exact .inl ⟨_, d.emit_of_accepts v h⟩
  · exact .inr ⟨_, d.emit_of_fails v h⟩

/-! ## Accesses to the arena and the table -/

/-- Everything a read of the arena can do: the byte that is there, and nothing changed; or the model stops. -/
theorem Decoder.readArena_cases (cfg : Config) (o : Nat) (d : Decoder) :
    (∃ v, d.readArena cfg o = .ok v d ∧ o < cfg.arenaBytes ∧ Memory.get? d.arena o = some v)
    ∨ (d.readArena cfg o = .stop .noSuchArenaByte ∧ cfg.arenaBytes ≤ o)
    ∨ (d.readArena cfg o = .stop .unwrittenArena ∧ Memory.get? d.arena o = none) := by
  unfold Decoder.readArena
  by_cases h : cfg.arenaBytes ≤ o
  · exact .inr (.inl ⟨by simp [h], h⟩)
  · cases hv : Memory.get? d.arena o with
    | none => exact .inr (.inr ⟨by simp [h], rfl⟩)
    | some v => exact .inl ⟨v, by simp [h], by omega, rfl⟩

theorem Decoder.readArena_of_get {cfg : Config} {o : Nat} {d : Decoder} {v : Byte} (ho : o < cfg.arenaBytes)
    (h : Memory.get? d.arena o = some v) : d.readArena cfg o = .ok v d := by
  simp [Decoder.readArena, h, Nat.not_le.mpr ho]

theorem Decoder.writeArena_of_lt {cfg : Config} {o : Nat} (v : Byte) (d : Decoder) (ho : o < cfg.arenaBytes) :
    d.writeArena cfg o v = .ok () (d.setArena (Memory.set d.arena o v)) := by
  simp [Decoder.writeArena, Nat.not_le.mpr ho]

/-- Everything a write of the arena can do. -/
theorem Decoder.writeArena_cases (cfg : Config) (o : Nat) (v : Byte) (d : Decoder) :
    d.writeArena cfg o v = .ok () (d.setArena (Memory.set d.arena o v))
    ∨ (d.writeArena cfg o v = .stop .noSuchArenaByte ∧ cfg.arenaBytes ≤ o) := by
  by_cases h : cfg.arenaBytes ≤ o
  · exact .inr ⟨by simp [Decoder.writeArena, h], h⟩
  · exact .inl (Decoder.writeArena_of_lt v d (by omega))

theorem Decoder.readEntry_of_get {c : Code} {d : Decoder} {en : Entry} (h : Memory.get? d.entries c.toNat = some en) :
    d.readEntry c = .ok en d := by
  simp [Decoder.readEntry, h]

/-- Everything a read of the table can do. -/
theorem Decoder.readEntry_cases (c : Code) (d : Decoder) :
    (∃ en, d.readEntry c = .ok en d ∧ Memory.get? d.entries c.toNat = some en)
    ∨ (d.readEntry c = .stop .unwrittenEntry ∧ Memory.get? d.entries c.toNat = none) := by
  cases h : Memory.get? d.entries c.toNat with
  | none => exact .inr ⟨by simp [Decoder.readEntry, h], rfl⟩
  | some en => exact .inl ⟨en, Decoder.readEntry_of_get h, rfl⟩

theorem Decoder.writeEntry_of_lt {i : Nat} (en : Entry) (d : Decoder) (hi : i < 4096) :
    d.writeEntry i en = .ok () (d.setEntries (Memory.set d.entries i en)) := by
  simp [Decoder.writeEntry, Nat.not_le.mpr hi]

/-! ## The allocator (R171) -/

theorem round4_spec (n : Nat) : round4 n % 4 = 0 ∧ n ≤ round4 n ∧ round4 n < n + 4 := by
  unfold round4
  omega

/-- Everything `ARENA.ALLOC` can do: a block from `a_ptr` on, or AllocFail with nothing else changed. -/
theorem Decoder.alloc_cases (cfg : Config) (n : Nat) (d : Decoder) :
    (d.aPtr + round4 n ≤ cfg.arenaBytes ∧ d.alloc cfg n = .ok d.aPtr (d.setPtr (d.aPtr + round4 n)))
    ∨ (cfg.arenaBytes < d.aPtr + round4 n ∧ d.alloc cfg n = .raised (d.raiseBare .allocFail)) := by
  unfold Decoder.alloc
  by_cases h : cfg.arenaBytes < d.aPtr + round4 n
  · exact .inr ⟨h, by simp [h]⟩
  · exact .inl ⟨by omega, by simp [h]⟩

/-! ## Sequences in the arena -/

theorem readRange_length {m : List Host.Cell} {n o : Nat} {bs : List Byte} (h : readRange m n o = some bs) :
    bs.length = n := by
  induction n generalizing o bs with
  | zero => simp [readRange] at h; simp [← h]
  | succ n ih =>
    simp only [readRange] at h
    split at h
    · next v vs _ hvs =>
      simp only [Option.some.injEq] at h
      subst h
      simp [ih hvs]
    · simp at h

/-- The range read byte by byte. -/
theorem readRange_get {m : List Host.Cell} {n o : Nat} {bs : List Byte} (h : readRange m n o = some bs) (i : Nat)
    (hi : i < n) : Memory.get? m (o + i) = bs[i]? := by
  induction n generalizing o bs i with
  | zero => omega
  | succ n ih =>
    simp only [readRange] at h
    split at h
    · next v vs hv hvs =>
      simp only [Option.some.injEq] at h
      subst h
      cases i with
      | zero => simpa using hv
      | succ i =>
        have := ih hvs i (by omega)
        simpa [Nat.add_assoc, Nat.add_comm 1 i] using this
    · simp at h

/-- Two memories that agree on a range hold the same range. -/
theorem readRange_congr {m m' : List Host.Cell} {n o : Nat}
    (h : ∀ i, i < n → Memory.get? m (o + i) = Memory.get? m' (o + i)) : readRange m n o = readRange m' n o := by
  induction n generalizing o with
  | zero => rfl
  | succ n ih =>
    have h0 := h 0 (by omega)
    have ht : readRange m n (o + 1) = readRange m' n (o + 1) :=
      ih fun i hi => by simpa [Nat.add_assoc, Nat.add_comm 1 i] using h (i + 1) (by omega)
    simp only [readRange, ht]
    rw [show Memory.get? m o = Memory.get? m' o by simpa using h0]

/-- A range is what its bytes say. -/
theorem readRange_of_get {m : List Host.Cell} {bs : List Byte} {o : Nat}
    (h : ∀ i, i < bs.length → Memory.get? m (o + i) = bs[i]?) : readRange m bs.length o = some bs := by
  induction bs generalizing o with
  | nil => rfl
  | cons b bs ih =>
    have h0 : Memory.get? m o = some b := by simpa using h 0 (by simp)
    have ht : readRange m bs.length (o + 1) = some bs :=
      ih fun i hi => by simpa [Nat.add_assoc, Nat.add_comm 1 i] using h (i + 1) (by simpa using hi)
    simp [readRange, h0, ht]

/-- What `holds` says, taken apart. -/
theorem Decoder.holds_spec {cfg : Config} {c : Code} {bs : List Byte} {d : Decoder} (h : d.holds cfg c bs = true) :
    ∃ en, Memory.get? d.entries c.toNat = some en ∧ readRange d.arena en.len en.off = some bs
      ∧ en.len = bs.length ∧ en.off + en.len ≤ d.aPtr ∧ d.aPtr ≤ cfg.arenaBytes := by
  unfold Decoder.holds at h
  split at h
  · next en he =>
    simp only [Bool.and_eq_true, decide_eq_true_eq] at h
    exact ⟨en, he, h.1.1, (readRange_length h.1.1).symm, h.1.2, h.2⟩
  · simp at h

/-- `DICT.FIRSTBYTE` of an entry that is held: its first byte, and nothing changed (R175). -/
theorem Decoder.firstByte_of_holds {cfg : Config} {c : Code} {x : Byte} {bs : List Byte} {d : Decoder}
    (h : d.holds cfg c (x :: bs) = true) : d.firstByte cfg c = .ok x d := by
  obtain ⟨en, he, hr, hl, ho, hp⟩ := Decoder.holds_spec h
  have h0 : Memory.get? d.arena en.off = some x := by
    simpa using readRange_get hr 0 (by rw [hl]; simp)
  have hlen : en.len = bs.length + 1 := by simpa using hl
  simp only [Decoder.firstByte, Decoder.readEntry_of_get he, Run.bind_ok]
  exact Decoder.readArena_of_get (by omega) h0

/-- Everything `DICT.FIRSTBYTE` can do: nothing is changed and nothing raised. -/
theorem Decoder.firstByte_cases (cfg : Config) (c : Code) (d : Decoder) :
    (∃ x, d.firstByte cfg c = .ok x d) ∨ ∃ f, d.firstByte cfg c = .stop f := by
  rcases d.readEntry_cases c with ⟨en, h, _⟩ | ⟨h, _⟩
  · rcases d.readArena_cases cfg en.off with ⟨v, hv, _⟩ | ⟨hv, _⟩ | ⟨hv, _⟩
    · exact .inl ⟨v, by simp [Decoder.firstByte, h, hv]⟩
    · exact .inr ⟨_, by simp [Decoder.firstByte, h, hv]; rfl⟩
    · exact .inr ⟨_, by simp [Decoder.firstByte, h, hv]; rfl⟩
  · exact .inr ⟨_, by simp [Decoder.firstByte, h]; rfl⟩

/-! ## The copy of DICT.ADD (R176) -/

/-- Where every source byte is there and no byte is overwritten before it is read, the copy gives the destination the source's bytes and leaves every other byte as it was. -/
theorem Decoder.copyBytes_spec (cfg : Config) (n src dst : Nat) (d : Decoder) (bs : List Byte)
    (hb : readRange d.arena n src = some bs) (hs : src + n ≤ cfg.arenaBytes) (hd : dst + n ≤ cfg.arenaBytes)
    (hno : dst ≤ src ∨ src + n ≤ dst) :
    ∃ ar, Decoder.copyBytes cfg n src dst d = .ok () (d.setArena ar)
      ∧ (∀ i, i < n → Memory.get? ar (dst + i) = bs[i]?)
      ∧ (∀ o, (o < dst ∨ dst + n ≤ o) → Memory.get? ar o = Memory.get? d.arena o) := by
  induction n generalizing src dst d bs with
  | zero => exact ⟨d.arena, rfl, fun i hi => by omega, fun _ _ => rfl⟩
  | succ n ih =>
    have hv0 := readRange_get hb 0 (by omega)
    have hlen := readRange_length hb
    obtain ⟨v, vs, rfl⟩ : ∃ v vs, bs = v :: vs := by
      cases bs with
      | nil => simp at hlen
      | cons v vs => exact ⟨v, vs, rfl⟩
    have hv : Memory.get? d.arena src = some v := by simpa using hv0
    have hvs : readRange (Memory.set d.arena dst v) n (src + 1) = some vs := by
      have hl : vs.length = n := by simpa using hlen
      rw [← hl]
      refine readRange_of_get fun i hi => ?_
      rw [Memory.get?_set_other _ _ (by omega)]
      have := readRange_get hb (i + 1) (by omega)
      simpa [Nat.add_assoc, Nat.add_comm 1 i] using this
    obtain ⟨ar, har, hin, hout⟩ := ih (src + 1) (dst + 1) (d.setArena (Memory.set d.arena dst v)) vs hvs
      (by omega) (by omega) (by omega)
    refine ⟨ar, ?_, ?_, ?_⟩
    · simp only [Decoder.copyBytes, Decoder.readArena_of_get (show src < cfg.arenaBytes by omega) hv, Run.bind_ok,
        Decoder.writeArena_of_lt v d (show dst < cfg.arenaBytes by omega), har]
      rfl
    · intro i hi
      cases i with
      | zero =>
        rw [hout _ (by omega)]
        simp [Memory.get?_set_self]
      | succ i =>
        have := hin i (by omega)
        simpa [Nat.add_assoc, Nat.add_comm 1 i] using this
    · intro o ho
      rw [hout o (by omega)]
      exact Memory.get?_set_other _ _ (by omega)

/-- Everything the copy can do: only the arena changes, its form kept; or the model stops. -/
theorem Decoder.copyBytes_cases (cfg : Config) (n src dst : Nat) (d : Decoder) :
    (∃ ar, Decoder.copyBytes cfg n src dst d = .ok () (d.setArena ar)
      ∧ (Memory.wf d.arena = true → Memory.wf ar = true))
    ∨ ∃ f, Decoder.copyBytes cfg n src dst d = .stop f := by
  induction n generalizing src dst d with
  | zero => exact .inl ⟨d.arena, rfl, id⟩
  | succ n ih =>
    rcases d.readArena_cases cfg src with ⟨v, hv, _⟩ | ⟨hv, _⟩ | ⟨hv, _⟩
    · rcases d.writeArena_cases cfg dst v with hw | ⟨hw, _⟩
      · rcases ih (src + 1) (dst + 1) (d.setArena (Memory.set d.arena dst v)) with ⟨ar, har, hwf⟩ | ⟨f, hf⟩
        · refine .inl ⟨ar, ?_, fun h => hwf (Memory.wf_set _ _ _ h)⟩
          simp only [Decoder.copyBytes, hv, hw, Run.bind_ok, har]
          rfl
        · exact .inr ⟨f, by simp only [Decoder.copyBytes, hv, hw, Run.bind_ok, hf]⟩
      · exact .inr ⟨_, by simp only [Decoder.copyBytes, hv, hw, Run.bind_ok, Run.bind_stop]; rfl⟩
    · exact .inr ⟨_, by simp only [Decoder.copyBytes, hv, Run.bind_stop]; rfl⟩
    · exact .inr ⟨_, by simp only [Decoder.copyBytes, hv, Run.bind_stop]; rfl⟩

/-- Everything `DICT.ADD` can do: the two memories, `a_ptr` and `dictSize` change, the memories' form kept; or AllocFail with nothing else changed; or the model stops (R176). -/
theorem Decoder.dictAdd_cases (cfg : Config) (p : Code) (x : Byte) (d : Decoder) :
    (∃ es ar ptr, d.dictAdd cfg p x
        = .ok () ((((d.setEntries es).setArena ar).setPtr ptr).setDictSize (grow d.dictSize))
      ∧ (Memory.wf d.entries = true → Memory.wf es = true) ∧ (Memory.wf d.arena = true → Memory.wf ar = true))
    ∨ d.dictAdd cfg p x = .raised (d.raiseBare .allocFail)
    ∨ ∃ f, d.dictAdd cfg p x = .stop f := by
  rcases d.readEntry_cases p with ⟨en, he, _⟩ | ⟨he, _⟩
  · rcases d.alloc_cases cfg (en.len + 1) with ⟨_, ha⟩ | ⟨_, ha⟩
    · rcases Decoder.copyBytes_cases cfg en.len en.off d.aPtr (d.setPtr (d.aPtr + round4 (en.len + 1)))
        with ⟨ar, hc, hwf⟩ | ⟨f, hc⟩
      · rcases ((d.setPtr (d.aPtr + round4 (en.len + 1))).setArena ar).writeArena_cases cfg (d.aPtr + en.len) x
          with hw | ⟨hw, _⟩
        · by_cases hi : d.dictSize.toNat < 4096
          · refine .inl ⟨Memory.set d.entries d.dictSize.toNat ⟨d.aPtr, en.len + 1⟩,
              Memory.set ar (d.aPtr + en.len) x, d.aPtr + round4 (en.len + 1), ?_,
              fun h => Memory.wf_set _ _ _ h, fun h => Memory.wf_set _ _ _ (hwf h)⟩
            simp only [Decoder.dictAdd, he, ha, hc, hw, Run.bind_ok, Decoder.setArena_dictSize,
              Decoder.setPtr_dictSize]
            rw [Decoder.writeEntry_of_lt _ _ hi]
            rfl
          · refine .inr (.inr ⟨.noSuchEntry, ?_⟩)
            simp only [Decoder.dictAdd, he, ha, hc, hw, Run.bind_ok, Decoder.setArena_dictSize,
              Decoder.setPtr_dictSize]
            simp [Decoder.writeEntry, Nat.not_lt.mp hi]
        · exact .inr (.inr ⟨_, by simp only [Decoder.dictAdd, he, ha, hc, hw, Run.bind_ok, Run.bind_stop]; rfl⟩)
      · exact .inr (.inr ⟨f, by simp only [Decoder.dictAdd, he, ha, hc, Run.bind_ok, Run.bind_stop]⟩)
    · exact .inr (.inl (by simp only [Decoder.dictAdd, he, ha, Run.bind_ok, Run.bind_raised]))
  · exact .inr (.inr ⟨_, by simp only [Decoder.dictAdd, he, Run.bind_stop]; rfl⟩)

/-! ## The output of DICT.EMIT (R177) -/

theorem Decoder.emitRange_of_accepts (cfg : Config) (n o : Nat) (d : Decoder) (bs : List Byte)
    (hb : readRange d.arena n o = some bs) (ho : o + n ≤ cfg.arenaBytes) (h : d.sink.accepts n = true) :
    Decoder.emitRange cfg n o d = .ok () (d.setSink (d.sink.got bs)) := by
  induction n generalizing o d bs with
  | zero =>
    simp only [readRange, Option.some.injEq] at hb
    subst hb
    simp [Decoder.emitRange, Decoder.setSink]
  | succ n ih =>
    have hv0 := readRange_get hb 0 (by omega)
    simp only [readRange] at hb
    split at hb
    · next v vs hv hvs =>
      simp only [Option.some.injEq] at hb
      subst hb
      rw [d.sink.accepts_succ v, Bool.and_eq_true] at h
      simp only [Decoder.emitRange, Decoder.readArena_of_get (show o < cfg.arenaBytes by omega) hv, Run.bind_ok,
        Decoder.emit_of_accepts v h.1]
      rw [ih (o + 1) _ vs (by simpa using hvs) (by omega) (by simpa using h.2)]
      simp only [Decoder.setSink_sink, Sink.got_got]
      rfl
    · simp at hb

theorem Decoder.emitRange_of_fails (cfg : Config) (n o : Nat) (d : Decoder) (bs : List Byte) (j : Nat)
    (hb : readRange d.arena n o = some bs) (ho : o + n ≤ cfg.arenaBytes) (hj : j < n) (h : d.sink.failsAt j = true) :
    Decoder.emitRange cfg n o d = .raised ((d.setSink (d.sink.failed bs j)).raiseBare .sinkFail) := by
  induction n generalizing o d bs j with
  | zero => omega
  | succ n ih =>
    simp only [readRange] at hb
    split at hb
    · next v vs hv hvs =>
      simp only [Option.some.injEq] at hb
      subst hb
      simp only [Decoder.emitRange, Decoder.readArena_of_get (show o < cfg.arenaBytes by omega) hv, Run.bind_ok]
      cases j with
      | zero =>
        simp only [Decoder.emit_of_fails v h, Run.bind_raised]
        rw [Sink.failed_zero _ _ vs]
      | succ j =>
        rw [d.sink.failsAt_succ v, Bool.and_eq_true] at h
        simp only [Decoder.emit_of_accepts v h.1, Run.bind_ok]
        rw [ih (o + 1) _ vs j (by simpa using hvs) (by omega) (by omega) (by simpa using h.2)]
        simp only [Decoder.setSink_sink, Sink.failed_got]
        rfl
    · simp at hb

/-- Everything the output loop can do: only the sink changes; or SinkFail; or the model stops. -/
theorem Decoder.emitRange_cases (cfg : Config) (n o : Nat) (d : Decoder) :
    (∃ k, Decoder.emitRange cfg n o d = .ok () (d.setSink k))
    ∨ (∃ k, Decoder.emitRange cfg n o d = .raised ((d.setSink k).raiseBare .sinkFail))
    ∨ ∃ f, Decoder.emitRange cfg n o d = .stop f := by
  induction n generalizing o d with
  | zero => exact .inl ⟨d.sink, rfl⟩
  | succ n ih =>
    rcases d.readArena_cases cfg o with ⟨v, hv, _⟩ | ⟨hv, _⟩ | ⟨hv, _⟩
    · rcases d.emit_cases v with ⟨k, hk⟩ | ⟨k, hk⟩
      · rcases ih (o + 1) (d.setSink k) with ⟨k', h'⟩ | ⟨k', h'⟩ | ⟨f, h'⟩
        · exact .inl ⟨k', by simp only [Decoder.emitRange, hv, hk, Run.bind_ok, h']; rfl⟩
        · exact .inr (.inl ⟨k', by simp only [Decoder.emitRange, hv, hk, Run.bind_ok, h']; rfl⟩)
        · exact .inr (.inr ⟨f, by simp only [Decoder.emitRange, hv, hk, Run.bind_ok, h']⟩)
      · exact .inr (.inl ⟨k, by simp only [Decoder.emitRange, hv, hk, Run.bind_ok, Run.bind_raised]⟩)
    · exact .inr (.inr ⟨_, by simp only [Decoder.emitRange, hv, Run.bind_stop]; rfl⟩)
    · exact .inr (.inr ⟨_, by simp only [Decoder.emitRange, hv, Run.bind_stop]; rfl⟩)

/-- Everything `DICT.EMIT` can do: only the sink changes; or SinkFail; or the model stops (R177). -/
theorem Decoder.dictEmit_cases (cfg : Config) (c : Code) (d : Decoder) :
    (∃ k, d.dictEmit cfg c = .ok () (d.setSink k))
    ∨ (∃ k, d.dictEmit cfg c = .raised ((d.setSink k).raiseBare .sinkFail))
    ∨ ∃ f, d.dictEmit cfg c = .stop f := by
  rcases d.readEntry_cases c with ⟨en, h, _⟩ | ⟨h, _⟩
  · have he : d.dictEmit cfg c = Decoder.emitRange cfg en.len en.off d := by simp [Decoder.dictEmit, h]
    rw [he]
    exact Decoder.emitRange_cases cfg en.len en.off d
  · exact .inr (.inr ⟨_, by simp only [Decoder.dictEmit, h, Run.bind_stop]; rfl⟩)

/-! ## The literals of DICT.INIT (R174) -/

/-- Where the arena has room, the loop lists the literals from code `c` on, four bytes apart from `a_ptr`, and leaves every other entry and byte as it was. -/
theorem Decoder.initLiterals_spec (cfg : Config) (n c : Nat) (d : Decoder) (hc : c + n ≤ 256)
    (hroom : d.aPtr + 4 * n ≤ cfg.arenaBytes) :
    ∃ es ar, Decoder.initLiterals cfg n c d
        = .ok () (((d.setEntries es).setArena ar).setPtr (d.aPtr + 4 * n))
      ∧ (∀ i, i < n → Memory.get? es (c + i) = some ⟨d.aPtr + 4 * i, 1⟩
          ∧ Memory.get? ar (d.aPtr + 4 * i) = some (BitVec.ofNat 8 (c + i)))
      ∧ (∀ k, (k < c ∨ c + n ≤ k) → Memory.get? es k = Memory.get? d.entries k)
      ∧ (∀ o, (∀ i, i < n → o ≠ d.aPtr + 4 * i) → Memory.get? ar o = Memory.get? d.arena o)
      ∧ (Memory.wf d.entries = true → Memory.wf es = true) ∧ (Memory.wf d.arena = true → Memory.wf ar = true) := by
  induction n generalizing c d with
  | zero =>
    exact ⟨d.entries, d.arena, rfl, fun i hi => by omega, fun _ _ => rfl, fun _ _ => rfl, id, id⟩
  | succ n ih =>
    have hr : round4 1 = 4 := rfl
    rcases d.alloc_cases cfg 1 with ⟨_, ha⟩ | ⟨h, _⟩
    · rw [hr] at ha
      obtain ⟨es, ar, hrun, hin, hes, har, hwe, hwa⟩ := ih (c + 1)
        (((d.setPtr (d.aPtr + 4)).setArena (Memory.set d.arena d.aPtr (BitVec.ofNat 8 c))).setEntries
          (Memory.set d.entries c ⟨d.aPtr, 1⟩)) (by omega) (by simp; omega)
      simp only [Decoder.setEntries_aPtr, Decoder.setArena_aPtr, Decoder.setPtr_aPtr, Decoder.setEntries_entries,
        Decoder.setEntries_arena, Decoder.setArena_arena]
        at hrun hin hes har hwe hwa
      refine ⟨es, ar, ?_, ?_, ?_, ?_, fun h => hwe (Memory.wf_set _ _ _ h), fun h => hwa (Memory.wf_set _ _ _ h)⟩
      · simp only [Decoder.initLiterals, ha, Run.bind_ok,
          Decoder.writeArena_of_lt _ _ (show d.aPtr < cfg.arenaBytes by omega),
          Decoder.writeEntry_of_lt _ _ (show c < 4096 by omega), Decoder.setPtr_arena, Decoder.setArena_entries,
          Decoder.setPtr_entries, hrun]
        rw [show d.aPtr + 4 + 4 * n = d.aPtr + 4 * (n + 1) by omega]
        rfl
      · intro i hi
        cases i with
        | zero =>
          constructor
          · rw [hes _ (by omega)]
            simp [Memory.get?_set_self]
          · rw [har _ (by omega)]
            simp [Memory.get?_set_self]
        | succ i =>
          have h1 := (hin i (by omega)).1
          have h2 := (hin i (by omega)).2
          rw [show c + 1 + i = c + (i + 1) by omega, show d.aPtr + 4 + 4 * i = d.aPtr + 4 * (i + 1) by omega] at *
          exact ⟨h1, h2⟩
      · intro k hk
        rw [hes k (by omega)]
        exact Memory.get?_set_other _ _ (by omega)
      · intro o ho
        rw [har o (fun i hi => by have := ho (i + 1) (by omega); omega)]
        exact Memory.get?_set_other _ _ (by have := ho 0 (by omega); omega)
    · rw [hr] at h
      omega

/-- The loop over the first `k` literals, then over the rest. -/
theorem Decoder.initLiterals_add (cfg : Config) (k m c : Nat) (d : Decoder) :
    Decoder.initLiterals cfg (k + m) c d
      = (Decoder.initLiterals cfg k c d).bind fun _ d1 => Decoder.initLiterals cfg m (c + k) d1 := by
  induction k generalizing c d with
  | zero => simp [Decoder.initLiterals]
  | succ k ih =>
    rw [show k + 1 + m = k + m + 1 by omega]
    simp only [Decoder.initLiterals, ih, Run.bind_assoc, show c + 1 + k = c + (k + 1) by omega]

/-- Where the arena has too little room for the literals, the loop lists those that fit and takes AllocFail. -/
theorem Decoder.initLiterals_allocFail (cfg : Config) (n k c : Nat) (d : Decoder) (hn : 0 < n) (hc : c + n ≤ 256)
    (hk : k = (cfg.arenaBytes - d.aPtr) / 4) (hroom : cfg.arenaBytes < d.aPtr + 4 * n) :
    ∃ es ar, Decoder.initLiterals cfg n c d
        = .raised ((((d.setEntries es).setArena ar).setPtr (d.aPtr + 4 * k)).raiseBare .allocFail)
      ∧ (∀ i, i < k → Memory.get? es (c + i) = some ⟨d.aPtr + 4 * i, 1⟩
          ∧ Memory.get? ar (d.aPtr + 4 * i) = some (BitVec.ofNat 8 (c + i)))
      ∧ (∀ j, (j < c ∨ c + k ≤ j) → Memory.get? es j = Memory.get? d.entries j)
      ∧ (∀ o, (∀ i, i < k → o ≠ d.aPtr + 4 * i) → Memory.get? ar o = Memory.get? d.arena o)
      ∧ (Memory.wf d.entries = true → Memory.wf es = true) ∧ (Memory.wf d.arena = true → Memory.wf ar = true) := by
  have fits : ∃ es ar, Decoder.initLiterals cfg k c d = .ok () (((d.setEntries es).setArena ar).setPtr (d.aPtr + 4 * k))
      ∧ (∀ i, i < k → Memory.get? es (c + i) = some ⟨d.aPtr + 4 * i, 1⟩
          ∧ Memory.get? ar (d.aPtr + 4 * i) = some (BitVec.ofNat 8 (c + i)))
      ∧ (∀ j, (j < c ∨ c + k ≤ j) → Memory.get? es j = Memory.get? d.entries j)
      ∧ (∀ o, (∀ i, i < k → o ≠ d.aPtr + 4 * i) → Memory.get? ar o = Memory.get? d.arena o)
      ∧ (Memory.wf d.entries = true → Memory.wf es = true) ∧ (Memory.wf d.arena = true → Memory.wf ar = true) := by
    rcases Nat.eq_zero_or_pos k with rfl | hpos
    · exact ⟨d.entries, d.arena, rfl, fun i hi => by omega, fun _ _ => rfl, fun _ _ => rfl, id, id⟩
    · exact Decoder.initLiterals_spec cfg k c d (by omega) (by omega)
  obtain ⟨es, ar, hrun, rest⟩ := fits
  refine ⟨es, ar, ?_, rest⟩
  obtain ⟨m, rfl⟩ : ∃ m, n = k + (m + 1) := ⟨n - k - 1, by omega⟩
  have hr : round4 1 = 4 := rfl
  rw [Decoder.initLiterals_add, hrun, Run.bind_ok]
  rcases (((d.setEntries es).setArena ar).setPtr (d.aPtr + 4 * k)).alloc_cases cfg 1 with ⟨h, _⟩ | ⟨_, ha⟩
  · simp only [Decoder.setPtr_aPtr, hr] at h
    omega
  · simp only [Decoder.initLiterals, ha, Run.bind_raised]

end Sys2Proof.Machine
end

