-- ==== Sys2Proof/Laws/Words.lean ====
section
/-! SUPPORT. The slices of codes and bytes as numbers (R11, R14 (c)). -/

namespace Sys2Proof

theorem codeHigh8_toNat (c : Code) : (codeHigh8 c).toNat = c.toNat / 16 := by
  have := c.isLt
  simp [codeHigh8, BitVec.extractLsb'_toNat, Nat.shiftRight_eq_div_pow]
  omega

theorem codeLow4_toNat (c : Code) : (codeLow4 c).toNat = c.toNat % 16 := by
  simp [codeLow4, BitVec.extractLsb'_toNat]

theorem codeHigh4_toNat (c : Code) : (codeHigh4 c).toNat = c.toNat / 256 := by
  have := c.isLt
  simp [codeHigh4, BitVec.extractLsb'_toNat, Nat.shiftRight_eq_div_pow]
  omega

theorem codeLow8_toNat (c : Code) : (codeLow8 c).toNat = c.toNat % 256 := by
  simp [codeLow8, BitVec.extractLsb'_toNat]

theorem byteHigh4_toNat (b : Byte) : (byteHigh4 b).toNat = b.toNat / 16 := by
  have := b.isLt
  simp [byteHigh4, BitVec.extractLsb'_toNat, Nat.shiftRight_eq_div_pow]
  omega

theorem byteLow4_toNat (b : Byte) : (byteLow4 b).toNat = b.toNat % 16 := by
  simp [byteLow4, BitVec.extractLsb'_toNat]

theorem append_toNat {m n : Nat} (x : BitVec m) (y : BitVec n) : (x ++ y).toNat = x.toNat * 2 ^ n + y.toNat := by
  rw [BitVec.toNat_append, ← Nat.shiftLeft_add_eq_or_of_lt y.isLt, Nat.shiftLeft_eq]

theorem joinNibbles_toNat (hi lo : Nibble) : (joinNibbles hi lo).toNat = hi.toNat * 16 + lo.toNat :=
  append_toNat hi lo

theorem codeFromBytes_toNat (b0 b1 : Byte) : (codeFromBytes b0 b1).toNat = b0.toNat * 16 + b1.toNat / 16 := by
  rw [← byteHigh4_toNat b1]
  exact append_toNat b0 (byteHigh4 b1)

theorem codeFromNibble_toNat (nib : Nibble) (b : Byte) : (codeFromNibble nib b).toNat = nib.toNat * 256 + b.toNat :=
  append_toNat nib b

theorem literalCode_toNat (b : Byte) : (literalCode b).toNat = b.toNat := by
  have := b.isLt
  simp [literalCode]
  omega

theorem widenCode_toNat (c : Code) : (widenCode c).toNat = c.toNat := by
  have := c.isLt
  simp [widenCode]
  omega

/-- A code is rebuilt from the two bytes that hold it at a byte boundary, whatever the low nibble of the second is (R102). -/
theorem codeFromBytes_slices (c : Code) (lo : Nibble) : codeFromBytes (codeHigh8 c) (joinNibbles (codeLow4 c) lo) = c := by
  apply BitVec.eq_of_toNat_eq
  have := c.isLt
  have := lo.isLt
  rw [codeFromBytes_toNat, codeHigh8_toNat, joinNibbles_toNat, codeLow4_toNat]
  omega

/-- A code is rebuilt from the nibble and the byte that hold it in mid-byte. -/
theorem codeFromNibble_slices (hi : Nibble) (c : Code) :
    codeFromNibble (byteLow4 (joinNibbles hi (codeHigh4 c))) (codeLow8 c) = c := by
  apply BitVec.eq_of_toNat_eq
  have := c.isLt
  have := hi.isLt
  rw [codeFromNibble_toNat, byteLow4_toNat, joinNibbles_toNat, codeHigh4_toNat, codeLow8_toNat]
  omega

/-- The low eight bits of a literal code are its byte. -/
theorem codeLow8_literalCode (b : Byte) : codeLow8 (literalCode b) = b := by
  apply BitVec.eq_of_toNat_eq
  have := b.isLt
  rw [codeLow8_toNat, literalCode_toNat]
  omega

end Sys2Proof
end

