-- ==== Sys2Proof/Laws/Dict.lean ====
section
/-! SUPPORT. The dictionary in the terms of the statements: what DICT.ADD and DICT.EMIT do, which entries an added entry leaves held, and the blocks of R32. -/

namespace Sys2Proof.Machine

/-- `DICT.ADD` where the source entry is there, the block fits and the copy overwrites nothing it still has to read (R176). -/
theorem Decoder.dictAdd_of_room (cfg : Config) (p : Code) (x : Byte) (d : Decoder) (en : Entry) (bp : List Byte)
    (he : Memory.get? d.entries p.toNat = some en) (hb : readRange d.arena en.len en.off = some bp)
    (hno : d.aPtr ≤ en.off ∨ en.off + en.len ≤ d.aPtr) (hs : en.off + en.len ≤ cfg.arenaBytes)
    (hd : d.dictSize.toNat < 4096) (hr : d.aPtr + round4 (bp.length + 1) ≤ cfg.arenaBytes) :
    ∃ d1, d.dictAdd cfg p x = .ok () d1 ∧ AddsEntry d bp x d1 := by
  have hl := readRange_length hb
  obtain ⟨h4, h5, h6⟩ := round4_spec (bp.length + 1)
  rcases d.alloc_cases cfg (en.len + 1) with ⟨_, ha⟩ | ⟨h, _⟩
  swap
  · rw [← hl] at h; omega
  obtain ⟨ar, hc, hin, hout⟩ := Decoder.copyBytes_spec cfg en.len en.off d.aPtr (d.setPtr (d.aPtr + round4 (en.len + 1))) bp (by simpa using hb) hs (by omega) (by omega)
  refine ⟨((((d.setPtr (d.aPtr + round4 (en.len + 1))).setArena (Memory.set ar (d.aPtr + en.len) x)).setEntries (Memory.set d.entries d.dictSize.toNat ⟨d.aPtr, en.len + 1⟩)).setDictSize (grow d.dictSize)), ?_, ?_⟩
  · simp only [Decoder.dictAdd, Decoder.readEntry_of_get he, Run.bind_ok, ha, hc]
    rw [Decoder.writeArena_of_lt _ _ (by omega)]
    simp only [Run.bind_ok]
    rw [Decoder.writeEntry_of_lt _ _ (by simpa using hd)]
    simp only [Run.bind_ok]
    rfl
  · constructor
    · simp [Memory.get?_set_self, hl]
    · have : readRange (Memory.set ar (d.aPtr + en.len) x) (bp ++ [x]).length d.aPtr = some (bp ++ [x]) := by
        apply readRange_of_get
        intro i hi
        simp at hi
        by_cases h : i < bp.length
        · rw [Memory.get?_set_other _ _ (by omega), hin i (by omega)]; simp [List.getElem?_append_left h]
        · have : i = en.len := by omega
          subst this
          rw [Memory.get?_set_self]; simp [hl]
      simpa using this
    · intro c hc; simp [Memory.get?_set_other _ _ hc]
    · intro o ho
      simp
      rw [Memory.get?_set_other _ _ (by omega), hout o (by omega)]; rfl
    · simp [hl]; rfl

/-- `DICT.ADD` where the block does not fit (R171). -/
theorem Decoder.dictAdd_of_full (cfg : Config) (p : Code) (x : Byte) (d : Decoder) (en : Entry) 
    (he : Memory.get? d.entries p.toNat = some en) (hr : cfg.arenaBytes < d.aPtr + round4 (en.len + 1)) :
    d.dictAdd cfg p x = .raised (d.raiseBare .allocFail) := by
  rcases d.alloc_cases cfg (en.len + 1) with ⟨_, ha⟩ | ⟨h, ha⟩
  · omega
  · simp only [Decoder.dictAdd, Decoder.readEntry_of_get he, Run.bind_ok, ha, Run.bind_raised]

/-- An operation that brings the decoder to `d1`, emits an entry that is there and then does `g` writes that entry. -/
theorem DecoderWrites.of_dictEmit {i : Instr} {s : State} {d1 : Decoder} {en : Entry} {c : Code} {bs : List Byte} {g : Decoder → Decoder} 
    (he : Memory.get? d1.entries c.toNat = some en) (hb : readRange d1.arena en.len en.off = some bs) (ho : en.off + en.len ≤ s.config.arenaBytes)
    (h : exec i s = s.endDec ((d1.dictEmit s.config c).bind fun _ e => .ok () (g e))) : DecoderWrites i s d1 bs g := by
  have hl := readRange_length hb
  refine ⟨fun ha => ?_, fun j hj hf => ?_⟩
  · rw [h]; simp only [Decoder.dictEmit, Decoder.readEntry_of_get he, Run.bind_ok]
    rw [Decoder.emitRange_of_accepts _ _ _ _ bs hb (by omega) (hl ▸ ha)]; rfl
  · rw [h]; simp only [Decoder.dictEmit, Decoder.readEntry_of_get he, Run.bind_ok]
    rw [Decoder.emitRange_of_fails _ _ _ _ bs j hb (by omega) (by omega) hf]; rfl

/-- Every other entry is held after an addition as before. -/
theorem AddsEntry.holds_other {cfg : Config} {d d1 : Decoder} {bp : List Byte} {x : Byte} (h : AddsEntry d bp x d1) (hr : d.aPtr + round4 (bp.length + 1) ≤ cfg.arenaBytes)
    {c : Code} {bs : List Byte} (hc : c.toNat ≠ d.dictSize.toNat) (hh : d.holds cfg c bs = true) : d1.holds cfg c bs = true := by
  obtain ⟨en, he, hb, hl, ho, hp⟩ := Decoder.holds_spec hh
  have hreg := h.registers
  have hptr : d1.aPtr = d.aPtr + round4 (bp.length + 1) := by rw [hreg]; simp
  simp only [Decoder.holds]
  rw [h.otherEntries _ hc, he]
  have : readRange d1.arena en.len en.off = some bs := by
    rw [← hb]; apply readRange_congr; intro i hi; apply h.otherBytes; omega
  simp [this]; omega

/-- The entry added is held. -/
theorem AddsEntry.holds_new {cfg : Config} {d d1 : Decoder} {bp : List Byte} {x : Byte} (h : AddsEntry d bp x d1) (hr : d.aPtr + round4 (bp.length + 1) ≤ cfg.arenaBytes)
    {c : Code} (hc : c.toNat = d.dictSize.toNat) : d1.holds cfg c (bp ++ [x]) = true := by
  have hreg := h.registers
  have hptr : d1.aPtr = d.aPtr + round4 (bp.length + 1) := by rw [hreg]; simp
  obtain ⟨_, h5, _⟩ := round4_spec (bp.length + 1)
  simp only [Decoder.holds]
  rw [hc, h.entry]
  simp [h.bytes]; omega

/-- Below `DICT_MAX`, as a number. -/
theorem lt_fullSize (d : DictSize) : d < fullSize ↔ d.toNat < 4096 := by
  rw [BitVec.lt_def]
  rfl

/-- At `DICT_MAX`, as a number. -/
theorem eq_fullSize (d : DictSize) : d = fullSize ↔ d.toNat = 4096 := by rw [← BitVec.toNat_inj]; rfl

/-- No block of a dynamic entry lies below the mark. -/
theorem blockStart_ge (m) (k : Nat) : 1024 ≤ blockStart m k := by
  induction k with
  | zero => exact Nat.le_refl _
  | succ k ih => simp only [blockStart]; omega

/-- The blocks rise with the code. -/
theorem blockStart_mono (m) {j k : Nat} (h : j ≤ k) : blockStart m j ≤ blockStart m k := by
  induction k with
  | zero => have : j = 0 := by omega
            subst this; exact Nat.le_refl _
  | succ k ih =>
    by_cases hj : j = k + 1
    · subst hj; exact Nat.le_refl _
    · have := ih (by omega); simp only [blockStart]; omega

/-- Where the blocks lie depends on the entries before alone. -/
theorem blockStart_congr {m m' : List (Nat × Entry)} (k : Nat) (h : ∀ j, j < k → Memory.get? m' (256 + j) = Memory.get? m (256 + j)) : blockStart m' k = blockStart m k := by
  induction k with
  | zero => rfl
  | succ k ih => simp only [blockStart, lenOf]; rw [ih fun j hj => h j (by omega), h k (by omega)]

/-- Where R32 holds, every valid entry is there, in a block below `a_ptr`, of a length bounded by its code. -/
theorem Decoder.Live.block {cfg : Config} {d : Decoder} (hl : d.Live cfg) {c : Nat} (hc : c < d.dictSize.toNat) :
    ∃ en bs, Memory.get? d.entries c = some en ∧ readRange d.arena en.len en.off = some bs ∧ en.off + en.len ≤ d.aPtr ∧ 1 ≤ bs.length ∧ bs.length ≤ (if c < 256 then 1 else c - 256 + 2) := by
  by_cases h : c < 256
  · obtain ⟨h1, h2⟩ := hl.literals c h
    have := hl.ptr; have := blockStart_ge d.entries (d.dictSize.toNat - 256)
    exact ⟨_, [BitVec.ofNat 8 c], h1, by simp [readRange, h2], by simp; omega, by simp, by simp [h]⟩
  · obtain ⟨k, rfl⟩ : ∃ k, c = 256 + k := ⟨c - 256, by omega⟩
    obtain ⟨en, he, ho⟩ := hl.blocks k hc
    obtain ⟨p, bs, x, hp, _, hs⟩ := hl.grown k hc
    have hlen := hl.lengths k hc
    have hlo : lenOf d.entries (256 + k) = en.len := by simp [lenOf, he]
    simp only [Decoder.seq?, he] at hs
    refine ⟨en, _, he, hs, ?_, by simp, ?_⟩
    · have h1 := blockStart_mono d.entries (show k + 1 ≤ d.dictSize.toNat - 256 by omega)
      have h2 := round4_spec en.len
      simp only [blockStart, hlo] at h1
      have := hl.ptr; omega
    · have := readRange_length hs; simp; simp at this; omega

/-- R32 is kept by the growth step. -/
theorem AddsEntry.live {cfg : Config} {d d1 : Decoder} {bp : List Byte} {x : Byte} (hl : d.Live cfg) (hrun : d.phase = .run)
   (hd : d.dictSize.toNat < 4096) (hh : d.holds cfg d.prevCode bp = true) (hr : d.aPtr + round4 (bp.length + 1) ≤ cfg.arenaBytes) (ha : AddsEntry d bp x d1) :
   d1.Live cfg ∧ d1.phase = .run ∧ d1.dictSize.toNat = d.dictSize.toNat + 1 := by
  obtain ⟨en, he, hb, hlen, ho, hpp⟩ := Decoder.holds_spec hh
  have hreg := ha.registers
  have hs := hl.size
  have e1 : d1.aPtr = d.aPtr + round4 (bp.length + 1) := by rw [hreg]; simp
  have e2 : d1.dictSize.toNat = d.dictSize.toNat + 1 := by rw [hreg]; simp; omega
  have e3 : d1.prevCode = d.prevCode := by rw [hreg]; simp
  have e4 : d1.phase = .run := by rw [hreg]; simpa using hrun
  have e5 : d1.aMark = d.aMark := by rw [hreg]; simp
  have hptr := hl.ptr
  have hge := blockStart_ge d.entries (d.dictSize.toNat - 256)
  have hprev := hl.prev hrun
  have hold : ∀ c, c < d.dictSize.toNat → Memory.get? d1.entries c = Memory.get? d.entries c := fun c hc => ha.otherEntries c (by omega)
  have hbs : ∀ k, 256 + k ≤ d.dictSize.toNat → blockStart d1.entries k = blockStart d.entries k := fun k hk => blockStart_congr k fun j hj => hold _ (by omega)
  have hseq : ∀ c, c < d.dictSize.toNat → d1.seq? c = d.seq? c := by
    intro c hc
    obtain ⟨en', bs', h1, h2, h3, _⟩ := Decoder.Live.block hl hc
    simp only [Decoder.seq?, hold c hc, h1]
    apply readRange_congr; intro i hi; apply ha.otherBytes; omega
  have hbp : 1 ≤ bp.length ∧ bp.length ≤ d.dictSize.toNat - 256 + 1 ∧ d.seq? d.prevCode.toNat = some bp := by
    obtain ⟨en', bs', h1, h2, h3, h4, h5⟩ := Decoder.Live.block hl hprev
    have : en = en' := by rw [he] at h1; simpa using h1
    subst this
    have : bp = bs' := by rw [hb] at h2; simpa using h2
    subst this
    refine ⟨h4, ?_, by simp [Decoder.seq?, he, hb]⟩
    split at h5 <;> omega
  have hnew : ∀ k, 256 + k < d1.dictSize.toNat → ¬ 256 + k < d.dictSize.toNat → 256 + k = d.dictSize.toNat := by intros; omega
  refine ⟨⟨by omega, fun _ => by rw [e3]; omega, ?_, ?_, ?_, by omega, ?_, ?_, by rw [e5]; exact hl.mark, by simp [e4]⟩, e4, e2⟩
  · intro c hc
    obtain ⟨h1, h2⟩ := hl.literals c hc
    exact ⟨by rw [hold c (by omega)]; exact h1, by rw [ha.otherBytes _ (by omega)]; exact h2⟩
  · intro k hk
    by_cases h : 256 + k < d.dictSize.toNat
    · obtain ⟨en', h1, h2⟩ := hl.blocks k h
      exact ⟨en', by rw [hold _ h]; exact h1, by rw [hbs k (by omega)]; exact h2⟩
    · have := hnew k hk h
      refine ⟨_, by rw [this]; exact ha.entry, ?_⟩
      rw [hbs k (by omega)]; show d.aPtr = _; rw [hptr, show d.dictSize.toNat - 256 = k by omega]
  · rw [e1, e2, show d.dictSize.toNat + 1 - 256 = (d.dictSize.toNat - 256) + 1 by omega]
    simp only [blockStart]
    rw [hbs _ (by omega), show 256 + (d.dictSize.toNat - 256) = d.dictSize.toNat by omega]
    simp only [lenOf, ha.entry]; omega
  · intro k hk
    by_cases h : 256 + k < d.dictSize.toNat
    · have := hl.lengths k h; simp only [lenOf, hold _ h] at *; exact this
    · have h' := hnew k hk h
      rw [h']; simp only [lenOf, ha.entry]; omega
  · intro k hk
    by_cases h : 256 + k < d.dictSize.toNat
    · obtain ⟨p, bs, y, h1, h2, h3⟩ := hl.grown k h
      exact ⟨p, bs, y, h1, by rw [hseq p (by omega)]; exact h2, by rw [hseq _ h]; exact h3⟩
    · have h' := hnew k hk h
      refine ⟨d.prevCode.toNat, bp, x, by omega, by rw [hseq _ hprev]; exact hbp.2.2, ?_⟩
      rw [h']; simp only [Decoder.seq?, ha.entry]; exact ha.bytes

end Sys2Proof.Machine
end

