-- ==== Sys2Proof/Laws/PerInstr.lean ====
section
/-! SUPPORT. Per instruction: the operand word fits the row's format and has the row's fixed bits (R90, R101, columns `format`, `mask` and `match` of the table). -/

namespace Sys2Proof.Laws.OperandWord

/-- The bits a row fixes to 0 (its columns `mask` and `match`). -/
def fixedMask : Instr → Nat
  | .packPair3 _ _ => 0
  | .packTail2 _ => 0x000F
  | .putCode _ => 0
  | .putLast _ => 0
  | .getCode => 0
  | .trieLookup _ _ => 0
  | .trieInsert _ _ _ => 0
  | .trieClear => 0
  | .encFirst _ => 0
  | .encByteHit _ => 0
  | .encByteAdd _ => 0
  | .encByteReset _ => 0
  | .encEos => 0
  | .encEosEmpty => 0
  | .arenaInit => 0
  | .arenaAlloc _ => 0
  | .arenaMark => 0
  | .arenaRewind => 0
  | .dictInit => 0
  | .dictFirstByte _ => 0
  | .dictAdd _ _ => 0
  | .dictEmit _ => 0
  | .decFirst _ => 0xF00
  | .decFirstBad _ => 0
  | .decCodeCorrupt _ => 0
  | .decCodeKnown _ => 0
  | .decCodeKwkwk _ => 0
  | .decCodeReset _ => 0xF00
  | .decCodeStale _ => 0
  | .decEos => 0
  | .srcRead _ => 0
  | .snkWrite _ _ => 0
  | .encStart => 0
  | .decStart => 0
  | .statusRead _ => 0

/-- The operand word of a well-formed operation is one of the four formats or none, holds no bit above its format, and has the row's fixed bits 0. -/
def Statement (i : Instr) : Prop :=
  i.WellFormed = true →
    (encode i).bits ∈ [0, 8, 12, 16, 24] ∧ (encode i).value < 2 ^ (encode i).bits
      ∧ (encode i).value &&& fixedMask i = 0

theorem of_none {i : Instr} (h : encode i = noWord) : Statement i := by
  intro _
  rw [h]
  exact ⟨by decide, by decide, Nat.zero_and _⟩

theorem of_symbol {i : Instr} {b : Byte} (h : encode i = symbolWord b) (hm : fixedMask i = 0) : Statement i := by
  intro _
  rw [h, hm]
  exact ⟨by simp [symbolWord], b.isLt, Nat.and_zero _⟩

theorem of_code {i : Instr} {c : Code} (h : encode i = codeWord c) (hm : fixedMask i = 0) : Statement i := by
  intro _
  rw [h, hm]
  exact ⟨by simp [codeWord], c.isLt, Nat.and_zero _⟩

theorem of_literal {i : Instr} {b : Byte} (h : encode i = codeWord (literalCode b)) (hm : fixedMask i = 0xF00) :
    Statement i := by
  intro _
  rw [h, hm]
  refine ⟨by simp [codeWord], (literalCode b).isLt, ?_⟩
  show (literalCode b).toNat &&& 0xF00 = 0
  have hz : ∀ b : Byte, (literalCode b).toNat &&& 0xF00 = 0 := by decide
  exact hz b

theorem packPair3 (code1 code2 : Code) : Statement (.packPair3 code1 code2) := by
  intro _
  have h1 := code1.isLt
  have h2 := code2.isLt
  refine ⟨by simp [encode], ?_, Nat.and_zero _⟩
  show code1.toNat * 4096 + code2.toNat < 2 ^ 24
  omega

theorem packTail2 (code : Code) : Statement (.packTail2 code) := by
  intro _
  have h1 := code.isLt
  refine ⟨by simp [encode], ?_, ?_⟩
  · show code.toNat * 16 < 2 ^ 16
    omega
  · show code.toNat * 16 &&& (2 ^ 4 - 1) = 0
    rw [Nat.and_two_pow_sub_one_eq_mod]
    omega

theorem putCode (c : Code) : Statement (.putCode c) := of_code rfl rfl

theorem putLast (c : Code) : Statement (.putLast c) := of_code rfl rfl

theorem getCode : Statement (.getCode) := of_none rfl

theorem trieLookup (n : Code) (b : Byte) : Statement (.trieLookup n b) := of_none rfl

theorem trieInsert (n : Code) (b : Byte) (v : Code) : Statement (.trieInsert n b v) := of_none rfl

theorem trieClear : Statement (.trieClear) := of_none rfl

theorem encFirst (b : Byte) : Statement (.encFirst b) := of_symbol rfl rfl

theorem encByteHit (b : Byte) : Statement (.encByteHit b) := of_symbol rfl rfl

theorem encByteAdd (b : Byte) : Statement (.encByteAdd b) := of_symbol rfl rfl

theorem encByteReset (b : Byte) : Statement (.encByteReset b) := of_symbol rfl rfl

theorem encEos : Statement (.encEos) := of_none rfl

theorem encEosEmpty : Statement (.encEosEmpty) := of_none rfl

theorem arenaInit : Statement (.arenaInit) := of_none rfl

theorem arenaAlloc (n : Nat) : Statement (.arenaAlloc n) := of_none rfl

theorem arenaMark : Statement (.arenaMark) := of_none rfl

theorem arenaRewind : Statement (.arenaRewind) := of_none rfl

theorem dictInit : Statement (.dictInit) := of_none rfl

theorem dictFirstByte (c : Code) : Statement (.dictFirstByte c) := of_code rfl rfl

theorem dictAdd (p : Code) (x : Byte) : Statement (.dictAdd p x) := of_none rfl

theorem dictEmit (c : Code) : Statement (.dictEmit c) := of_code rfl rfl

theorem decFirst (c : Byte) : Statement (.decFirst c) := of_literal rfl rfl

theorem decFirstBad (c : Code) : Statement (.decFirstBad c) := of_code rfl rfl

theorem decCodeCorrupt (c : Code) : Statement (.decCodeCorrupt c) := of_code rfl rfl

theorem decCodeKnown (c : Code) : Statement (.decCodeKnown c) := of_code rfl rfl

theorem decCodeKwkwk (c : Code) : Statement (.decCodeKwkwk c) := of_code rfl rfl

theorem decCodeReset (c : Byte) : Statement (.decCodeReset c) := of_literal rfl rfl

theorem decCodeStale (c : Code) : Statement (.decCodeStale c) := of_code rfl rfl

theorem decEos : Statement (.decEos) := of_none rfl

theorem srcRead (u : UnitId) : Statement (.srcRead u) := of_none rfl

theorem snkWrite (u : UnitId) (v : Byte) : Statement (.snkWrite u v) := of_symbol rfl rfl

theorem encStart : Statement (.encStart) := of_none rfl

theorem decStart : Statement (.decStart) := of_none rfl

theorem statusRead (u : UnitId) : Statement (.statusRead u) := of_none rfl

end Sys2Proof.Laws.OperandWord
end

