-- ==== Sys2Proof/Laws/Start.lean ====
section
/-! SUPPORT. What DEC.START and ENC.START establish (R36, R224, R225). -/

namespace Sys2Proof.Machine

/-- DEC.START where the arena has room for the literals: every register, entry and byte it leaves. -/
theorem Decoder.start_spec (cfg : Config) (free : Code) (d : Decoder) (hroom : 1024 ≤ cfg.arenaBytes) :
    ∃ es ar, d.start cfg free = .ok () ((((((((d.setEntries es).setArena ar).setPtr 1024).setMark 1024).setDictSize
        256#13).setResidual false 0#4).setRecord .none 0#12 0#13).setPrevCode free |>.setPhase .first)
      ∧ (∀ c, c < 256 → Memory.get? es c = some ⟨4 * c, 1⟩ ∧ Memory.get? ar (4 * c) = some (BitVec.ofNat 8 c))
      ∧ (∀ c, 256 ≤ c → Memory.get? es c = none)
      ∧ (∀ o, (∀ c, c < 256 → o ≠ 4 * c) → Memory.get? ar o = none)
      ∧ Memory.wf es = true ∧ Memory.wf ar = true := by
  obtain ⟨es, ar, hrun, hin, hes, har, hwe, hwa⟩ := Decoder.initLiterals_spec cfg 256 0 (d.forget free).arenaInit
    (by omega) (by simp [Decoder.arenaInit]; omega)
  simp only [Decoder.arenaInit, Decoder.setPtr_aPtr, Nat.zero_add] at hin har hrun
  refine ⟨es, ar, ?_, hin, fun c hc => ?_, fun o ho => ?_, hwe rfl, hwa rfl⟩
  · simp only [Decoder.start, Decoder.dictInit, Decoder.arenaInit, hrun, Run.bind_ok]
    rfl
  · exact hes c (by omega)
  · exact har o ho

/-- DEC.START where the arena is too small for the literals: AllocFail, with the source, the sink and the residual as before. -/
theorem Decoder.start_allocFail (cfg : Config) (free : Code) (d : Decoder) (hroom : cfg.arenaBytes < 1024) :
    ∃ es ar ptr, d.start cfg free
      = .raised (((((d.forget free).arenaInit.setEntries es).setArena ar).setPtr ptr).raiseBare .allocFail)
      ∧ Memory.wf es = true ∧ Memory.wf ar = true := by
  obtain ⟨es, ar, hrun, _, _, _, hwe, hwa⟩ := Decoder.initLiterals_allocFail cfg 256 _ 0 (d.forget free).arenaInit
    (by omega) (by omega) rfl (by simp [Decoder.arenaInit]; omega)
  refine ⟨es, ar, 0 + 4 * ((cfg.arenaBytes - 0) / 4), ?_, hwe rfl, hwa rfl⟩
  simp only [Decoder.start, Decoder.dictInit, hrun, Run.bind_raised]
  rfl

/-- A decoder that DEC.START has just initialised is live (R36). -/
theorem Decoder.started_live (cfg : Config) (free : Code) (d : Decoder) (hroom : 1024 ≤ cfg.arenaBytes) :
    (d.started cfg free).Live cfg ∧ (d.started cfg free).phase = .first ∧ (d.started cfg free).Inv cfg
      ∧ (d.started cfg free).sink = d.sink ∧ (d.started cfg free).aPtr = 1024
      ∧ (d.started cfg free).dictSize = 256#13 ∧ (d.started cfg free).rHave = false
      ∧ (d.started cfg free).prevCode = free := by
  obtain ⟨es, ar, hrun, hin, hes, har, hwe, hwa⟩ := d.start_spec cfg free hroom
  have hlive : (d.started cfg free).Live cfg := by
    simp only [Decoder.started, hrun]
    constructor
    · simp
    · simp
    · exact hin
    · intro k hk
      have : 256 + k < 256 := hk
      omega
    · simp [blockStart]
    · exact hroom
    · intro k hk
      have : 256 + k < 256 := hk
      omega
    · intro k hk
      have : 256 + k < 256 := hk
      omega
    · rfl
    · exact fun _ => ⟨rfl, rfl⟩
  refine ⟨hlive, ?_, ⟨?_, ?_, ?_, ?_, ?_, fun _ => hlive⟩, ?_, ?_, ?_, ?_, ?_⟩ <;>
    simp [Decoder.started, hrun, hwe, hwa]

/-- An encoder that ENC.START has just initialised is live (R36). -/
theorem Encoder.start_live (free : Code) (e : Encoder) : (e.start free).Live ∧ (e.start free).Inv := by
  have hlive : (e.start free).Live := by
    constructor
    · simp [Encoder.start, initialSize, Encoder.dropNibble]
    · simp [Encoder.start]
    · intro n b h
      exact absurd rfl h
    · intro v h1 h2
      have : v.toNat < 256 := h2
      omega
    · exact fun _ => ⟨rfl, rfl⟩
  exact ⟨hlive, rfl, fun _ => rfl, by simp [Encoder.start, Encoder.dropNibble], fun _ => hlive⟩

end Sys2Proof.Machine
end

