-- ==== Sys2Proof/Laws/Step.lean ====
section
/-! SUPPORT. What a step can do, said once: the turns it can be, and what the encoder's turn does to the encoder. -/

namespace Sys2Proof.Machine

/-- What a step does with what it has fetched. -/
def perform : Fetched → Host.Outcome State Fault Refusal
  | .run i s1 => exec i s1
  | .quiet s1 => .next s1
  | .unselected _ => .refused .notSelected
  | .stop f => .fault f

/-- A step performs what it fetches. -/
theorem step_eq_perform (s : State) : step s = perform s.fetch := by unfold step perform; cases s.fetch <;> rfl

/-- A step with nothing presented is a host turn, a turn of the encoder, a turn of the decoder, or nothing. -/
theorem step_cases {s s' : State} (hp : s.port = none) (h : step s = .next s') :
    (∃ c rest, s.agenda = .host c :: rest ∧ perform ((s.setAgenda rest).fetchHost c) = .next s')
    ∨ (∃ ag, perform (s.setAgenda ag).fetchEncoder = .next s' ∧ (∀ c rest, s.agenda ≠ .host c :: rest))
    ∨ (∃ ag, perform (s.setAgenda ag).fetchDecoder = .next s' ∧ (∀ c rest, s.agenda ≠ .host c :: rest))
    ∨ s' = s := by
  rw [step_eq_perform] at h
  unfold State.fetch at h
  rw [hp] at h
  simp only at h
  split at h
  · rename_i t rest ha
    cases t with
    | host c => exact .inl ⟨c, rest, ha, h⟩
    | encoder => exact .inr (.inl ⟨rest, h, by rw [ha]; simp⟩)
    | decoder => exact .inr (.inr (.inl ⟨rest, h, by rw [ha]; simp⟩))
  · rename_i ha
    have hs : s.setAgenda [] = s := by rw [← ha]; rfl
    unfold State.fetchFree at h
    split at h
    · exact .inr (.inl ⟨[], by rw [hs]; exact h, by rw [ha]; simp⟩)
    · split at h
      · exact .inr (.inr (.inl ⟨[], by rw [hs]; exact h, by rw [ha]; simp⟩))
      · simp [perform] at h; exact .inr (.inr (.inr h.symm))

/-- What a driver operation of the encoder does to it. -/
inductive EncoderMove (e : Encoder) : Encoder → Prop
  | first (b) : e.phase = .first → EncoderMove e ((e.setCurNode (literalCode b)).setPhase .run)
  | hit (b) : e.phase = .run → e.lookup e.curNode b ≠ 0#12 → EncoderMove e (e.setCurNode (e.lookup e.curNode b))
  | add (b k h n) : e.phase = .run → e.lookup e.curNode b = 0#12 → e.dictSize.toNat < 4096 → (h = false → n = 0#4) → EncoderMove e (((e.setSink k).setResidual h n).addPhrase b)
  | reset (b k h n) : e.phase = .run → (h = false → n = 0#4) → EncoderMove e (((e.setSink k).setResidual h n).resetDictionary b)
  | eos (k n) : e.phase = .run → (n = 0#4 ∨ (e.wHave = false ∧ n = e.wNib)) → EncoderMove e (((e.setSink k).setResidual false n).setPhase .done)
  | empty : e.phase = .first → EncoderMove e (e.setPhase .done)
  | fail (k) : e.phase = .run → EncoderMove e ((e.setSink k).raise .sinkFail)

/-- A driver operation of the encoder moves the encoder and changes nothing else. -/
theorem EncoderMove.of_exec {s s' : State} {ev : SymbolEvent} {i : Instr} {p cell d} (hd : decodeEnc p cell d ev = .instr i) (h : exec i s = .next s') :
   EncoderMove s.enc s'.enc ∧ s'.dec = s.dec ∧ s'.config = s.config := by
  have key : i = .encEos ∨ i = .encEosEmpty ∨ ∃ b, i = .encFirst b ∨ i = .encByteHit b ∨ i = .encByteAdd b ∨ i = .encByteReset b := by
    cases p <;> cases ev <;> simp only [decodeEnc] at hd
    all_goals first
      | (simp at hd; done)
      | (simp at hd; subst hd; simp)
      | (split_ifs at hd <;> simp at hd <;> subst hd <;> simp)
  rcases key with rfl | rfl | ⟨b, rfl | rfl | rfl | rfl⟩
  · simp only [exec, execEncEos] at h
    split at h
    · rename_i hp
      rcases s.enc.putLast_cases s.enc.curNode with ⟨k, n, hk, hn⟩ | ⟨k, hk⟩
      · rw [hk, Run.bind_ok, State.endEnc_ok] at h; simp at h; subst h; exact ⟨.eos k n hp hn, rfl, rfl⟩
      · rw [hk, Run.bind_raised, State.endEnc_raised] at h; simp at h; subst h; exact ⟨.fail k hp, rfl, rfl⟩
    · simp at h
  · simp only [exec, execEncEosEmpty] at h
    split at h
    · rename_i hp; simp at h; subst h; exact ⟨.empty hp, rfl, rfl⟩
    · simp at h
  · simp only [exec, execEncFirst] at h
    split at h
    · rename_i hp; simp at h; subst h; exact ⟨.first b hp, rfl, rfl⟩
    · simp at h
  · simp only [exec, execEncByteHit] at h
    split at h
    · rename_i hp; simp at h; subst h; exact ⟨.hit b hp.1 hp.2, rfl, rfl⟩
    · simp at h
  · simp only [exec, execEncByteAdd] at h
    split at h
    · rename_i hp
      rcases s.enc.putCode_cases s.enc.curNode with ⟨k, x, n, hk, _, hn⟩ | ⟨k, hk⟩
      · rw [hk, Run.bind_ok, State.endEnc_ok] at h; simp at h; subst h; exact ⟨.add b k x n hp.1 hp.2.1 ((lt_fullSize _).1 hp.2.2) hn, rfl, rfl⟩
      · rw [hk, Run.bind_raised, State.endEnc_raised] at h; simp at h; subst h; exact ⟨.fail k hp.1, rfl, rfl⟩
    · simp at h
  · simp only [exec, execEncByteReset] at h
    split at h
    · rename_i hp
      rcases s.enc.putCode_cases s.enc.curNode with ⟨k, x, n, hk, _, hn⟩ | ⟨k, hk⟩
      · rw [hk, Run.bind_ok, State.endEnc_ok] at h; simp at h; subst h; exact ⟨.reset b k x n hp.1 hn, rfl, rfl⟩
      · rw [hk, Run.bind_raised, State.endEnc_raised] at h; simp at h; subst h; exact ⟨.fail k hp.1, rfl, rfl⟩
    · simp at h

/-- The turn of a running encoder. -/
theorem State.fetchEncoder_running {s : State} (hr : running s.enc.phase = true) : 
   ∃ src, s.fetchEncoder = .ofDecoded (s.setEnc (s.enc.setSource src)) (decodeEnc s.enc.phase (s.enc.cellFor s.enc.read.1) s.enc.dictSize s.enc.read.1) := by
  obtain ⟨src, hs⟩ := s.enc.read_snd
  exact ⟨src, by simp only [State.fetchEncoder, hr, if_true, hs]⟩

/-- A turn of the encoder that ends in a next state. -/
theorem perform_fetchEncoder {s s' : State} (h : perform s.fetchEncoder = .next s') : 
   (running s.enc.phase = false ∧ s' = s) ∨ (running s.enc.phase = true ∧ ∃ src, EncoderMove (s.enc.setSource src) s'.enc ∧ s'.dec = s.dec ∧ s'.config = s.config) := by
  cases hr : running s.enc.phase with
  | false => simp [State.fetchEncoder, hr, perform] at h; exact .inl ⟨rfl, h.symm⟩
  | true =>
    obtain ⟨src, hs⟩ := State.fetchEncoder_running hr
    rw [hs] at h
    refine .inr ⟨rfl, src, ?_⟩
    cases hd : decodeEnc s.enc.phase (s.enc.cellFor s.enc.read.1) s.enc.dictSize s.enc.read.1 with
    | instr i =>
      rw [hd] at h
      exact EncoderMove.of_exec hd h
    | reject r => rw [hd] at h; simp [perform, Fetched.ofDecoded] at h

end Sys2Proof.Machine
end

