-- ==== Sys2Proof/Laws/Writer.lean ====
section
/-! SUPPORT. The writer's operations as lists of bytes, in the terms of the statements (R121, R122, R222). -/

namespace Sys2Proof.Machine

/-- A last line that only returns changes nothing. -/
theorem Run.bind_ok_unit (r : Run Encoder Unit) : (r.bind fun _ e => .ok () e) = r := by cases r <;> rfl

/-- An operation that gives bytes to the sink and then does `g` writes those bytes. -/
theorem EncoderWrites.of_emitAll {i : Instr} {s : State} {bs : List Byte} {g : Encoder → Encoder}
    (h : exec i s = s.endEnc ((Encoder.emitAll bs s.enc).bind fun _ e => .ok () (g e))) : EncoderWrites i s bs g := by
  refine ⟨fun ha => ?_, fun j hj hf => ?_⟩
  · rw [h, Encoder.emitAll_of_accepts _ _ ha]; rfl
  · rw [h, Encoder.emitAll_of_fails _ _ j hj hf]; rfl

/-- `PUTCODE` and the lines after it, as its bytes and its residual. -/
theorem Encoder.putCode_bind (c : Code) (e : Encoder) (g : Encoder → Encoder) :
   ((e.putCode c).bind fun _ e1 => .ok () (g e1)) = (Encoder.emitAll (e.putBytes c) e).bind fun _ e1 => .ok () (g (e1.setResidual (e.putResidual c).1 (e.putResidual c).2)) := by
  rw [Encoder.putCode_eq]
  have h1 : codeHigh8 c = BitVec.ofNat 8 (c.toNat / 16) := by
    have := c.isLt
    simp [← BitVec.toNat_inj, codeHigh8_toNat]; omega
  have h2 : joinNibbles e.wNib (codeHigh4 c) = BitVec.ofNat 8 (e.wNib.toNat * 16 + c.toNat / 256) := by
    have := c.isLt; have := e.wNib.isLt
    simp [← BitVec.toNat_inj, joinNibbles_toNat, codeHigh4_toNat]; omega
  have h3 : codeLow8 c = BitVec.ofNat 8 (c.toNat % 256) := by
    simp [← BitVec.toNat_inj, codeLow8_toNat]
  have h4 : codeLow4 c = BitVec.ofNat 4 (c.toNat % 16) := by
    simp [← BitVec.toNat_inj, codeLow4_toNat]
  by_cases hw : e.wHave = false
  · simp only [hw, if_true, Encoder.putBytes, Encoder.putResidual, Run.bind_assoc, Run.bind_ok, h1, h4]
  · simp only [hw, Bool.true_eq_false, if_false, Encoder.putBytes, Encoder.putResidual, Run.bind_assoc, Run.bind_ok, h2, h3]

/-- `PUTLAST` and the lines after it, as its bytes and its residual. -/
theorem Encoder.putLast_bind (c : Code) (e : Encoder) (g : Encoder → Encoder) :
   ((e.putLast c).bind fun _ e1 => .ok () (g e1)) = (Encoder.emitAll (e.lastBytes c) e).bind fun _ e1 => .ok () (g (if e.wHave = false then e1 else e1.setResidual false 0#4)) := by
  rw [Encoder.putLast_eq]
  have h1 : tail2Bytes c = [BitVec.ofNat 8 (c.toNat / 16), BitVec.ofNat 8 (c.toNat % 16 * 16)] := by
    have := c.isLt
    simp [tail2Bytes, ← BitVec.toNat_inj, codeHigh8_toNat, joinNibbles_toNat, codeLow4_toNat]; omega
  have h2 : joinNibbles e.wNib (codeHigh4 c) = BitVec.ofNat 8 (e.wNib.toNat * 16 + c.toNat / 256) := by
    have := c.isLt; have := e.wNib.isLt
    simp [← BitVec.toNat_inj, joinNibbles_toNat, codeHigh4_toNat]; omega
  have h3 : codeLow8 c = BitVec.ofNat 8 (c.toNat % 256) := by
    simp [← BitVec.toNat_inj, codeLow8_toNat]
  by_cases hw : e.wHave = false
  · simp only [hw, if_true, Encoder.lastBytes, h1]
  · simp only [hw, Bool.true_eq_false, if_false, Encoder.lastBytes, Run.bind_assoc, Run.bind_ok, h2, h3]

/-- A literal code is the number of its byte. -/
theorem literalCode_eq (b : Byte) : literalCode b = BitVec.ofNat 12 b.toNat := by
  have := b.isLt
  simp [← BitVec.toNat_inj, literalCode_toNat]; omega

end Sys2Proof.Machine
end

