-- ==== Sys2Proof/Tests/Slice0.lean ====
section
/-! SUPPORT. Tests. Expected results are the vectors of spec/95_test_vectors.md and the listings of the rules, read by hand; no test checks a free value. Then one witness per statement with hypotheses: a state and operands that meet them. -/

namespace Sys2Proof.Tests

open Sys2Proof Sys2Proof.Machine

/-! ## Small states -/

/-- The outcome is a next state with the property. -/
def nextIs (o : Host.Outcome State Fault Refusal) (p : State → Bool) : Bool :=
  match o with
  | .next s => p s
  | .fault _ => false
  | .refused _ => false

/-- An encoder in phase RUN that holds no nibble. -/
def encRun (cur : Code) (d : DictSize) (trie : List (Nat × Code)) : Encoder :=
  (((Encoder.powerOn.setPhase .run).setCurNode cur).setDictSize d).setTrie trie

/-- The same with a nibble held. -/
def encHold (cur : Code) (d : DictSize) (n : Nibble) : Encoder := (encRun cur d []).setResidual true n

/-- The sink that answers as listed. -/
def answering (l : List SinkAnswer) : Sink := ⟨[], l⟩

/-- A state with this encoder. -/
def withEnc (e : Encoder) : State := State.reset.setEnc e

/-- A decoder in phase RUN with the literals 65 and 66 and the mark where DEC.START leaves them (V-AR-2), `prevCode` 65 and `a_ptr` at the mark. -/
def decRun (d : DictSize) : Decoder :=
  ((((((Decoder.powerOn.setPhase .run).setPrevCode 65#12).setDictSize d).setPtr 1024).setMark 1024).setEntries
    [(65, ⟨260, 1⟩), (66, ⟨264, 1⟩)]).setArena [(260, 0x41#8), (264, 0x42#8)]

/-- That decoder after V-AR-9 and V-AR-10. -/
def decGrown : Decoder :=
  ((((decRun 258#13).setPtr 1032).setEntries [(65, ⟨260, 1⟩), (66, ⟨264, 1⟩), (256, ⟨1024, 2⟩), (257, ⟨1028, 3⟩)]).setArena
    [(260, 0x41#8), (264, 0x42#8), (1024, 0x41#8), (1025, 0x41#8), (1028, 0x41#8), (1029, 0x41#8), (1030, 0x42#8)]).setPrevCode 256#12

/-- A decoder at the full dictionary with `a_ptr` far above the mark (V-RST-2). -/
def decFull : Decoder := (((decRun 4096#13).setPtr 16384).setEntries
    [(65, ⟨260, 1⟩), (66, ⟨264, 1⟩), (300, ⟨1200, 2⟩)]).setArena
    [(260, 0x41#8), (264, 0x42#8), (1200, 0x00#8), (1201, 0x17#8)]

/-- A state with this decoder. -/
def withDec (d : Decoder) : State := State.reset.setDec d

/-- The parameters with another arena size. -/
def arenaOf (n : Nat) : Config := ⟨n, .silent, .fault⟩

/-- The state with other parameters. -/
def under (c : Config) (s : State) : State := ⟨c, s.enc, s.dec, s.agenda, s.port, s.answer, s.draws⟩

/-! ## WellFormed: an ill-formed term for each check -/

theorem test_wellFormed_insert_child_below_256 : (Instr.trieInsert 65#12 0x41#8 255#12).WellFormed = false := by decide
theorem test_wellFormed_insert_child_not_above_node : (Instr.trieInsert 300#12 0x41#8 300#12).WellFormed = false := by decide
theorem test_wellFormed_alloc_nothing : (Instr.arenaAlloc 0).WellFormed = false := by decide
theorem test_wellFormed_firstBad_literal : (Instr.decFirstBad 255#12).WellFormed = false := by decide
theorem test_wellFormed_stale_literal : (Instr.decCodeStale 255#12).WellFormed = false := by decide
theorem test_wellFormed_accepts : (Instr.trieInsert 300#12 0x41#8 301#12).WellFormed = true
    ∧ (Instr.decFirstBad 256#12).WellFormed = true := by decide

/-! ## Words written out bit by bit from the formats (R90, R93, R94, R99, R100) -/

theorem test_decode_pair3 : decodeTableWord 24 0b000100100011010001010110 = some (.packPair3 0x123#12 0x456#12) := by decide
theorem test_decode_pair3_top_and_bottom_bit : decodeTableWord 24 0b100000000000000000000001
    = some (.packPair3 2048#12 1#12) := by decide
theorem test_decode_tail2 : decodeTableWord 16 0b0001001000110000 = some (.packTail2 0x123#12) := by decide
theorem test_decode_tail2_ignores_padding : decodeTableWord 16 0b0000010000011111 = some (.packTail2 65#12) := by decide
theorem test_decode_symbol : decodeTableWord 8 0b01000001 = some (.encFirst 0x41#8) := by decide
theorem test_decode_literal : decodeTableWord 12 0b000001000001 = some (.decFirst 0x41#8) := by decide
theorem test_decode_first_code_256 : decodeTableWord 12 0b000100000000 = some (.decFirstBad 256#12) := by decide
theorem test_decode_no_such_width : decodeTableWord 4 0 = none ∧ decodeTableWord 0 0 = none := by decide
theorem test_decode_bits_above_the_format : decodeTableWord 12 0x1041 = none := by decide
theorem test_decode_wire_truncated : decodeWire [0x04#8] = (.reject .truncatedWord, []) := by decide
theorem test_decode_wire_pair_then_rest : decodeWire [0x04#8, 0x11#8, 0x00#8, 0x04#8]
    = (.instr (.packPair3 65#12 256#12), [0x04#8]) := by decide
theorem test_select_enc_hit : decodeEnc .run 256#12 4096#13 (.byte 0x41#8) = .instr (.encByteHit 0x41#8) := by decide
theorem test_select_enc_add_at_4095 : decodeEnc .run 0#12 4095#13 (.byte 0#8) = .instr (.encByteAdd 0#8) := by decide
theorem test_select_enc_reset_at_4096 : decodeEnc .run 0#12 4096#13 (.byte 0#8) = .instr (.encByteReset 0#8) := by decide
theorem test_select_enc_eos : decodeEnc .run 0#12 256#13 .eos = .instr .encEos
    ∧ decodeEnc .first 0#12 256#13 .eos = .instr .encEosEmpty := by decide
theorem test_select_dec_corrupt_smallest : decodeDec .run 256#13 (.code 257#12) = .instr (.decCodeCorrupt 257#12) := by decide
theorem test_select_dec_kwkwk_last : decodeDec .run 4095#13 (.code 4095#12) = .instr (.decCodeKwkwk 4095#12) := by decide
theorem test_select_dec_known : decodeDec .run 4095#13 (.code 4094#12) = .instr (.decCodeKnown 4094#12) := by decide
theorem test_select_dec_reset_and_stale : decodeDec .run 4096#13 (.code 255#12) = .instr (.decCodeReset 255#8)
    ∧ decodeDec .run 4096#13 (.code 256#12) = .instr (.decCodeStale 256#12) := by decide
theorem test_select_nothing_outside_a_run : decodeDec .done 256#13 (.code 65#12) = .reject .noStepInPhase := by decide

/-- V-PK-6, V-PK-7, V-PK-9. -/
theorem test_pack : pack [0xABC#12, 0xDEF#12, 0x123#12] = [0xAB#8, 0xCD#8, 0xEF#8, 0x12#8, 0x30#8]
    ∧ pack [1#12, 2#12, 3#12, 4#12] = [0x00#8, 0x10#8, 0x02#8, 0x00#8, 0x30#8, 0x04#8] := by decide

/-- V-UP-11, V-UP-13, V-UP-2. -/
theorem test_unpack : unpack [0x12#8, 0x34#8, 0x56#8, 0x78#8, 0x9A#8] = [291#12, 1110#12, 1929#12]
    ∧ unpack [0x04#8, 0x10#8, 0x11#8, 0x00#8, 0x04#8, 0x10#8] = [65#12, 17#12, 0#12, 1040#12]
    ∧ unpack [0x04#8] = [] := by decide

/-! ## The codec -/

/-- V-PK-10. -/
theorem test_packPair3 : nextIs (exec (.packPair3 0x800#12 0x001#12) (withEnc (encRun 0#12 256#13 [])))
    (fun s => s.enc.sink.accepted == [0x80#8, 0x00#8, 0x01#8]) = true := by decide

/-- R95: a pair starts where no nibble is held. -/
theorem test_packPair3_in_mid_byte : exec (.packPair3 1#12 2#12) (withEnc (encHold 0#12 256#13 5#4))
    = .refused .notAtCodeBoundary := rfl

/-- V-PK-3. -/
theorem test_packTail2 : nextIs (exec (.packTail2 4095#12) (withEnc (encRun 0#12 256#13 [])))
    (fun s => s.enc.sink.accepted == [0xFF#8, 0xF0#8] && !s.enc.wHave) = true := by decide

/-- V-PK-6, first step. -/
theorem test_putCode_first : nextIs (exec (.putCode 0xABC#12) (withEnc (encRun 0#12 256#13 [])))
    (fun s => s.enc.sink.accepted == [0xAB#8] && s.enc.wHave && s.enc.wNib == 12#4) = true := by decide

/-- V-PK-6, second step. -/
theorem test_putCode_second : nextIs (exec (.putCode 0xDEF#12) (withEnc (encHold 0#12 256#13 12#4)))
    (fun s => s.enc.sink.accepted == [0xCD#8, 0xEF#8] && !s.enc.wHave && s.enc.wNib == 0#4) = true := by decide

/-- V-PK-7, last step. -/
theorem test_putLast_leftover : nextIs (exec (.putLast 4#12) (withEnc (encHold 0#12 256#13 3#4)))
    (fun s => s.enc.sink.accepted == [0x30#8, 0x04#8] && !s.enc.wHave) = true := by decide

/-- V-ENC-F3: the first write fails. -/
theorem test_putLast_fails : nextIs (exec (.putLast 65#12) (withEnc ((encRun 65#12 256#13 []).setSink (answering [.fail]))))
    (fun s => s.enc.phase == .fault && s.enc.faultCause == .sinkFail && s.enc.sink.accepted == []) = true := by decide

/-- V-UP-6, first code. -/
theorem test_getCode_at_byte : nextIs (exec .getCode (withDec ((decRun 256#13).setSource (.stream [0x04#8, 0x11#8, 0x00#8]))))
    (fun s => s.answer == .code 65#12 && s.dec.rHave && s.dec.rNib == 1#4 && s.dec.source == .stream [0x00#8]) = true := by decide

/-- V-UP-6, second code. -/
theorem test_getCode_in_mid_byte : nextIs (exec .getCode (withDec (((decRun 256#13).setSource (.stream [0x00#8])).setResidual true 1#4)))
    (fun s => s.answer == .code 256#12 && !s.dec.rHave) = true := by decide

/-! ## The trie -/

/-- R22: an unlisted cell reads 0; R61: the cells of other nodes and symbols are apart. -/
theorem test_trieLookup : nextIs (exec (.trieLookup 65#12 0x41#8) (withEnc (encRun 0#12 257#13 [(65 * 256 + 0x41, 256#12)])))
    (fun s => s.answer == .cell 256#12) = true
    ∧ nextIs (exec (.trieLookup 0x41#12 0x42#8) (withEnc (encRun 0#12 257#13 [(65 * 256 + 0x41, 256#12)])))
    (fun s => s.answer == .cell 0#12) = true := by decide

/-- V-ENC-14. -/
theorem test_trieInsert : nextIs (exec (.trieInsert 65#12 0x42#8 256#12) (withEnc (encRun 0#12 256#13 [])))
    (fun s => s.enc.lookup 65#12 0x42#8 == 256#12 && s.enc.lookup 66#12 0x41#8 == 0#12) = true := by decide

/-- R142. -/
theorem test_trieClear : nextIs (exec .trieClear (withEnc (encRun 0#12 257#13 [(65 * 256 + 0x41, 256#12)])))
    (fun s => s.enc.lookup 65#12 0x41#8 == 0#12 && s.enc.dictSize == 257#13) = true := by decide

/-! ## The encoder driver -/

/-- V-ENC-3: the largest literal. -/
theorem test_encFirst : nextIs (exec (.encFirst 0xFF#8) (withEnc (Encoder.powerOn.setPhase .first)))
    (fun s => s.enc.phase == .run && s.enc.curNode == 255#12 && s.enc.sink.accepted == []) = true := by decide

/-- V-ENC-6, last byte. -/
theorem test_encByteHit : nextIs (exec (.encByteHit 0x41#8) (withEnc (encRun 65#12 257#13 [(65 * 256 + 0x41, 256#12)])))
    (fun s => s.enc.curNode == 256#12 && s.enc.dictSize == 257#13 && s.enc.sink.accepted == []) = true := by decide

/-- V-ENC-13, second byte. -/
theorem test_encByteAdd : nextIs (exec (.encByteAdd 0x42#8) (withEnc (encRun 65#12 256#13 [])))
    (fun s => s.enc.sink.accepted == [0x04#8] && s.enc.lookup 65#12 0x42#8 == 256#12 && s.enc.dictSize == 257#13
      && s.enc.curNode == 66#12 && s.enc.wNib == 1#4) = true := by decide

/-- V-ENC-F2: the second write of the PUTCODE fails; the insert is not reached and `w` is as before. -/
theorem test_encByteAdd_fails : nextIs (exec (.encByteAdd 0x41#8)
      (withEnc ((encHold 256#12 257#13 1#4).setSink (answering [.ok, .fail]))))
    (fun s => s.enc.phase == .fault && s.enc.sink.accepted == [0x11#8] && s.enc.curNode == 256#12
      && s.enc.dictSize == 257#13 && s.enc.wHave && s.enc.lookup 256#12 0x41#8 == 0#12) = true := by decide

/-- V-RST-2, the encoder's reset: code 7 emitted, the trie cleared, no entry added. -/
theorem test_encByteReset : nextIs (exec (.encByteReset 0xA0#8) (withEnc (encRun 7#12 4096#13 [(0, 256#12)])))
    (fun s => s.enc.sink.accepted == [0x00#8] && s.enc.wNib == 7#4 && s.enc.trie == [] && s.enc.dictSize == 256#13
      && s.enc.curNode == 160#12) = true := by decide

/-- V-ENC-4. -/
theorem test_encEos : nextIs (exec .encEos (withEnc (encRun 65#12 256#13 [])))
    (fun s => s.enc.sink.accepted == [0x04#8, 0x10#8] && s.enc.phase == .done) = true := by decide

/-- V-ENC-1. -/
theorem test_encEosEmpty : nextIs (exec .encEosEmpty (withEnc (Encoder.powerOn.setPhase .first)))
    (fun s => s.enc.phase == .done && s.enc.sink.accepted == []) = true := by decide

/-! ## The arena and the table -/

/-- V-AR-1. -/
theorem test_arenaInit : nextIs (exec .arenaInit (withDec decGrown)) (fun s => s.dec.aPtr == 0) = true := by decide

/-- V-AR-4 and V-AR-5. -/
theorem test_arenaAlloc : nextIs (exec (.arenaAlloc 3841) (withDec (decRun 256#13)))
      (fun s => s.answer == .offset 1024 && s.dec.aPtr == 4868) = true
    ∧ nextIs (exec (.arenaAlloc 2) (withDec ((decRun 256#13).setPtr 8402940)))
      (fun s => s.answer == .offset 8402940 && s.dec.aPtr == 8402944) = true := by decide

/-- V-AR-6. -/
theorem test_arenaAlloc_fails : nextIs (exec (.arenaAlloc 5) (withDec ((decRun 256#13).setPtr 8402940)))
    (fun s => s.dec.phase == .fault && s.dec.faultCause == .allocFail && s.dec.aPtr == 8402940) = true := by decide

/-- V-AR-3. -/
theorem test_arenaMark : nextIs (exec .arenaMark (withDec ((decRun 256#13).setMark 0)))
    (fun s => s.dec.aMark == 1024 && s.dec.aPtr == 1024) = true := by decide

/-- V-AR-7. -/
theorem test_arenaRewind : nextIs (exec .arenaRewind (withDec (decGrown.setPtr 7385344)))
    (fun s => s.dec.aPtr == 1024 && s.dec.entries == decGrown.entries && s.dec.arena == decGrown.arena) = true := by decide

/-- V-AR-2: the last block. -/
theorem test_dictInit : ∃ es ar, exec .dictInit (withDec (Decoder.powerOn.setPtr 0))
      = .next (withDec (((Decoder.powerOn.setEntries es).setArena ar).setPtr 1024))
    ∧ Memory.get? es 255 = some ⟨1020, 1⟩ ∧ Memory.get? ar 1020 = some 0xFF#8 := by
  obtain ⟨es, ar, hrun, hin, _⟩ := Decoder.initLiterals_spec Config.default 256 0 Decoder.powerOn (by decide) (by decide)
  exact ⟨es, ar, by simp only [exec, execDictInit, Decoder.dictInit]; exact congrArg _ hrun, hin 255 (by decide)⟩

/-- V-AR-11. -/
theorem test_dictFirstByte : nextIs (exec (.dictFirstByte 257#12) (withDec decGrown)) (fun s => s.answer == .symbol 0x41#8)
    = true := by decide

/-- R36: an entry that holds no value. -/
theorem test_dictFirstByte_unwritten : exec (.dictFirstByte 300#12) (withDec decGrown) = .fault .unwrittenEntry := rfl

/-- V-AR-9: two bytes written, two of the block left alone. -/
theorem test_dictAdd : nextIs (exec (.dictAdd 65#12 0x41#8) (withDec (decRun 256#13)))
    (fun s => Memory.get? s.dec.entries 256 == some ⟨1024, 2⟩ && s.dec.dictSize == 257#13 && s.dec.aPtr == 1028
      && Memory.get? s.dec.arena 1024 == some 0x41#8 && Memory.get? s.dec.arena 1025 == some 0x41#8
      && Memory.get? s.dec.arena 1026 == none) = true := by decide

/-- V-AR-12. -/
theorem test_dictEmit : nextIs (exec (.dictEmit 257#12) (withDec decGrown))
    (fun s => s.dec.sink.accepted == [0x41#8, 0x41#8, 0x42#8] && s.dec.dictSize == 258#13) = true := by decide

/-- R177: the bytes before the failing write have been delivered. -/
theorem test_dictEmit_fails : nextIs (exec (.dictEmit 257#12) (withDec (decGrown.setSink (answering [.ok, .ok, .fail]))))
    (fun s => s.dec.sink.accepted == [0x41#8, 0x41#8] && s.dec.phase == .fault && s.dec.faultCause == .sinkFail) = true := by decide

/-! ## The decoder driver -/

/-- V-DEC-8, first code. -/
theorem test_decFirst : nextIs (exec (.decFirst 65#8) (withDec (((decRun 256#13).setPhase .first).setPrevCode 0#12)))
    (fun s => s.dec.phase == .run && s.dec.prevCode == 65#12 && s.dec.sink.accepted == [0x41#8] && s.dec.dictSize == 256#13)
    = true := by decide

/-- V-DEC-F2. -/
theorem test_decFirst_fails : nextIs (exec (.decFirst 65#8)
      (withDec ((((decRun 256#13).setPhase .first).setPrevCode 9#12).setSink (answering [.fail]))))
    (fun s => s.dec.phase == .fault && s.dec.prevCode == 9#12 && s.dec.sink.accepted == []) = true := by decide

/-- V-DEC-14. -/
theorem test_decFirstBad_256 : nextIs (exec (.decFirstBad 256#12) (withDec ((decRun 256#13).setPhase .first)))
    (fun s => s.dec.phase == .fault && s.dec.faultCause == .noPrevCode && s.dec.faultCode == 256#12
      && s.dec.faultDictSize == 256#13) = true := by decide

/-- V-DEC-15. -/
theorem test_decFirstBad_4095 : nextIs (exec (.decFirstBad 4095#12) (withDec ((decRun 256#13).setPhase .first)))
    (fun s => s.dec.faultCause == .corruptCode && s.dec.faultCode == 4095#12) = true := by decide

/-- V-DEC-18. -/
theorem test_decCodeCorrupt : nextIs (exec (.decCodeCorrupt 4000#12) (withDec (decRun 256#13)))
    (fun s => s.dec.phase == .fault && s.dec.faultCause == .corruptCode && s.dec.faultCode == 4000#12
      && s.dec.faultDictSize == 256#13 && s.dec.sink.accepted == []) = true := by decide

/-- V-RST-3 (e): at 4096 no code is corrupt. -/
theorem test_decCodeCorrupt_not_at_4096 : exec (.decCodeCorrupt 4095#12) (withDec decFull) = .refused .notSelected := rfl

/-- V-DEC-8, third code. -/
theorem test_decCodeKnown : nextIs (exec (.decCodeKnown 66#12) (withDec (decRun 256#13)))
    (fun s => Memory.get? s.dec.entries 256 == some ⟨1024, 2⟩ && s.dec.seq? 256 == some [0x41#8, 0x42#8]
      && s.dec.sink.accepted == [0x42#8] && s.dec.prevCode == 66#12 && s.dec.dictSize == 257#13) = true := by decide

/-- The illegally small arena of section 2.4: AllocFail, nothing emitted. -/
theorem test_decCodeKnown_allocFail : nextIs (exec (.decCodeKnown 65#12) (under (arenaOf 1024) (withDec (decRun 256#13))))
    (fun s => s.dec.faultCause == .allocFail && s.dec.dictSize == 256#13 && s.dec.aPtr == 1024 && s.dec.prevCode == 65#12
      && s.dec.sink.accepted == []) = true := by decide

/-- V-DEC-4, second code. -/
theorem test_decCodeKwkwk : nextIs (exec (.decCodeKwkwk 256#12) (withDec (decRun 256#13)))
    (fun s => s.dec.sink.accepted == [0x41#8, 0x41#8] && s.dec.prevCode == 256#12 && s.dec.dictSize == 257#13
      && s.dec.seq? 256 == some [0x41#8, 0x41#8]) = true := by decide

/-- V-DEC-F1: the entry is added, `prevCode` is not reached. -/
theorem test_decCodeKwkwk_fails : nextIs (exec (.decCodeKwkwk 256#12) (withDec ((decRun 256#13).setSink (answering [.fail]))))
    (fun s => s.dec.phase == .fault && s.dec.faultCause == .sinkFail && s.dec.dictSize == 257#13
      && Memory.get? s.dec.entries 256 == some ⟨1024, 2⟩ && s.dec.prevCode == 65#12) = true := by decide

/-- V-RST-3 (b). -/
theorem test_decCodeReset : nextIs (exec (.decCodeReset 65#8) (withDec decFull))
    (fun s => s.dec.dictSize == 256#13 && s.dec.aPtr == 1024 && s.dec.prevCode == 65#12 && s.dec.sink.accepted == [0x41#8]
      && Memory.get? s.dec.entries 300 == some ⟨1200, 2⟩) = true := by decide

/-- V-RST-3 (a). -/
theorem test_decCodeStale : nextIs (exec (.decCodeStale 300#12) (withDec decFull))
    (fun s => s.dec.phase == .fault && s.dec.faultCause == .staleCode && s.dec.faultCode == 300#12
      && s.dec.faultDictSize == 4096#13 && s.dec.dictSize == 4096#13 && s.dec.aPtr == 16384) = true := by decide

/-- U3: under the legacy policy the retained bytes are emitted and the code becomes `prevCode`. -/
theorem test_decCodeStale_legacy : nextIs (exec (.decCodeStale 300#12) (under ⟨8402944, .silent, .legacy⟩ (withDec decFull)))
    (fun s => s.dec.sink.accepted == [0x00#8, 0x17#8] && s.dec.dictSize == 256#13 && s.dec.aPtr == 1024
      && s.dec.prevCode == 300#12) = true := by decide

/-- V-DEC-10: FIRST to DONE. -/
theorem test_decEos : nextIs (exec .decEos (withDec ((decRun 256#13).setPhase .first)))
    (fun s => s.dec.phase == .done && s.dec.sink.accepted == []) = true := by decide

/-! ## Streams and host -/

/-- R220. -/
theorem test_srcRead : nextIs (exec (.srcRead .encoder) (withEnc ((encRun 0#12 256#13 []).setSource [0x41#8, 0x42#8])))
      (fun s => s.answer == .symbol 0x41#8 && s.enc.source == [0x42#8]) = true
    ∧ nextIs (exec (.srcRead .decoder) (withDec (decRun 256#13))) (fun s => s.answer == .eos) = true := by decide

/-- R221: a failing sink accepts nothing. -/
theorem test_snkWrite : nextIs (exec (.snkWrite .decoder 0x41#8) (withDec ((decRun 256#13).setSink ⟨[0x40#8], [.fail]⟩)))
      (fun s => s.answer == .sink .fail && s.dec.sink.accepted == [0x40#8] && s.dec.phase == .run) = true
    ∧ nextIs (exec (.snkWrite .encoder 0x41#8) (withEnc ((encRun 0#12 256#13 []).setSink ⟨[0x40#8], []⟩)))
      (fun s => s.answer == .sink .ok && s.enc.sink.accepted == [0x40#8, 0x41#8]) = true := by decide

/-- V-HOST-6: a second run finds an empty trie. -/
theorem test_encStart : nextIs (exec .encStart (withEnc ((encRun 65#12 258#13 [(65 * 256 + 0x41, 256#12)]).setPhase .done)))
    (fun s => s.enc.phase == .first && s.enc.trie == [] && s.enc.dictSize == 256#13 && s.answer == .startAccepted) = true := by decide

/-- V-HOST-5. -/
theorem test_encStart_refused : exec .encStart (withEnc (encRun 65#12 256#13 []))
    = .next ((withEnc (encRun 65#12 256#13 [])).setAnswer .startRefused) := rfl

/-- DEC.START of a unit that is not running is the unit's start, accepted. -/
theorem decStart_eq (s : State) (h : running s.dec.phase = false) : exec .decStart s
    = ((s.setAnswer .startAccepted).setDraws (s.draws + 1)).endDec (s.dec.start s.config (Config.freeCode s.draws)) := by
  simp [exec, execDecStart, h]

/-- V-AR-2, V-AR-3 and R36: DEC.START with the default arena. -/
theorem test_decStart (s : State) (hc : s.config = Config.default) (h : running s.dec.phase = false) :
    ∃ t, exec .decStart s = .next t ∧ t.dec.phase = .first ∧ t.dec.aPtr = 1024
    ∧ t.dec.aMark = 1024 ∧ t.dec.dictSize = 256#13 ∧ Memory.get? t.dec.entries 65 = some ⟨260, 1⟩ := by
  obtain ⟨es, ar, hrun, hin, _⟩ := s.dec.start_spec s.config (Config.freeCode s.draws) (by rw [hc]; decide)
  rw [decStart_eq s h, hrun]
  exact ⟨_, rfl, rfl, rfl, rfl, rfl, (hin 65 (by decide)).1⟩

/-- Section 2.4: with an arena of 1020 bytes DEC.START itself faults. -/
theorem test_decStart_allocFail (s : State) (hc : s.config = arenaOf 1020) (h : running s.dec.phase = false) :
    ∃ t, exec .decStart s = .next t ∧ t.dec.phase = .fault ∧ t.dec.faultCause = .allocFail := by
  obtain ⟨es, ar, ptr, hrun, _⟩ := s.dec.start_allocFail s.config (Config.freeCode s.draws) (by rw [hc]; decide)
  rw [decStart_eq s h, hrun]
  exact ⟨_, rfl, rfl, rfl⟩

/-- V-HOST-2. -/
theorem test_statusRead : nextIs (exec (.statusRead .decoder) (withDec ((decRun 256#13).raise .corruptCode 4000#12 256#13)))
    (fun s => s.answer == .status 4#3 1#3 4000#12 256#13) = true := by decide

/-- V-HOST-1: IDLE. -/
theorem test_statusRead_idle : nextIs (exec (.statusRead .encoder) State.reset)
    (fun s => match s.answer with
      | .status p _ _ _ => p == 0#3
      | _ => false) = true := by decide

/-! ## The step -/

/-- V-ENC-6: the third byte of `41 41 41`, from the host's agenda. -/
theorem test_step_encoder : nextIs (step ((withEnc ((encRun 65#12 257#13 [(65 * 256 + 0x41, 256#12)]).setSource [0x41#8])).setAgenda
      [.encoder])) (fun s => s.enc.curNode == 256#12 && s.enc.source == [] && s.agenda == []) = true := by decide

/-- V-DEC-16: the second code of `04 11 01`. -/
theorem test_step_decoder : nextIs (step (withDec (((decRun 256#13).setSource (.stream [0x01#8])).setResidual true 1#4)))
    (fun s => s.dec.phase == .fault && s.dec.faultCode == 257#12 && !s.dec.rHave) = true := by decide

/-- V-DEC-13 under the `report` policy. -/
theorem test_step_truncated : nextIs (step (under ⟨8402944, .report, .fault⟩ (withDec ((decRun 256#13).setSource (.stream [0x04#8])))))
    (fun s => s.dec.phase == .fault && s.dec.faultCause == .truncated && s.dec.faultCode == 0#12) = true := by decide

/-- R36, R153: a placed first symbol finds the encoder as ENC.START leaves it. -/
theorem test_placed_symbol : (State.reset.withFetchWord 8 0x41).enc.phase = .first
    ∧ (State.reset.withFetchWord 8 0x41).enc.dictSize = 256#13 ∧ (State.reset.withFetchWord 8 0x41).enc.source = [0x41#8] := by decide

/-- U8: a unit in DONE takes no step. -/
theorem test_step_done : step ((withDec ((decRun 256#13).setPhase .done)).setAgenda [.decoder])
    = .next (withDec ((decRun 256#13).setPhase .done)) := rfl

/-- R230: an encoder that has delivered `04 10` and reached DONE, and a decoder that reads its sink and has taken one byte. -/
def piped : State :=
  (withDec ((decRun 256#13).setSource (.pipe 1))).setEnc
    ((((encRun 65#12 256#13 []).setSinkNew false).setSink ⟨[0x04#8, 0x10#8], []⟩).setPhase .done)

/-- R230, R70: a fresh sink for the encoder takes no byte from the decoder, which reads `10` and then EOS. -/
theorem test_fresh_sink_keeps_the_pipe : nextIs (exec (.srcRead .decoder) (piped.attachEncoder [] []))
      (fun s => s.answer == .symbol 0x10#8 && nextIs (exec (.srcRead .decoder) s) (fun t => t.answer == .eos)) = true := by decide

/-- R230: a pipe to the fresh sink does not end before the encoder's next run has. -/
theorem test_fresh_sink_has_not_ended : nextIs (exec (.srcRead .decoder)
    (withDec (decRun 256#13) |>.setEnc (piped.attachEncoder [] []).enc |>.setDec ((decRun 256#13).setSource (.pipe 0))))
      (fun s => s.answer == .waiting) = true := by decide

/-! ## Witnesses: for every statement with hypotheses, a state and operands that meet them, clause by clause -/

/-- A decoder after DEC.START with the default arena. -/
@[irreducible] def startedDec : Decoder := Decoder.powerOn.started Config.default 0#12

/-- What DEC.START leaves. -/
theorem startedDec_spec : startedDec.Live Config.default ∧ startedDec.phase = .first ∧ startedDec.Inv Config.default
    ∧ startedDec.sink = ⟨[], []⟩ ∧ startedDec.dictSize = 256#13 ∧ startedDec.rHave = false := by
  unfold startedDec
  obtain ⟨l, hp, i, hs, _, hd, hr, _⟩ := Decoder.started_live Config.default 0#12 Decoder.powerOn (by decide)
  exact ⟨l, hp, i, hs, hd, hr⟩

/-- Both units just started: the encoder with one byte to read, the decoder with one code. -/
def ready : State :=
  ((State.reset.setEnc ((Encoder.powerOn.start 0#12).setSource [0x41#8])).setDec
    (startedDec.setSource (.stream [0x04#8, 0x10#8])))

/-- What DEC.START leaves, as the statements need it. -/
theorem ready_dec : ready.dec.Live ready.config ∧ ready.dec.phase = .first ∧ ready.dec.Inv ready.config
    ∧ ready.dec.rHave = false ∧ ready.dec.dictSize = 256#13 ∧ ready.dec.source = .stream [0x04#8, 0x10#8]
    ∧ ready.dec.sink = ⟨[], []⟩ := by
  obtain ⟨l, hp, i, hs, hd, hr⟩ := startedDec_spec
  have l' : ready.dec.Live ready.config := ⟨l.size, l.prev, l.literals, l.blocks, l.ptr, l.room, l.lengths, l.grown, l.mark, l.fresh⟩
  exact ⟨l', hp, ⟨i.entriesCanonical, i.arenaCanonical, i.residual, i.record, i.bare, fun _ => l'⟩, hr, hd, rfl, hs⟩

/-- The invariant holds in a state where both units run. -/
theorem witness_Inv : ready.Inv ∧ running ready.enc.phase = true ∧ running ready.dec.phase = true := by
  have e := (Encoder.start_live 0#12 Encoder.powerOn).2
  refine ⟨⟨rfl, rfl, ⟨e.canonical, e.residual, e.record, fun h => ?_⟩, ready_dec.2.2.1⟩, rfl, ?_⟩
  · have l := e.live h
    exact ⟨l.size, l.node, l.children, l.once, l.fresh⟩
  · rw [ready_dec.2.1]
    rfl

/-- The step of the encoder in that state. -/
theorem ready_step : ∃ s', step ready = .next s' ∧ s'.enc.phase = .run ∧ s'.dec = ready.dec :=
  ⟨_, rfl, rfl, rfl⟩

/-- The decoder's turn in that state selects DEC.FIRST. -/
theorem ready_fetch : (ready.setAgenda [.decoder]).fetch
    = .run (.decFirst 65#8) (ready.setDec ((ready.dec.setSource (.stream [])).setResidual true 0#4)) := by
  obtain ⟨_, hp, _, hr, hd, hs, _⟩ := ready_dec
  have hport : ready.port = none := rfl
  simp only [State.fetch, State.setAgenda_port, hport, State.setAgenda_agenda, State.fetchTurn, State.fetchDecoder,
    State.setAgenda_dec, hp, running, if_true, Decoder.getCode, hr, Decoder.read, hs, Decoder.setSource_source, hd]
  rfl

theorem witness_PackOfUnpack : pack (unpack []) = [] ∧ pack (unpack [0x04#8, 0x10#8]) = [0x04#8, 0x10#8]
    ∧ pack (unpack [0x04#8, 0x1F#8]) ≠ [0x04#8, 0x1F#8] ∧ pack (unpack [0x04#8]) ≠ [0x04#8] := by decide

theorem witness_SelectionTables : (State.reset.setAgenda [.host .encStart]).port = none
    ∧ (State.reset.setAgenda [.host .encStart]).agenda = .host .encStart :: []
    ∧ (State.reset.setAgenda [.host .decStart]).agenda = .host .decStart :: [] ∧ (4096#13 : DictSize).toNat ≤ 4096
    ∧ (Phase.first = .first ∨ Phase.first = .run) ∧ (Phase.run = .first ∨ Phase.run = .run) := by decide

theorem witness_OperandWords : (Instr.decFirstBad 256#12).WellFormed = true ∧ (Instr.decFirstBad 4095#12).WellFormed = true
    ∧ (1#12 : Code).toNat ≠ 0 ∧ (4095#13 : DictSize).toNat < 4096 ∧ (4094#13 : DictSize).toNat < (4095#12 : Code).toNat
    ∧ (4094#12 : Code).toNat < (4095#13 : DictSize).toNat ∧ (4095#12 : Code).toNat = (4095#13 : DictSize).toNat
    ∧ (Instr.decCodeStale 256#12).WellFormed = true := by decide

theorem witness_Step_port : (State.reset.setPort (some .trieClear)).port = some .trieClear := rfl

theorem witness_Step_encoder : ready.port = none ∧ running ready.enc.phase = true ∧ ready.agenda = []
    ∧ (ready.setAgenda [.encoder]).agenda = .encoder :: []
    ∧ decodeEnc ready.enc.phase (ready.enc.cellFor ready.enc.read.1) ready.enc.dictSize ready.enc.read.1
      = .instr (.encFirst 0x41#8) := ⟨rfl, rfl, rfl, rfl, rfl⟩

theorem witness_Step_decoder : ∃ d, ready.dec.getCode ready.config ready.enc.feed = .ok (some (.code 65#12)) d
    ∧ decodeDec ready.dec.phase ready.dec.dictSize (.code 65#12) = .instr (.decFirst 65#8)
    ∧ running ready.dec.phase = true ∧ running (ready.setEnc Encoder.powerOn).enc.phase = false := by
  obtain ⟨_, hp, _, hr, hd, hs, _⟩ := ready_dec
  refine ⟨(ready.dec.setSource (.stream [])).setResidual true 0#4, ?_, ?_, ?_, rfl⟩
  · simp only [Decoder.getCode, hr, Decoder.read, hs, Decoder.setSource_source, if_true]
    rfl
  · rw [hp, hd]
    decide
  · rw [hp]
    rfl

theorem witness_Step_host : (State.reset.setAgenda [.host (.statusRead .decoder)]).agenda = .host (.statusRead .decoder) :: []
    ∧ (State.reset.setAgenda [.host (.attachEncoder [0x41#8] [])]).agenda = .host (.attachEncoder [0x41#8] []) :: []
    ∧ (State.reset.setAgenda [.host (.attachDecoder (.pipe 0) [])]).agenda = .host (.attachDecoder (.pipe 0) []) :: [] := ⟨rfl, rfl, rfl⟩

theorem witness_PlacedWord : decodeTableWord 24 0xFFFFFF = some (.packPair3 4095#12 4095#12)
    ∧ decodeTableWord 12 0x0FF = some (.decFirst 255#8) ∧ decodeTableWord 12 0x100 = some (.decFirstBad 256#12) := by decide

theorem witness_UnitOutsideARun : State.reset.port = none ∧ running State.reset.enc.phase = false
    ∧ running State.reset.dec.phase = false ∧ State.reset.agenda = [] ∧ step State.reset = .next State.reset
    ∧ (∀ c rest, (State.reset.setAgenda [.encoder]).agenda ≠ .host c :: rest)
    ∧ (∃ s', step (State.reset.setAgenda [.encoder]) = .next s') ∧ ∃ s', step (State.reset.setAgenda [.decoder]) = .next s' :=
  ⟨rfl, rfl, rfl, rfl, rfl, fun _ _ => by simp, ⟨_, rfl⟩, ⟨_, rfl⟩⟩

theorem witness_SelectedOperation : ∃ s1 i, ready.port = none ∧ ready.fetch = .run i s1 := ⟨_, _, rfl, rfl⟩

theorem witness_TurnedAway : exec (.encFirst 0#8) State.reset = .refused .notSelected ∧ rowHolds (.encFirst 0#8) State.reset = false
    ∧ rowHolds (.encByteAdd 0#8) (withEnc (encRun 0#12 4095#13 [])) = true
    ∧ rowHolds (.encByteAdd 0#8) (withEnc (encRun 0#12 4096#13 [])) = false
    ∧ rowHolds (.decCodeKnown 256#12) (withDec (decRun 256#13)) = false
    ∧ rowHolds (.decCodeKwkwk 256#12) (withDec (decRun 256#13)) = true
    ∧ rowHolds (.decCodeCorrupt 257#12) (withDec (decRun 256#13)) = true
    ∧ exec (.packTail2 1#12) (withEnc (encHold 0#12 256#13 5#4)) = .refused .notAtCodeBoundary := ⟨rfl, by decide, by decide, by decide, by decide, by decide, by decide, rfl⟩

/-- The two sides of `EncoderWrites` and `DecoderWrites`: a sink that accepts, and one whose first failing write is the first, the second, the third. -/
theorem witness_Sinks : (answering []).accepts 3 = true ∧ (answering [.ok, .ok, .ok]).accepts 3 = true
    ∧ (answering [.fail]).failsAt 0 = true ∧ (answering [.ok, .fail]).failsAt 1 = true
    ∧ (answering [.ok, .ok, .fail]).failsAt 2 = true ∧ (answering [.ok, .fail]).accepts 2 = false := by decide

theorem witness_Pack : (withEnc (encHold 0#12 256#13 5#4)).enc.wHave = true ∧ (withEnc (encRun 0#12 256#13 [])).enc.wHave = false
    ∧ (withEnc (encRun 0#12 256#13 [])).enc.wNib = 0#4 ∧ (withEnc (encRun 0#12 256#13 [])).enc.sink.accepts 3 = true := by decide

theorem witness_GetCode_stream : (decRun 256#13).rHave = false ∧ ((decRun 256#13).setSource (.stream [])).source = .stream []
    ∧ ((decRun 256#13).setSource (.stream [0x04#8])).source = .stream [0x04#8] ∧ ((decRun 256#13).setResidual true 15#4).rHave = true
    ∧ (arenaOf 0).truncation = .silent ∧ (⟨0, .report, .fault⟩ : Config).truncation = .report := by decide

/-- A pipe: the encoder has delivered `04 11`, the decoder has taken none, one, or both. -/
theorem witness_GetCode_pipe : ((decRun 256#13).setSource (.pipe 0)).source = .pipe 0
    ∧ (((encRun 0#12 256#13 []).setSink ⟨[0x04#8, 0x11#8], []⟩).sink.accepted.drop 0 = 0x04#8 :: 0x11#8 :: [])
    ∧ (((encRun 0#12 256#13 []).setSink ⟨[0x04#8, 0x11#8], []⟩).sink.accepted.drop 1).length ≤ 1
    ∧ (((encRun 0#12 256#13 []).setSink ⟨[0x04#8, 0x11#8], []⟩).sink.accepted.drop 2 = [])
    ∧ ¬((encRun 0#12 256#13 []).phase = .done ∧ (encRun 0#12 256#13 []).sinkNew = false)
    ∧ ((encRun 0#12 256#13 []).setPhase .done).sinkNew = true ∧ piped.dec.source = .pipe 1 ∧ piped.dec.rHave = false
    ∧ piped.enc.sink.accepted.drop 1 = [0x10#8] ∧ piped.enc.phase = .done ∧ piped.enc.sinkNew = false := by decide

theorem witness_FreshSink : running piped.enc.phase = false ∧ piped.dec.source = .pipe 1 := by decide

theorem witness_TrieLookup : (ready.setEnc (((Encoder.powerOn.start 0#12).setCurNode 65#12).setPhase .first)).enc.Live := by
  have l := (Encoder.start_live 65#12 Encoder.powerOn).1
  exact ⟨l.size, l.node, l.children, l.once, l.fresh⟩

theorem witness_EncFirst : (withEnc (Encoder.powerOn.setPhase .first)).enc.phase = .first := rfl

theorem witness_EncByte : (encRun 65#12 257#13 [(65 * 256 + 0x41, 256#12)]).lookup 65#12 0x41#8 ≠ 0#12
    ∧ (encRun 65#12 4095#13 []).phase = .run ∧ (encRun 65#12 4095#13 []).lookup 65#12 0x41#8 = 0#12
    ∧ (encRun 65#12 4095#13 []).dictSize.toNat < 4096 ∧ (encRun 65#12 4096#13 []).dictSize.toNat = 4096 := by decide

theorem witness_ArenaAlloc : ∃ size, size % 4 = 0 ∧ 2 ≤ size ∧ size < 2 + 4 ∧ (decRun 256#13).aPtr + size ≤ (arenaOf 1028).arenaBytes
    ∧ (arenaOf 1027).arenaBytes < (decRun 256#13).aPtr + size := ⟨4, by decide, by decide, by decide, by decide, by decide⟩

theorem witness_DictInit : (withDec Decoder.powerOn).dec.aPtr + 1024 ≤ (arenaOf 1024).arenaBytes
    ∧ (arenaOf 1023).arenaBytes < (withDec Decoder.powerOn).dec.aPtr + 1024 ∧ (1023 - Decoder.powerOn.aPtr) / 4 = 255 := by decide

theorem witness_DictFirstByte : Memory.get? (decRun 256#13).entries (65#12 : Code).toNat = some ⟨260, 1⟩
    ∧ 260 < (arenaOf 261).arenaBytes ∧ Memory.get? (decRun 256#13).arena 260 = some 0x41#8
    ∧ Memory.get? (decRun 256#13).entries (4095#12 : Code).toNat = none
    ∧ Memory.get? ((decRun 256#13).setArena []).arena 260 = none
    ∧ (decRun 256#13).aPtr + round4 (1 + 1) ≤ (arenaOf 1028).arenaBytes := by decide

theorem witness_Live : ready.dec.Live ready.config := ready_dec.1

theorem witness_DictAdd : (decRun 4095#13).holds (arenaOf 1028) 65#12 [0x41#8] = true ∧ (decRun 4095#13).dictSize.toNat < 4096
    ∧ (decRun 4095#13).aPtr + round4 ([0x41#8].length + 1) ≤ (arenaOf 1028).arenaBytes
    ∧ (decRun 4095#13).holds (arenaOf 1027) 65#12 [0x41#8] = true
    ∧ (arenaOf 1027).arenaBytes < (decRun 4095#13).aPtr + round4 ([0x41#8].length + 1) := by decide

/-- The source block at the new block's own offset (U3): the retained entry 300 lies at the mark. -/
theorem witness_DictAdd_downward : Memory.get? [(300, (⟨1024, 2⟩ : Entry))] (300#12 : Code).toNat = some ⟨1024, 2⟩
    ∧ readRange [(1024, 0x00#8), (1025, 0x17#8)] 2 1024 = some [0x00#8, 0x17#8] ∧ (decRun 256#13).aPtr ≤ 1024
    ∧ 1024 + 2 ≤ (arenaOf 1028).arenaBytes ∧ (decRun 256#13).aPtr + round4 ([0x00#8, 0x17#8].length + 1) ≤ (arenaOf 1028).arenaBytes := by decide

theorem witness_DictEmit : decGrown.holds Config.default 257#12 [0x41#8, 0x41#8, 0x42#8] = true := by decide

theorem witness_DecFirst : ready.dec.Live ready.config ∧ ready.dec.phase = .first ∧ ready.dec.sink.accepts 1 = true :=
  ⟨ready_dec.1, ready_dec.2.1, by rw [ready_dec.2.2.2.2.2.2]; decide⟩

theorem witness_DecFirstBad : ((decRun 256#13).setPhase .first).phase = .first ∧ 256 < (257#12 : Code).toNat
    ∧ (256#12 : Code).toNat = 256 := by decide

theorem witness_DecCodeCorrupt : (decRun 256#13).phase = .run ∧ (decRun 256#13).dictSize.toNat < (257#12 : Code).toNat := by decide

/-- `prevCode` 65 and the code 66, both below `dictSize`; the arena that just fits, and the one that does not. -/
theorem witness_DecCodeKnown : (decRun 4095#13).phase = .run ∧ (decRun 4095#13).dictSize.toNat < 4096
    ∧ (66#12 : Code).toNat < (decRun 4095#13).dictSize.toNat
    ∧ (decRun 4095#13).holds (arenaOf 1028) (decRun 4095#13).prevCode [0x41#8] = true
    ∧ (decRun 4095#13).holds (arenaOf 1028) 66#12 (0x42#8 :: []) = true
    ∧ (decRun 4095#13).aPtr + round4 ([0x41#8].length + 1) ≤ (arenaOf 1028).arenaBytes
    ∧ (decRun 4095#13).holds (arenaOf 1027) 66#12 (0x42#8 :: []) = true
    ∧ (arenaOf 1027).arenaBytes < (decRun 4095#13).aPtr + round4 ([0x41#8].length + 1) := by decide

theorem witness_DecCodeKwkwk : (4095#12 : Code).toNat = (decRun 4095#13).dictSize.toNat
    ∧ (decRun 4095#13).holds (arenaOf 1028) (decRun 4095#13).prevCode (0x41#8 :: []) = true
    ∧ (decRun 4095#13).aPtr + round4 (([] : List Byte).length + 2) ≤ (arenaOf 1028).arenaBytes
    ∧ (arenaOf 1027).arenaBytes < (decRun 4095#13).aPtr + round4 (([] : List Byte).length + 2) := by decide

theorem witness_DecCodeReset : decFull.phase = .run ∧ decFull.dictSize.toNat = 4096
    ∧ decFull.holds Config.default (literalCode 65#8) (0x41#8 :: []) = true := by decide

theorem witness_DecCodeStale : decFull.phase = .run ∧ decFull.dictSize.toNat = 4096 ∧ 256 ≤ (256#12 : Code).toNat
    ∧ Config.default.stale = .fault ∧ (⟨8402944, .silent, .legacy⟩ : Config).stale = .legacy
    ∧ decFull.holds ⟨8402944, .silent, .legacy⟩ 300#12 (0x00#8 :: [0x17#8]) = true := by decide

theorem witness_DecEos : (decRun 256#13).phase = .run ∧ ((decRun 256#13).setPhase .first).phase = .first := by decide

theorem witness_SrcRead : ready.enc.source = 0x41#8 :: [] ∧ Encoder.powerOn.source = [] ∧ Decoder.powerOn.source = .stream []
    ∧ ((decRun 256#13).setSource (.stream [0x04#8])).source = .stream (0x04#8 :: [])
    ∧ piped.dec.source = .pipe 1 ∧ piped.enc.sink.accepted.drop 1 = 0x10#8 :: [] ∧ piped.enc.sink.accepted.drop 2 = [] :=
  ⟨rfl, rfl, rfl, rfl, rfl, rfl, rfl⟩

theorem witness_Start : running State.reset.enc.phase = false ∧ running State.reset.dec.phase = false
    ∧ 1024 ≤ (arenaOf 1024).arenaBytes ∧ (arenaOf 1023).arenaBytes < 1024 ∧ running (encRun 0#12 256#13 []).phase = true
    ∧ running ((decRun 256#13).setPhase .first).phase = true := by decide

/-- An operation of each unit that ends in a next state, and a decoder with no pipe. -/
theorem witness_UnitsShareNoState : (∃ s', exec .trieClear State.reset = .next s') ∧ (∃ s', exec .arenaMark State.reset = .next s')
    ∧ unitOf .trieClear = .encoder ∧ unitOf .arenaMark = .decoder ∧ ∀ taken, State.reset.dec.source ≠ .pipe taken :=
  ⟨⟨_, rfl⟩, ⟨_, rfl⟩, rfl, rfl, fun _ h => by cases h⟩

theorem witness_Phases : ready.port = none ∧ ∃ s', step ready = .next s' := ⟨rfl, _, rfl⟩

theorem witness_Canonical : State.reset.canonical = true ∧ (∃ s', step (State.reset.setPort (some (.trieInsert 0#12 0#8 256#12))) = .next s')
    ∧ (State.reset.setPort (some (.trieInsert 0#12 0#8 256#12))).canonical = true := ⟨rfl, ⟨_, rfl⟩, rfl⟩

/-- The invariant statements: both units run, the arena is legal, no AllocFail has been taken, and the step is made. -/
theorem witness_StepKeepsInvariants : ready.port = none ∧ ready.config.stale = .fault ∧ ready.enc.Inv ∧ ready.dec.Inv ready.config
    ∧ ready.config.legal = true ∧ ready.dec.faultCause ≠ .allocFail ∧ ∃ s', step ready = .next s' := by
  refine ⟨rfl, rfl, witness_Inv.1.enc, witness_Inv.1.dec, rfl, ?_, _, rfl⟩
  rw [witness_Inv.1.dec.record.2 (by rw [ready_dec.2.1]; decide)]
  decide

theorem witness_ValidEntries : ready.dec.Live ready.config ∧ 0 < ready.dec.dictSize.toNat ∧ 255 < ready.dec.dictSize.toNat := by
  refine ⟨ready_dec.1, ?_, ?_⟩ <;> rw [ready_dec.2.2.2.2.1] <;> decide

end Sys2Proof.Tests
end

section
/-! SUPPORT. What a step fetches, said once per kind of turn, and what it then performs (R8, R99, R100, R223). -/

namespace Sys2Proof.Machine

/-! ## What a step fetches -/

/-- An operation presented is fetched before any turn (notes/assumptions/11.md). -/
theorem State.fetch_of_port {s : State} {i : Instr} (hp : s.port = some i) : s.fetch = .run i (s.setPort none) := by
  simp only [State.fetch, hp]

/-- With nothing presented, the first turn listed is taken off the agenda and fetched. -/
theorem State.fetch_of_agenda_cons {s : State} {t : Turn} {rest : List Turn} (hp : s.port = none)
    (ha : s.agenda = t :: rest) : s.fetch = (s.setAgenda rest).fetchTurn t := by
  simp only [State.fetch, hp, ha]

/-- With nothing presented and nothing listed, the units run by themselves (notes/assumptions/1.md). -/
theorem State.fetch_of_agenda_nil {s : State} (hp : s.port = none) (ha : s.agenda = []) : s.fetch = s.fetchFree := by
  simp only [State.fetch, hp, ha]

/-- By themselves, the encoder runs first. -/
theorem State.fetchFree_of_encoder_running {s : State} (he : running s.enc.phase = true) :
    s.fetchFree = s.fetchEncoder := by
  simp only [State.fetchFree, he, if_true]

/-- By themselves, the decoder runs where the encoder does not. -/
theorem State.fetchFree_of_decoder_running {s : State} (he : running s.enc.phase = false)
    (hd : running s.dec.phase = true) : s.fetchFree = s.fetchDecoder := by
  simp only [State.fetchFree, he, hd, Bool.false_eq_true, if_false, if_true]

/-- The turn of a running encoder whose next event selects `i` (R99). -/
theorem State.fetchEncoder_of_decodeEnc {s : State} {i : Instr} (hr : running s.enc.phase = true)
    (hi : decodeEnc s.enc.phase (s.enc.cellFor s.enc.read.1) s.enc.dictSize s.enc.read.1 = .instr i) :
    s.fetchEncoder = .run i (s.setEnc s.enc.read.2) := by
  simp only [State.fetchEncoder, hr, if_true, hi, Fetched.ofDecoded]

/-- The turn of a running decoder whose GETCODE returns an event that selects `i` (R100, R123). -/
theorem State.fetchDecoder_of_decodeDec {s : State} {ev : CodeEvent} {d : Decoder} {i : Instr}
    (hr : running s.dec.phase = true) (hg : s.dec.getCode s.config s.enc.feed = .ok (some ev) d)
    (hi : decodeDec s.dec.phase s.dec.dictSize ev = .instr i) : s.fetchDecoder = .run i (s.setDec d) := by
  simp only [State.fetchDecoder, hr, if_true, hg, hi, Fetched.ofDecoded]

/-! ## What a step performs -/

theorem step_of_fetch_run {s s1 : State} {i : Instr} (h : s.fetch = .run i s1) : step s = exec i s1 := by
  rw [step_eq_perform, h, perform]

theorem step_of_fetch_quiet {s s1 : State} (h : s.fetch = .quiet s1) : step s = .next s1 := by
  rw [step_eq_perform, h, perform]

/-- Settles O9: what each kind of turn fetches is performed; a unit's turn is fetched in the state with the turn taken off the agenda, whose units are those of `s`. -/
theorem stepPerformsTheSelectedOperation : Obligations.StepPerformsTheSelectedOperation := by
  unfold Obligations.StepPerformsTheSelectedOperation
  refine ⟨?port, ?encoderTurn, ?decoderTurn, ?encoderFree, ?decoderFree, ?hostTurn⟩
  case port => exact fun s i hp => step_of_fetch_run (State.fetch_of_port hp)
  case encoderTurn =>
    intro s rest i hp ha hr hi
    apply step_of_fetch_run
    rw [State.fetch_of_agenda_cons hp ha]
    exact State.fetchEncoder_of_decodeEnc (s := s.setAgenda rest) hr hi
  case decoderTurn =>
    intro s rest ev d i hp ha hr hg hi
    apply step_of_fetch_run
    rw [State.fetch_of_agenda_cons hp ha]
    exact State.fetchDecoder_of_decodeDec (s := s.setAgenda rest) hr hg hi
  case encoderFree =>
    intro s i hp ha hr hi
    apply step_of_fetch_run
    rw [State.fetch_of_agenda_nil hp ha, State.fetchFree_of_encoder_running hr]
    exact State.fetchEncoder_of_decodeEnc hr hi
  case decoderFree =>
    intro s ev d i hp ha he hr hg hi
    apply step_of_fetch_run
    rw [State.fetch_of_agenda_nil hp ha, State.fetchFree_of_decoder_running he hr]
    exact State.fetchDecoder_of_decodeDec hr hg hi
  case hostTurn =>
    intro s rest hp
    have hf : ∀ c, s.agenda = .host c :: rest → s.fetch = (s.setAgenda rest).fetchHost c :=
      fun _ ha => State.fetch_of_agenda_cons hp ha
    exact ⟨fun ha => step_of_fetch_run (hf _ ha), fun ha => step_of_fetch_run (hf _ ha),
      fun _ ha => step_of_fetch_run (hf _ ha), fun _ _ ha => step_of_fetch_quiet (hf _ ha),
      fun _ _ ha => step_of_fetch_quiet (hf _ ha)⟩

end Sys2Proof.Machine
end

section
/-! SUPPORT. An operation of one unit sees and changes that unit alone (R35): said once for the encoder's operations and once for the decoder's. -/

namespace Sys2Proof.Machine

/-- `s` with what an operation of the encoder can change taken from `u`: the unit, the answer, the count of free values. -/
def State.takeEnc (s u : State) : State := ((s.setEnc u.enc).setAnswer u.answer).setDraws u.draws

/-- `s` with what an operation of the decoder can change taken from `u`. -/
def State.takeDec (s u : State) : State := ((s.setDec u.dec).setAnswer u.answer).setDraws u.draws

/-- An operation refused under the same condition does in one state what it does in the other. -/
theorem onNext_guard {c : Prop} [Decidable c] {f : State → State} {r : Refusal}
    {a b : Host.Outcome State Fault Refusal} (h : a = onNext f b) :
    (if c then a else .refused r) = onNext f (if c then b else .refused r) := by
  by_cases hc : c
  · simpa only [hc, if_true] using h
  · simp only [hc, if_false, onNext]

/-! ## The encoder's operations -/

theorem State.endEnc_local {s t : State} (ha : t.answer = s.answer) (hn : t.draws = s.draws) (r : Run Encoder Unit) :
    s.endEnc r = onNext s.takeEnc (t.endEnc r) := by
  cases r <;> simp only [State.endEnc, onNext, State.takeEnc, State.setEnc_answer, State.setEnc_draws, ha, hn] <;> rfl

/-- An operation of the encoder sees of the state the unit, the answer and the count of free values, and changes nothing else. -/
theorem exec_encoder_local {i : Instr} (hi : unitOf i = .encoder) {s t : State} (he : t.enc = s.enc)
    (ha : t.answer = s.answer) (hn : t.draws = s.draws) : exec i s = onNext s.takeEnc (exec i t) := by
  have ends : ∀ r, s.endEnc r = onNext s.takeEnc (t.endEnc r) := State.endEnc_local ha hn
  obtain ⟨c, e, d, ag, p, an, n⟩ := s
  obtain ⟨c', e', d', ag', p', an', n'⟩ := t
  obtain rfl : e' = e := he
  obtain rfl : an' = an := ha
  obtain rfl : n' = n := hn
  cases i with
  | packPair3 => exact onNext_guard (ends _)
  | packTail2 => exact onNext_guard (ends _)
  | putCode => exact ends _
  | putLast => exact ends _
  | trieLookup => rfl
  | trieInsert => rfl
  | trieClear => rfl
  | encFirst => exact onNext_guard rfl
  | encByteHit => exact onNext_guard rfl
  | encByteAdd => exact onNext_guard (ends _)
  | encByteReset => exact onNext_guard (ends _)
  | encEos => exact onNext_guard (ends _)
  | encEosEmpty => exact onNext_guard rfl
  | encStart =>
    simp only [exec, execEncStart]
    by_cases h : running e'.phase = true
    · simp only [h, if_true]; rfl
    · simp only [h]; rfl
  | srcRead => cases hi; rfl
  | snkWrite => cases hi; rfl
  | statusRead => cases hi; rfl
  | _ => cases hi

/-! ## The decoder's operations -/

/-- What is at the other end of a pipe matters only to a decoder whose source is one (R230). -/
theorem Decoder.read_of_no_pipe {d : Decoder} (h : ∀ taken, d.source ≠ .pipe taken) (f g : Feed) :
    d.read f = d.read g ∧ ∀ a ∈ d.read f, ∀ taken, a.2.source ≠ .pipe taken := by
  unfold Decoder.read
  cases hs : d.source with
  | stream rest => cases rest <;> simp [hs]
  | pipe taken => exact absurd hs (h taken)
  | stalled rest => cases rest <;> simp

theorem Decoder.getCode_of_no_pipe {d : Decoder} (h : ∀ taken, d.source ≠ .pipe taken) (cfg : Config) (f g : Feed) :
    d.getCode cfg f = d.getCode cfg g := by
  obtain ⟨hfg, hnext⟩ := Decoder.read_of_no_pipe h f g
  simp only [Decoder.getCode, ← hfg]
  cases hr : d.read f with
  | none => rfl
  | some a =>
    obtain ⟨ev, d1⟩ := a
    have h1 := (Decoder.read_of_no_pipe (hnext _ hr) f g).1
    cases ev <;> simp only [h1]

theorem State.endDec_local {s t : State} (ha : t.answer = s.answer) (hn : t.draws = s.draws) (r : Run Decoder Unit) :
    s.endDec r = onNext s.takeDec (t.endDec r) := by
  cases r <;> simp only [State.endDec, onNext, State.takeDec, State.setDec_answer, State.setDec_draws, ha, hn] <;> rfl

theorem State.answerDec_local {α : Type} {s t : State} (ha : t.answer = s.answer) (hn : t.draws = s.draws)
    (f : α → Answer) (r : Run Decoder α) : s.answerDec f r = onNext s.takeDec (t.answerDec f r) := by
  cases r <;> simp only [State.answerDec, onNext, State.takeDec, State.setDec_answer, State.setDec_draws,
    State.setAnswer_draws, ha, hn] <;> rfl

/-- An operation of the decoder sees of the state the parameters, the unit, the answer, the count of free values and what a pipe's other end shows, and changes only what `takeDec` names. -/
theorem exec_decoder_local {i : Instr} (hi : unitOf i = .decoder) {s t : State} (hc : t.config = s.config)
    (hd : t.dec = s.dec) (ha : t.answer = s.answer) (hn : t.draws = s.draws)
    (hf : t.enc.feed = s.enc.feed ∨ ∀ taken, s.dec.source ≠ .pipe taken) :
    exec i s = onNext s.takeDec (exec i t) := by
  have ends : ∀ r, s.endDec r = onNext s.takeDec (t.endDec r) := State.endDec_local ha hn
  have answers : ∀ {α : Type} (f : α → Answer) r, s.answerDec f r = onNext s.takeDec (t.answerDec f r) :=
    State.answerDec_local ha hn
  have reads : s.dec.read s.enc.feed = s.dec.read t.enc.feed :=
    hf.elim (fun h => by rw [h]) fun h => (Decoder.read_of_no_pipe h _ _).1
  have codes : s.dec.getCode s.config s.enc.feed = s.dec.getCode s.config t.enc.feed :=
    hf.elim (fun h => by rw [h]) fun h => Decoder.getCode_of_no_pipe h _ _ _
  obtain ⟨c, e, d, ag, p, an, n⟩ := s
  obtain ⟨c', e', d', ag', p', an', n'⟩ := t
  obtain rfl : c' = c := hc
  obtain rfl : d' = d := hd
  obtain rfl : an' = an := ha
  obtain rfl : n' = n := hn
  cases i with
  | getCode =>
    simp only [exec, execGetCode, codes]
    exact answers _ _
  | arenaInit => rfl
  | arenaAlloc => exact answers _ _
  | arenaMark => rfl
  | arenaRewind => rfl
  | dictInit => exact ends _
  | dictFirstByte => exact answers _ _
  | dictAdd => exact ends _
  | dictEmit => exact ends _
  | decFirst => exact onNext_guard (ends _)
  | decFirstBad c =>
    refine onNext_guard ?_
    by_cases h : 256 < c.toNat
    · simp only [h, if_true]; rfl
    · simp only [h]; rfl
  | decCodeCorrupt => exact onNext_guard rfl
  | decCodeKnown => exact onNext_guard (ends _)
  | decCodeKwkwk => exact onNext_guard (ends _)
  | decCodeReset => exact onNext_guard (ends _)
  | decCodeStale =>
    refine onNext_guard ?_
    cases hp : c'.stale with
    | fault => simp only; rfl
    | legacy => simp only; exact ends _
  | decEos =>
    simp only [exec, execDecEos]
    by_cases h : running d'.phase = true
    · simp only [h, if_true]; rfl
    · simp only [h]; rfl
  | decStart =>
    simp only [exec, execDecStart]
    by_cases h : running d'.phase = true
    · simp only [h, if_true]; rfl
    · simp only [h]
      cases d'.start c' (Config.freeCode n') <;> rfl
  | srcRead =>
    cases hi
    simp only [exec, execSrcRead, reads]
    cases d'.read e'.feed <;> rfl
  | snkWrite => cases hi; rfl
  | statusRead => cases hi; rfl
  | _ => cases hi

/-! ## What no operation changes -/

theorem onNext_next {f : State → State} {o : Host.Outcome State Fault Refusal} {s' : State}
    (h : onNext f o = .next s') : ∃ u, o = .next u ∧ f u = s' := by
  cases o with
  | next u => exact ⟨u, rfl, by simpa only [onNext, Host.Outcome.next.injEq] using h⟩
  | fault r => simp only [onNext, reduceCtorEq] at h
  | refused r => simp only [onNext, reduceCtorEq] at h

/-- What an operation of the encoder leaves as it is. -/
theorem exec_encoder_next {i : Instr} (hi : unitOf i = .encoder) {s s' : State} (h : exec i s = .next s') :
    s' = s.takeEnc s' := by
  rw [exec_encoder_local hi (s := s) (t := s) rfl rfl rfl] at h
  obtain ⟨u, _, rfl⟩ := onNext_next h
  rfl

/-- What an operation of the decoder leaves as it is. -/
theorem exec_decoder_next {i : Instr} (hi : unitOf i = .decoder) {s s' : State} (h : exec i s = .next s') :
    s' = s.takeDec s' := by
  rw [exec_decoder_local hi (s := s) (t := s) rfl rfl rfl rfl (.inl rfl)] at h
  obtain ⟨u, _, rfl⟩ := onNext_next h
  rfl

/-- No operation writes the parameters, the agenda or the port, and none of one unit writes the other. -/
theorem exec_frame {i : Instr} {s s' : State} (h : exec i s = .next s') :
    s'.config = s.config ∧ s'.agenda = s.agenda ∧ s'.port = s.port
      ∧ (unitOf i = .encoder → s'.dec = s.dec) ∧ (unitOf i = .decoder → s'.enc = s.enc) := by
  cases hi : unitOf i with
  | encoder =>
    have hs := exec_encoder_next hi h
    exact ⟨by rw [hs]; rfl, by rw [hs]; rfl, by rw [hs]; rfl, fun _ => by rw [hs]; rfl, by simp⟩
  | decoder =>
    have hs := exec_decoder_next hi h
    exact ⟨by rw [hs]; rfl, by rw [hs]; rfl, by rw [hs]; rfl, by simp, fun _ => by rw [hs]; rfl⟩

/-- An operation of the encoder does the same beside every decoder. -/
theorem exec_setDec {i : Instr} (hi : unitOf i = .encoder) (s : State) (d : Decoder) :
    exec i (s.setDec d) = onNext (fun t => t.setDec d) (exec i s) := by
  rw [exec_encoder_local hi (s := s.setDec d) (t := s) rfl rfl rfl]
  cases h : exec i s with
  | next s' => rw [exec_encoder_next hi h]; rfl
  | fault r => rfl
  | refused r => rfl

/-- An operation of the decoder does the same beside every encoder, unless its source is the encoder's sink. -/
theorem exec_setEnc {i : Instr} (hi : unitOf i = .decoder) (s : State) (e : Encoder)
    (hp : ∀ taken, s.dec.source ≠ .pipe taken) : exec i (s.setEnc e) = onNext (fun t => t.setEnc e) (exec i s) := by
  rw [exec_decoder_local hi (s := s.setEnc e) (t := s) rfl rfl rfl rfl (.inr hp)]
  cases h : exec i s with
  | next s' => rw [exec_decoder_next hi h]; rfl
  | fault r => rfl
  | refused r => rfl

end Sys2Proof.Machine
end

section
/-! SUPPORT. How a sub-operation ends, in two predicates: one on the unit where it returns, one where it has taken a fault; and what every sub-operation of the decoder can change, in these terms. -/

namespace Sys2Proof.Machine

/-! ## How a sub-operation ends -/

/-- `r` returns only in units that meet `P`, and takes a fault only in units that meet `Q`. -/
def Run.Ends {σ α : Type} (P Q : σ → Prop) : Run σ α → Prop
  | .ok _ s => P s
  | .raised s => Q s
  | .stop _ => True

theorem Run.Ends.mono {σ α : Type} {P Q P' Q' : σ → Prop} {r : Run σ α} (h : r.Ends P Q) (hP : ∀ s, P s → P' s)
    (hQ : ∀ s, Q s → Q' s) : r.Ends P' Q' := by
  cases r with
  | ok a s => exact hP s h
  | raised s => exact hQ s h
  | stop f => trivial

theorem Run.Ends.bind {σ α β : Type} {P Q P' Q' : σ → Prop} {r : Run σ α} {k : α → σ → Run σ β} (h : r.Ends P Q)
    (hP : ∀ a s, P s → (k a s).Ends P' Q') (hQ : ∀ s, Q s → Q' s) : (r.bind k).Ends P' Q' := by
  cases r with
  | ok a s => exact hP a s h
  | raised s => exact hQ s h
  | stop f => trivial

theorem State.endEnc_ends {s s' : State} {r : Run Encoder Unit} {P Q : Encoder → Prop} (hr : r.Ends P Q)
    (h : s.endEnc r = .next s') : P s'.enc ∨ Q s'.enc := by
  obtain ⟨e, rfl | rfl, rfl⟩ := State.endEnc_next h
  · exact .inl hr
  · exact .inr hr

theorem State.endDec_ends {s s' : State} {r : Run Decoder Unit} {P Q : Decoder → Prop} (hr : r.Ends P Q)
    (h : s.endDec r = .next s') : P s'.dec ∨ Q s'.dec := by
  obtain ⟨d, rfl | rfl, rfl⟩ := State.endDec_next h
  · exact .inl hr
  · exact .inr hr

theorem State.answerDec_ends {α : Type} {s s' : State} {f : α → Answer} {r : Run Decoder α} {P Q : Decoder → Prop}
    (hr : r.Ends P Q) (h : s.answerDec f r = .next s') : P s'.dec ∨ Q s'.dec := by
  rcases State.answerDec_next h with ⟨a, d, rfl, rfl⟩ | ⟨d, rfl, rfl⟩
  · exact .inl hr
  · exact .inr hr

/-! ## What a sub-operation of the decoder can change -/

/-- `d'` is `d` but for the registers and memories a sub-operation writes on its way: the memories keep their canonical form, and the phase, the fault record and the residual are untouched. -/
structure Decoder.Changes (d d' : Decoder) : Prop where
  entries : Memory.wf d.entries = true → Memory.wf d'.entries = true
  arena : Memory.wf d.arena = true → Memory.wf d'.arena = true
  phase : d'.phase = d.phase
  record : d'.faultCause = d.faultCause ∧ d'.faultCode = d.faultCode ∧ d'.faultDictSize = d.faultDictSize
  residual : d'.rHave = d.rHave ∧ d'.rNib = d.rNib

/-- `d'` has taken a fault without a code in a unit that `d` has been changed to. -/
def Decoder.Fails (d d' : Decoder) : Prop :=
  ∃ d1 f, d.Changes d1 ∧ f ≠ .none ∧ Cause.carriesCode f = false ∧ d' = d1.raiseBare f

theorem Decoder.Changes.refl (d : Decoder) : d.Changes d := ⟨id, id, rfl, ⟨rfl, rfl, rfl⟩, rfl, rfl⟩

theorem Decoder.Changes.trans {d d1 d2 : Decoder} (h : d.Changes d1) (h' : d1.Changes d2) : d.Changes d2 := by
  obtain ⟨hc, ho, hs⟩ := h.record
  obtain ⟨hc', ho', hs'⟩ := h'.record
  exact ⟨h'.entries ∘ h.entries, h'.arena ∘ h.arena, h'.phase.trans h.phase,
    ⟨hc'.trans hc, ho'.trans ho, hs'.trans hs⟩, h'.residual.1.trans h.residual.1, h'.residual.2.trans h.residual.2⟩

theorem Decoder.Changes.fails {d d1 d2 : Decoder} (h : d.Changes d1) (h' : d1.Fails d2) : d.Fails d2 := by
  obtain ⟨d3, f, hd, rest⟩ := h'
  exact ⟨d3, f, h.trans hd, rest⟩

theorem Decoder.Changes.raiseBare {d d1 : Decoder} {f : Cause} (h : d.Changes d1) (hf : f ≠ .none)
    (hc : f.carriesCode = false) : d.Fails (d1.raiseBare f) := ⟨d1, f, h, hf, hc, rfl⟩

theorem Decoder.changes_setSink (d : Decoder) (k : Sink) : d.Changes (d.setSink k) :=
  ⟨id, id, rfl, ⟨rfl, rfl, rfl⟩, rfl, rfl⟩

theorem Decoder.changes_setPtr (d : Decoder) (p : Nat) : d.Changes (d.setPtr p) :=
  ⟨id, id, rfl, ⟨rfl, rfl, rfl⟩, rfl, rfl⟩

theorem Decoder.changes_setPrevCode (d : Decoder) (c : Code) : d.Changes (d.setPrevCode c) :=
  ⟨id, id, rfl, ⟨rfl, rfl, rfl⟩, rfl, rfl⟩

theorem Decoder.changes_setDictSize (d : Decoder) (n : DictSize) : d.Changes (d.setDictSize n) :=
  ⟨id, id, rfl, ⟨rfl, rfl, rfl⟩, rfl, rfl⟩

/-- One line of a listing after another. -/
theorem Run.Ends.andThen {α β : Type} {d : Decoder} {r : Run Decoder α} {k : α → Decoder → Run Decoder β}
    (h : r.Ends d.Changes d.Fails) (hk : ∀ a d1, (k a d1).Ends d1.Changes d1.Fails) :
    (r.bind k).Ends d.Changes d.Fails :=
  h.bind (fun a d1 h1 => (hk a d1).mono (fun _ => h1.trans) fun _ => h1.fails) fun _ => id

/-! ## The sub-operations -/

theorem Decoder.firstByte_ends (cfg : Config) (c : Code) (d : Decoder) :
    (d.firstByte cfg c).Ends d.Changes d.Fails := by
  rcases d.firstByte_cases cfg c with ⟨x, h⟩ | ⟨f, h⟩
  · rw [h]; exact .refl d
  · rw [h]; trivial

theorem Decoder.emit_ends (v : Byte) (d : Decoder) : (d.emit v).Ends d.Changes d.Fails := by
  rcases d.emit_cases v with ⟨k, h⟩ | ⟨k, h⟩
  · rw [h]; exact d.changes_setSink k
  · rw [h]; exact (d.changes_setSink k).raiseBare (by decide) rfl

theorem Decoder.dictEmit_ends (cfg : Config) (c : Code) (d : Decoder) :
    (d.dictEmit cfg c).Ends d.Changes d.Fails := by
  rcases d.dictEmit_cases cfg c with ⟨k, h⟩ | ⟨k, h⟩ | ⟨f, h⟩
  · rw [h]; exact d.changes_setSink k
  · rw [h]; exact (d.changes_setSink k).raiseBare (by decide) rfl
  · rw [h]; trivial

theorem Decoder.alloc_ends (cfg : Config) (n : Nat) (d : Decoder) : (d.alloc cfg n).Ends d.Changes d.Fails := by
  rcases d.alloc_cases cfg n with ⟨_, h⟩ | ⟨_, h⟩
  · rw [h]; exact d.changes_setPtr _
  · rw [h]; exact (Decoder.Changes.refl d).raiseBare (by decide) rfl

theorem Decoder.dictAdd_ends (cfg : Config) (p : Code) (x : Byte) (d : Decoder) :
    (d.dictAdd cfg p x).Ends d.Changes d.Fails := by
  rcases d.dictAdd_cases cfg p x with ⟨es, ar, ptr, h, he, ha⟩ | h | ⟨f, h⟩
  · rw [h]; exact ⟨he, ha, rfl, ⟨rfl, rfl, rfl⟩, rfl, rfl⟩
  · rw [h]; exact (Decoder.Changes.refl d).raiseBare (by decide) rfl
  · rw [h]; trivial

theorem Decoder.dictInit_ends (cfg : Config) (d : Decoder) : (d.dictInit cfg).Ends d.Changes d.Fails := by
  by_cases hroom : d.aPtr + 4 * 256 ≤ cfg.arenaBytes
  · obtain ⟨es, ar, h, _, _, _, he, ha⟩ := Decoder.initLiterals_spec cfg 256 0 d (by decide) hroom
    rw [Decoder.dictInit, h]
    exact ⟨he, ha, rfl, ⟨rfl, rfl, rfl⟩, rfl, rfl⟩
  · obtain ⟨es, ar, h, _, _, _, he, ha⟩ :=
      Decoder.initLiterals_allocFail cfg 256 _ 0 d (by decide) (by decide) rfl (by omega)
    rw [Decoder.dictInit, h]
    exact Decoder.Changes.raiseBare ⟨he, ha, rfl, ⟨rfl, rfl, rfl⟩, rfl, rfl⟩ (by decide) rfl

theorem Decoder.growAndEmit_ends (cfg : Config) (c : Code) (x : Byte) (d : Decoder) :
    (d.growAndEmit cfg c x).Ends d.Changes d.Fails :=
  (d.dictAdd_ends cfg d.prevCode x).andThen fun _ d1 =>
    (d1.dictEmit_ends cfg c).andThen fun _ d2 => d2.changes_setPrevCode c

theorem Decoder.resetAndEmit_ends (cfg : Config) (c : Code) (d : Decoder) :
    (d.resetAndEmit cfg c).Ends d.Changes d.Fails := by
  refine (d.firstByte_ends cfg c).andThen fun _ d1 => ?_
  have hreset : d1.Changes (d1.setDictSize initialSize).rewind :=
    (d1.changes_setDictSize _).trans (Decoder.changes_setPtr _ _)
  have hemit : ((d1.setDictSize initialSize).rewind.dictEmit cfg c).Ends d1.Changes d1.Fails :=
    (Decoder.dictEmit_ends cfg c _).mono (fun _ => hreset.trans) fun _ => hreset.fails
  exact hemit.andThen fun _ d2 => d2.changes_setPrevCode c

/-- DEC.START ends in phase FIRST, or in phase FAULT where the arena has no room for the literals; with canonical memories, whatever stood in them. -/
theorem Decoder.start_ends (cfg : Config) (free : Code) (d : Decoder) :
    (d.start cfg free).Ends
      (fun d' => d'.phase = .first ∧ Memory.wf d'.entries = true ∧ Memory.wf d'.arena = true)
      (fun d' => d'.phase = .fault ∧ cfg.arenaBytes < 1024 ∧ Memory.wf d'.entries = true ∧ Memory.wf d'.arena = true) := by
  by_cases hroom : 1024 ≤ cfg.arenaBytes
  · obtain ⟨es, ar, h, _, _, _, he, ha⟩ := d.start_spec cfg free hroom
    rw [h]
    exact ⟨rfl, he, ha⟩
  · obtain ⟨es, ar, ptr, h, he, ha⟩ := d.start_allocFail cfg free (by omega)
    rw [h]
    exact ⟨rfl, by omega, he, ha⟩

end Sys2Proof.Machine
end

section
/-! SUPPORT. Every operation keeps the canonical form of the memories of its unit (R22, R30, R31); a step performs its operation in a state with the memories and the parameters as they were. -/

namespace Sys2Proof.Machine

/-! ## The trie -/

theorem Encoder.emitAll_ends (bs : List Byte) (e : Encoder) :
    (Encoder.emitAll bs e).Ends (fun e' => e'.trie = e.trie) (fun e' => e'.trie = e.trie) := by
  rcases Encoder.emitAll_cases bs e with ⟨k, h⟩ | ⟨k, h⟩ <;> rw [h] <;> rfl

theorem Encoder.putCode_ends (c : Code) (e : Encoder) :
    (e.putCode c).Ends (fun e' => e'.trie = e.trie) (fun e' => e'.trie = e.trie) := by
  rcases e.putCode_cases c with ⟨k, _, _, h, _⟩ | ⟨k, h⟩ <;> rw [h] <;> rfl

theorem Encoder.putLast_ends (c : Code) (e : Encoder) :
    (e.putLast c).Ends (fun e' => e'.trie = e.trie) (fun e' => e'.trie = e.trie) := by
  rcases e.putLast_cases c with ⟨k, _, h, _⟩ | ⟨k, h⟩ <;> rw [h] <;> rfl

/-- A guarded operation that answers a next state does so under its guard. -/
theorem next_of_guard {c : Prop} [Decidable c] {r : Refusal} {o : Host.Outcome State Fault Refusal} {s' : State}
    (h : (if c then o else .refused r) = .next s') : c ∧ o = .next s' := by
  by_cases hc : c
  · exact ⟨hc, by simpa only [hc, if_true] using h⟩
  · simp only [hc, if_false, reduceCtorEq] at h

/-- `TRIE` is written by TRIE.INSERT and the growth step, cleared by TRIE.CLEAR, the reset step and ENC.START; no other operation touches it. -/
theorem exec_keeps_trie {i : Instr} (hi : unitOf i = .encoder) {s s' : State} (h : exec i s = .next s')
    (hwf : Memory.trieWf s.enc.trie = true) : Memory.trieWf s'.enc.trie = true := by
  have same : ∀ {r : Run Encoder Unit}, r.Ends (fun e' => e'.trie = s.enc.trie) (fun e' => e'.trie = s.enc.trie) →
      r.Ends (fun e' => Memory.trieWf e'.trie = true) (fun e' => Memory.trieWf e'.trie = true) :=
    fun hr => hr.mono (fun _ ht => ht ▸ hwf) fun _ ht => ht ▸ hwf
  have ends : ∀ {r}, r.Ends (fun e' => Memory.trieWf e'.trie = true) (fun e' => Memory.trieWf e'.trie = true) →
      s.endEnc r = .next s' → Memory.trieWf s'.enc.trie = true :=
    fun hr h => (State.endEnc_ends hr h).elim id id
  cases i with
  | packPair3 => exact ends (same (Encoder.emitAll_ends _ _)) (next_of_guard h).2
  | packTail2 => exact ends (same (Encoder.emitAll_ends _ _)) (next_of_guard h).2
  | putCode => exact ends (same (Encoder.putCode_ends _ _)) h
  | putLast => exact ends (same (Encoder.putLast_ends _ _)) h
  | trieLookup => cases h; exact hwf
  | trieInsert => cases h; exact Memory.trieWf_setCell _ _ _ _ hwf
  | trieClear => cases h; rfl
  | encFirst => cases (next_of_guard h).2; exact hwf
  | encByteHit => cases (next_of_guard h).2; exact hwf
  | encByteAdd =>
    refine ends ?_ (next_of_guard h).2
    exact (same (Encoder.putCode_ends _ _)).bind (fun _ _ => Memory.trieWf_setCell _ _ _ _) fun _ => id
  | encByteReset =>
    refine ends ?_ (next_of_guard h).2
    exact (same (Encoder.putCode_ends _ _)).bind (fun _ _ _ => rfl) fun _ => id
  | encEos =>
    refine ends ?_ (next_of_guard h).2
    exact (same (Encoder.putLast_ends _ _)).bind (fun _ _ => id) fun _ => id
  | encEosEmpty => cases (next_of_guard h).2; exact hwf
  | encStart =>
    simp only [exec, execEncStart] at h
    split at h
    · cases h; exact hwf
    · cases h; rfl
  | srcRead =>
    cases hi
    obtain ⟨src, hs⟩ := s.enc.read_snd
    cases h
    simp only [State.setAnswer_enc, State.setEnc_enc, hs]
    exact hwf
  | snkWrite => cases hi; cases h; exact hwf
  | statusRead => cases hi; cases h; exact hwf
  | _ => cases hi

/-! ## The entry table and the arena -/

/-- `E` and `ARENA` are in canonical form. -/
def Decoder.Canonical (d : Decoder) : Prop := Memory.wf d.entries = true ∧ Memory.wf d.arena = true

theorem Decoder.Changes.canonical {d d' : Decoder} (h : d.Changes d') (hd : d.Canonical) : d'.Canonical :=
  ⟨h.entries hd.1, h.arena hd.2⟩

theorem Decoder.Fails.canonical {d d' : Decoder} (h : d.Fails d') (hd : d.Canonical) : d'.Canonical := by
  obtain ⟨d1, f, h1, _, _, rfl⟩ := h
  exact h1.canonical hd

theorem Run.Ends.canonical {α : Type} {d : Decoder} {r : Run Decoder α} (h : r.Ends d.Changes d.Fails)
    (hd : d.Canonical) : r.Ends Decoder.Canonical Decoder.Canonical :=
  h.mono (fun _ h' => h'.canonical hd) fun _ h' => h'.canonical hd

theorem Decoder.getCode_ends (cfg : Config) (f : Feed) {d : Decoder} (hd : d.Canonical) :
    (d.getCode cfg f).Ends Decoder.Canonical Decoder.Canonical := by
  rcases d.getCode_cases cfg f with ⟨_, _, _, _, h, _⟩ | ⟨_, _, h⟩ <;> rw [h] <;> exact hd

/-- Every operation of the decoder keeps the form of `E` and `ARENA`; DEC.START writes both anew. -/
theorem exec_keeps_canonical {i : Instr} (hi : unitOf i = .decoder) {s s' : State} (h : exec i s = .next s')
    (hd : s.dec.Canonical) : s'.dec.Canonical := by
  have ends : ∀ {r}, r.Ends Decoder.Canonical Decoder.Canonical → s.endDec r = .next s' → s'.dec.Canonical :=
    fun hr h => (State.endDec_ends hr h).elim id id
  have answers : ∀ {α : Type} {f : α → Answer} {r}, r.Ends Decoder.Canonical Decoder.Canonical →
      s.answerDec f r = .next s' → s'.dec.Canonical :=
    fun hr h => (State.answerDec_ends hr h).elim id id
  cases i with
  | getCode => exact answers (Decoder.getCode_ends _ _ hd) h
  | arenaInit => cases h; exact hd
  | arenaAlloc => exact answers ((Decoder.alloc_ends _ _ _).canonical hd) h
  | arenaMark => cases h; exact hd
  | arenaRewind => cases h; exact hd
  | dictInit => exact ends ((Decoder.dictInit_ends _ _).canonical hd) h
  | dictFirstByte => exact answers ((Decoder.firstByte_ends _ _ _).canonical hd) h
  | dictAdd => exact ends ((Decoder.dictAdd_ends _ _ _ _).canonical hd) h
  | dictEmit => exact ends ((Decoder.dictEmit_ends _ _ _).canonical hd) h
  | decFirst =>
    refine ends ?_ (next_of_guard h).2
    refine ((Decoder.firstByte_ends _ _ _).canonical hd).bind (fun _ d1 h1 => ?_) fun _ => id
    exact ((d1.emit_ends _).canonical h1).bind (fun _ _ => id) fun _ => id
  | decFirstBad =>
    have h' := (next_of_guard h).2
    split at h' <;> cases h' <;> exact hd
  | decCodeCorrupt => cases (next_of_guard h).2; exact hd
  | decCodeKnown =>
    refine ends (Run.Ends.canonical ?_ hd) (next_of_guard h).2
    exact (Decoder.firstByte_ends _ _ _).andThen fun _ _ => Decoder.growAndEmit_ends _ _ _ _
  | decCodeKwkwk =>
    refine ends (Run.Ends.canonical ?_ hd) (next_of_guard h).2
    exact (Decoder.firstByte_ends _ _ _).andThen fun _ _ => Decoder.growAndEmit_ends _ _ _ _
  | decCodeReset => exact ends ((Decoder.resetAndEmit_ends _ _ _).canonical hd) (next_of_guard h).2
  | decCodeStale =>
    have h' := (next_of_guard h).2
    split at h'
    · cases h'; exact hd
    · exact ends ((Decoder.resetAndEmit_ends _ _ _).canonical hd) h'
  | decEos =>
    simp only [exec, execDecEos] at h
    split at h
    · cases h; exact hd
    · cases h
  | decStart =>
    simp only [exec, execDecStart] at h
    split at h
    · cases h; exact hd
    · exact (State.endDec_ends (Decoder.start_ends _ _ _) h).elim (·.2) (·.2.2)
  | srcRead =>
    cases hi
    simp only [exec, execSrcRead] at h
    split at h
    · next hr =>
      obtain ⟨src, rfl⟩ := Decoder.read_some hr
      cases h; exact hd
    · cases h; exact hd
  | snkWrite => cases hi; cases h; exact hd
  | statusRead => cases hi; cases h; exact hd
  | _ => cases hi

theorem State.canonical_iff (s : State) :
    s.canonical = true ↔ Memory.trieWf s.enc.trie = true ∧ s.dec.Canonical := by
  simp only [State.canonical, Bool.and_eq_true, Decoder.Canonical, and_assoc]

/-- Every operation keeps the three memories in canonical form. -/
theorem exec_keeps_memories {i : Instr} {s s' : State} (h : exec i s = .next s') (hs : s.canonical = true) :
    s'.canonical = true := by
  obtain ⟨ht, hd⟩ := s.canonical_iff.1 hs
  obtain ⟨_, _, _, hdec, henc⟩ := exec_frame h
  refine s'.canonical_iff.2 ?_
  cases hi : unitOf i with
  | encoder => exact ⟨exec_keeps_trie hi h ht, by rw [hdec hi]; exact hd⟩
  | decoder => exact ⟨by rw [henc hi]; exact ht, exec_keeps_canonical hi h hd⟩

/-! ## What a step prepares -/

/-- `s1` is `s` before the operation of its step: events may have been taken, a source and a sink attached, a fault of GETCODE taken, but the memories and the parameters are as they were and nothing is left at the port. -/
structure State.Prepares (s s1 : State) : Prop where
  config : s1.config = s.config
  port : s1.port = none
  trie : s1.enc.trie = s.enc.trie
  entries : s1.dec.entries = s.dec.entries
  arena : s1.dec.arena = s.dec.arena

/-- The state in which what has been fetched is performed. -/
def Fetched.state? : Fetched → Option State
  | .run _ s => some s
  | .quiet s => some s
  | .unselected _ => none
  | .stop _ => none

/-- What is performed is one operation in that state, or nothing. -/
theorem perform_next {f : Fetched} {s' : State} (h : perform f = .next s') :
    ∃ s1, f.state? = some s1 ∧ (s' = s1 ∨ ∃ i, exec i s1 = .next s') := by
  cases f with
  | run i s1 => exact ⟨s1, rfl, .inr ⟨i, h⟩⟩
  | quiet s1 => cases h; exact ⟨s', rfl, .inl rfl⟩
  | unselected r => cases h
  | stop f => cases h

theorem Fetched.state?_ofDecoded {s s1 : State} {r : Decoded} (h : (Fetched.ofDecoded s r).state? = some s1) :
    s1 = s := by
  cases r with
  | instr i => cases h; rfl
  | reject r => cases h

theorem State.fetchEncoder_prepares {s s1 : State} (hp : s.port = none) (h : s.fetchEncoder.state? = some s1) :
    s.Prepares s1 := by
  cases hr : running s.enc.phase with
  | false =>
    simp only [State.fetchEncoder, hr] at h
    cases h
    exact ⟨rfl, hp, rfl, rfl, rfl⟩
  | true =>
    obtain ⟨src, hf⟩ := State.fetchEncoder_running hr
    rw [hf] at h
    rw [Fetched.state?_ofDecoded h]
    exact ⟨rfl, hp, rfl, rfl, rfl⟩

/-- The turn of a running decoder: a pipe waits, GETCODE takes Truncated, or its result selects a row; only the source and the residual change before the operation (R123). -/
theorem State.fetchDecoder_running {s : State} (hr : running s.dec.phase = true) :
    s.fetchDecoder = .quiet s
    ∨ (∃ src, s.fetchDecoder = .quiet (s.setDec ((s.dec.setSource src).raiseBare .truncated)))
    ∨ ∃ ev src h n, s.fetchDecoder = .ofDecoded (s.setDec ((s.dec.setSource src).setResidual h n))
          (decodeDec s.dec.phase s.dec.dictSize ev)
        ∧ ((h = s.dec.rHave ∧ n = s.dec.rNib) ∨ h = true ∨ n = 0#4) := by
  rcases s.dec.getCode_cases s.config s.enc.feed with ⟨r, src, h, n, hg, hn⟩ | ⟨src, _, hg⟩
  · cases r with
    | none => exact .inl (by simp only [State.fetchDecoder, hr, if_true, hg])
    | some ev => exact .inr (.inr ⟨ev, src, h, n, by simp only [State.fetchDecoder, hr, if_true, hg], hn⟩)
  · exact .inr (.inl ⟨src, by simp only [State.fetchDecoder, hr, if_true, hg]⟩)

theorem State.fetchDecoder_prepares {s s1 : State} (hp : s.port = none) (h : s.fetchDecoder.state? = some s1) :
    s.Prepares s1 := by
  cases hr : running s.dec.phase with
  | false =>
    simp only [State.fetchDecoder, hr] at h
    cases h
    exact ⟨rfl, hp, rfl, rfl, rfl⟩
  | true =>
    rcases State.fetchDecoder_running hr with hf | ⟨src, hf⟩ | ⟨ev, src, x, n, hf, _⟩
    · rw [hf] at h; cases h; exact ⟨rfl, hp, rfl, rfl, rfl⟩
    · rw [hf] at h; cases h; exact ⟨rfl, hp, rfl, rfl, rfl⟩
    · rw [hf] at h
      rw [Fetched.state?_ofDecoded h]
      exact ⟨rfl, hp, rfl, rfl, rfl⟩

theorem State.attachEncoder_prepares {s : State} (hp : s.port = none) (source : List Byte)
    (answers : List SinkAnswer) : s.Prepares (s.attachEncoder source answers) := by
  unfold State.attachEncoder
  split <;> exact ⟨rfl, hp, rfl, rfl, rfl⟩

theorem State.attachDecoder_prepares {s : State} (hp : s.port = none) (source : DecSource)
    (answers : List SinkAnswer) : s.Prepares (s.attachDecoder source answers) := by
  unfold State.attachDecoder
  split <;> exact ⟨rfl, hp, rfl, rfl, rfl⟩

theorem State.fetchTurn_prepares {s s1 : State} {t : Turn} (hp : s.port = none)
    (h : (s.fetchTurn t).state? = some s1) : s.Prepares s1 := by
  cases t with
  | encoder => exact State.fetchEncoder_prepares hp h
  | decoder => exact State.fetchDecoder_prepares hp h
  | host c =>
    cases c with
    | attachEncoder source answers => cases h; exact State.attachEncoder_prepares hp source answers
    | attachDecoder source answers => cases h; exact State.attachDecoder_prepares hp source answers
    | encStart => cases h; exact ⟨rfl, hp, rfl, rfl, rfl⟩
    | decStart => cases h; exact ⟨rfl, hp, rfl, rfl, rfl⟩
    | statusRead u => cases h; exact ⟨rfl, hp, rfl, rfl, rfl⟩

theorem State.fetch_prepares {s s1 : State} (h : s.fetch.state? = some s1) : s.Prepares s1 := by
  cases hp : s.port with
  | some i =>
    rw [State.fetch_of_port hp] at h
    cases h
    exact ⟨rfl, rfl, rfl, rfl, rfl⟩
  | none =>
    cases ha : s.agenda with
    | cons t rest =>
      rw [State.fetch_of_agenda_cons hp ha] at h
      obtain ⟨hc, hp', ht, he, hm⟩ := State.fetchTurn_prepares (s := s.setAgenda rest) hp h
      exact ⟨hc, hp', ht, he, hm⟩
    | nil =>
      rw [State.fetch_of_agenda_nil hp ha, State.fetchFree] at h
      split at h
      · exact State.fetchEncoder_prepares hp h
      · split at h
        · exact State.fetchDecoder_prepares hp h
        · cases h; exact ⟨rfl, hp, rfl, rfl, rfl⟩

/-- A step prepares a state and performs at most one operation in it. -/
theorem step_prepares {s s' : State} (h : step s = .next s') :
    ∃ s1, s.Prepares s1 ∧ (s' = s1 ∨ ∃ i, exec i s1 = .next s') := by
  rw [step_eq_perform] at h
  obtain ⟨s1, hf, hs⟩ := perform_next h
  exact ⟨s1, State.fetch_prepares hf, hs⟩

theorem State.Prepares.canonical {s s1 : State} (h : s.Prepares s1) : s1.canonical = s.canonical := by
  simp only [State.canonical, h.trie, h.entries, h.arena]

theorem step_config {s s' : State} (h : step s = .next s') : s'.config = s.config ∧ s'.port = none := by
  obtain ⟨s1, h1, rfl | ⟨i, hi⟩⟩ := step_prepares h
  · exact ⟨h1.config, h1.port⟩
  · obtain ⟨hc, _, hp, _⟩ := exec_frame hi
    exact ⟨hc.trans h1.config, hp.trans h1.port⟩

/-- Settles O53: what an operation sees and changes, unit by unit, and what a step prepares before it. -/
theorem unitsShareNoState : Obligations.UnitsShareNoState := by
  unfold Obligations.UnitsShareNoState
  exact ⟨fun _ _ _ h => exec_frame h, fun _ _ h => step_config h, fun _ s d hi => exec_setDec hi s d,
    fun _ s e hi hp => exec_setEnc hi s e hp⟩

/-- Settles O55: the memories are the same before the operation of a step, and every operation keeps their form. -/
theorem stepKeepsMemoriesCanonical : Obligations.StepKeepsMemoriesCanonical := by
  unfold Obligations.StepKeepsMemoriesCanonical
  intro s s' hs h
  obtain ⟨s1, h1, rfl | ⟨i, hi⟩⟩ := step_prepares h
  · rw [h1.canonical]; exact hs
  · exact exec_keeps_memories hi (h1.canonical.trans hs)

end Sys2Proof.Machine
end

section
/-! SUPPORT. The encoder's invariants (R23): each move of a driver operation keeps them, and from them every turn of the encoder ends in a next state. -/

namespace Sys2Proof.Machine

/-! ## The growth step (R146) -/

theorem nextCode_toNat {d : DictSize} (h : d.toNat < 4096) : (nextCode d).toNat = d.toNat := by
  simp only [nextCode, BitVec.toNat_setWidth]
  exact Nat.mod_eq_of_lt h

theorem grow_toNat {d : DictSize} (h : d.toNat < 4096) : (grow d).toNat = d.toNat + 1 := by
  simp only [grow, BitVec.toNat_add, BitVec.toNat_ofNat]
  omega

/-- A code of 256 or more is not the value of an empty cell. -/
theorem ne_zero_of_le_toNat {v : Code} (h : 256 ≤ v.toNat) : v ≠ 0#12 := by
  rintro rfl
  exact absurd h (by decide)

/-- The trie after the growth step, cell by cell. -/
theorem Encoder.lookup_addPhrase (n : Code) (b b' : Byte) (e : Encoder) : (e.addPhrase b).lookup n b'
    = if n = e.curNode ∧ b' = b then nextCode e.dictSize else e.lookup n b' := by
  by_cases h : n = e.curNode ∧ b' = b
  · obtain ⟨rfl, rfl⟩ := h
    rw [if_pos ⟨rfl, rfl⟩]
    exact Memory.getCell_setCell_self _ _ _ _
  · rw [if_neg h]
    exact Memory.getCell_setCell_other _ _ h

/-- R23 is kept by the growth step: the new code is above its node, and the cell it is written to was empty. -/
theorem Encoder.Live.addPhrase {e : Encoder} (hl : e.Live) (b : Byte) (hrun : e.phase = .run)
    (hcell : e.lookup e.curNode b = 0#12) (hd : e.dictSize.toNat < 4096) : (e.addPhrase b).Live := by
  have hnew := nextCode_toNat hd
  have hgrow : (e.addPhrase b).dictSize.toNat = e.dictSize.toNat + 1 := grow_toNat hd
  have hsize := hl.size
  have hnode := hl.node hrun
  refine ⟨by omega, fun _ => ?node, fun n b' hne => ?children, fun v h1 h2 => ?once, fun h => ?fresh⟩
  case node =>
    have hlit : (e.addPhrase b).curNode.toNat = b.toNat := literalCode_toNat b
    have := b.isLt
    omega
  case children =>
    rw [Encoder.lookup_addPhrase] at hne
    rw [hgrow, Encoder.lookup_addPhrase]
    split at hne
    · next h =>
      rw [if_pos h, hnew, h.1]
      exact ⟨hsize.1, by omega, hnode⟩
    · next h =>
      rw [if_neg h]
      obtain ⟨h1, h2, h3⟩ := hl.children n b' hne
      exact ⟨h1, by omega, h3⟩
  case once =>
    simp only [Encoder.lookup_addPhrase]
    by_cases hv : v = nextCode e.dictSize
    · refine ⟨e.curNode, b, by simp [hv], fun n' b' h => ?_⟩
      by_contra hne
      rw [if_neg hne] at h
      have := (hl.children n' b' (h ▸ ne_zero_of_le_toNat h1)).2.1
      rw [h, hv, hnew] at this
      omega
    · have hlt : v.toNat < e.dictSize.toNat := by
        have : v.toNat ≠ e.dictSize.toNat := fun h => hv (BitVec.eq_of_toNat_eq (h.trans hnew.symm))
        omega
      obtain ⟨n, b', hn, honce⟩ := hl.once v h1 hlt
      have hother : ¬(n = e.curNode ∧ b' = b) := by
        rintro ⟨rfl, rfl⟩
        exact ne_zero_of_le_toNat h1 (hn ▸ hcell)
      refine ⟨n, b', by rw [if_neg hother]; exact hn, fun n' b'' h => ?_⟩
      split at h
      · exact absurd h.symm hv
      · exact honce n' b'' h
  case fresh =>
    have hp : (e.addPhrase b).phase = e.phase := rfl
    rw [hp, hrun] at h
    cases h

/-- R23 holds after the reset step: the trie is empty and no code is a child's. -/
theorem Encoder.Live.resetDictionary (b : Byte) {e : Encoder} (hrun : e.phase = .run) :
    (e.resetDictionary b).Live := by
  have hsize : (e.resetDictionary b).dictSize.toNat = 256 := rfl
  have hlit : (e.resetDictionary b).curNode.toNat = b.toNat := literalCode_toNat b
  have hphase : (e.resetDictionary b).phase = .run := hrun
  refine ⟨by omega, fun _ => by have := b.isLt; omega, fun n b' h => absurd rfl h, fun v h1 h2 => by omega, fun h => ?_⟩
  rw [hphase] at h
  cases h

/-! ## Every move keeps the invariants -/

theorem EncoderMove.inv {e e' : Encoder} (hm : EncoderMove e e') (hi : e.Inv) (hr : running e.phase = true) :
    e'.Inv := by
  have hl := hi.live hr
  have hsize := hl.size
  have hcause : e.faultCause = .none := hi.record.2 fun h => by rw [h] at hr; cases hr
  cases hm with
  | first b hp =>
    have hlit := literalCode_toNat b
    refine ⟨hi.canonical, hi.residual, by simp [hcause], fun _ => ?_⟩
    exact ⟨hsize, fun _ => by have := b.isLt; simp only [Encoder.setPhase_curNode, Encoder.setCurNode_curNode,
      Encoder.setPhase_dictSize, Encoder.setCurNode_dictSize]; omega, hl.children, hl.once, nofun⟩
  | hit b hp hne =>
    exact ⟨hi.canonical, hi.residual, hi.record, fun _ =>
      ⟨hsize, fun _ => (hl.children _ _ hne).2.1, hl.children, hl.once, hl.fresh⟩⟩
  | add b k h n hp hcell hd hn =>
    have hlive : ((e.setSink k).setResidual h n).Live :=
      ⟨hsize, hl.node, hl.children, hl.once, fun hf => by cases hp.symm.trans hf⟩
    exact ⟨Memory.trieWf_setCell _ _ _ _ hi.canonical, hn, hi.record, fun _ => hlive.addPhrase b hp hcell hd⟩
  | reset b k h n hp hn =>
    exact ⟨rfl, hn, hi.record, fun _ => Encoder.Live.resetDictionary (e := (e.setSink k).setResidual h n) b hp⟩
  | eos k n hp hn =>
    refine ⟨hi.canonical, fun _ => ?_, by simp [hcause], nofun⟩
    exact hn.elim id fun h => h.2.trans (hi.residual h.1)
  | empty hp => exact ⟨hi.canonical, hi.residual, by simp [hcause], nofun⟩
  | fail k hp => exact ⟨hi.canonical, hi.residual, by simp [Encoder.raise], nofun⟩

/-- The source is no part of the invariants. -/
theorem Encoder.Inv.setSource {e : Encoder} (hi : e.Inv) (src : List Byte) : (e.setSource src).Inv := by
  refine ⟨hi.canonical, hi.residual, hi.record, fun hr => ?_⟩
  obtain ⟨hsize, hnode, hch, honce, hfresh⟩ := hi.live hr
  exact ⟨hsize, hnode, hch, honce, hfresh⟩

end Sys2Proof.Machine
end

section
/-! SUPPORT. The decoder's invariants (R32): from them no row of R100 stops or is turned away, and each keeps them. -/

namespace Sys2Proof.Machine

/-- The phases with steps (R26). -/
theorem phase_of_running {p : Phase} (hr : running p = true) : p = .first ∨ p = .run := by
  cases p with
  | first => exact .inl rfl
  | run => exact .inr rfl
  | idle => cases hr
  | done => cases hr
  | fault => cases hr

/-! ## The rows of R100 -/

/-- The operations the selection table gives a decoder in phase `p` with the dictionary count `n`, each with the condition of its row. -/
inductive DecoderRow (p : Phase) (n : DictSize) : Instr → Prop
  | first (b : Byte) : p = .first → DecoderRow p n (.decFirst b)
  | firstBad (c : Code) : p = .first → 256 ≤ c.toNat → DecoderRow p n (.decFirstBad c)
  | corrupt (c : Code) : p = .run → n < widenCode c → DecoderRow p n (.decCodeCorrupt c)
  | known (c : Code) : p = .run → n < fullSize → widenCode c < n → DecoderRow p n (.decCodeKnown c)
  | kwkwk (c : Code) : p = .run → n < fullSize → widenCode c = n → DecoderRow p n (.decCodeKwkwk c)
  | reset (b : Byte) : p = .run → n = fullSize → DecoderRow p n (.decCodeReset b)
  | stale (c : Code) : p = .run → n = fullSize → 256 ≤ c.toNat → DecoderRow p n (.decCodeStale c)
  | eos : running p = true → DecoderRow p n .decEos

theorem DecoderRow.of_decodeRunCode {n : DictSize} {c : Code} {i : Instr} (h : decodeRunCode n c = .instr i) :
    DecoderRow .run n i := by
  unfold decodeRunCode at h
  split at h
  · cases h
  · next hle =>
    split at h
    · next hc => cases h; exact .corrupt c rfl hc
    · next hc =>
      split at h
      · next hfull =>
        split at h
        · next hbig => cases h; exact .stale c rfl hfull hbig
        · cases h; exact .reset _ rfl hfull
      · next hfull =>
        have hlt : n < fullSize := by
          show n < 4096#13
          bv_omega
        split at h
        · next heq => cases h; exact .kwkwk c rfl hlt heq
        · next hne => cases h; exact .known c rfl hlt (by bv_omega)

theorem DecoderRow.of_decodeDec {p : Phase} {n : DictSize} {ev : CodeEvent} {i : Instr}
    (h : decodeDec p n ev = .instr i) : DecoderRow p n i := by
  cases p with
  | first =>
    cases ev with
    | code c =>
      simp only [decodeDec] at h
      split at h
      · cases h; exact .first _ rfl
      · next hc => cases h; exact .firstBad c rfl (by omega)
    | eos => cases h; exact .eos rfl
  | run =>
    cases ev with
    | code c => exact .of_decodeRunCode h
    | eos => cases h; exact .eos rfl
  | idle => cases h
  | done => cases h
  | fault => cases h

/-- A running decoder with a count of at most 4096 finds a row for every event. -/
theorem exists_decodeDec {p : Phase} {n : DictSize} (hr : running p = true) (hn : n.toNat ≤ 4096) (ev : CodeEvent) :
    ∃ i, decodeDec p n ev = .instr i := by
  rcases phase_of_running hr with rfl | rfl
  · cases ev with
    | code c => simp only [decodeDec]; split <;> exact ⟨_, rfl⟩
    | eos => exact ⟨_, rfl⟩
  · cases ev with
    | code c =>
      have hle : ¬ 4096#13 < n := by
        rw [BitVec.lt_def]
        exact Nat.not_lt.2 hn
      simp only [decodeDec, decodeRunCode, if_neg hle]
      split_ifs <;> exact ⟨_, rfl⟩
    | eos => exact ⟨_, rfl⟩

theorem DecoderRow.unitOf {p : Phase} {n : DictSize} {i : Instr} (h : DecoderRow p n i) : unitOf i = .decoder := by
  cases h <;> rfl

/-- A row of R100 is taken in FIRST or RUN and leaves the decoder in RUN, DONE or FAULT (R26). -/
theorem DecoderRow.exec_phase {p : Phase} {n : DictSize} {i : Instr} (hrow : DecoderRow p n i) {s s' : State}
    (hp : s.dec.phase = p) (h : exec i s = .next s') :
    (p = .first ∨ p = .run) ∧ (s'.dec.phase = .run ∨ s'.dec.phase = .done ∨ s'.dec.phase = .fault) := by
  have stays : ∀ {r : Run Decoder Unit}, r.Ends s.dec.Changes s.dec.Fails → p = .run → s.endDec r = .next s' →
      (p = .first ∨ p = .run) ∧ (s'.dec.phase = .run ∨ s'.dec.phase = .done ∨ s'.dec.phase = .fault) := by
    intro r hr hrun h
    refine ⟨.inr hrun, ?_⟩
    rcases State.endDec_ends hr h with hc | ⟨d1, f, _, _, _, hd⟩
    · exact .inl (hc.phase.trans (hp.trans hrun))
    · exact .inr (.inr (by rw [hd]; rfl))
  cases hrow with
  | first b hf =>
    refine ⟨.inl hf, ?_⟩
    have hr : ((s.dec.firstByte s.config (literalCode b)).bind fun x d1 => (d1.emit x).bind fun _ d2 =>
        .ok () ((d2.setPrevCode (literalCode b)).setPhase .run)).Ends
          (fun d' => d'.phase = .run) fun d' => d'.phase = .fault :=
      (Decoder.firstByte_ends _ _ _).bind
        (fun _ d1 _ => (d1.emit_ends _).bind (fun _ _ _ => rfl) fun _ ⟨_, _, _, _, _, hd⟩ => by rw [hd]; rfl)
        fun _ ⟨_, _, _, _, _, hd⟩ => by rw [hd]; rfl
    exact (State.endDec_ends hr (next_of_guard h).2).elim .inl fun hd => .inr (.inr hd)
  | firstBad c hf hc =>
    have h' := (next_of_guard h).2
    split at h' <;> cases h' <;> exact ⟨.inl hf, .inr (.inr rfl)⟩
  | corrupt c hrun hc => cases (next_of_guard h).2; exact ⟨.inr hrun, .inr (.inr rfl)⟩
  | known c hrun _ _ =>
    exact stays ((Decoder.firstByte_ends _ _ _).andThen fun _ _ => Decoder.growAndEmit_ends _ _ _ _) hrun
      (next_of_guard h).2
  | kwkwk c hrun _ _ =>
    exact stays ((Decoder.firstByte_ends _ _ _).andThen fun _ _ => Decoder.growAndEmit_ends _ _ _ _) hrun
      (next_of_guard h).2
  | reset b hrun _ => exact stays (Decoder.resetAndEmit_ends _ _ _) hrun (next_of_guard h).2
  | stale c hrun _ _ =>
    have h' := (next_of_guard h).2
    split at h'
    · cases h'; exact ⟨.inr hrun, .inr (.inr rfl)⟩
    · exact stays (Decoder.resetAndEmit_ends _ _ _) hrun h'
  | eos hr =>
    cases (next_of_guard h).2
    exact ⟨phase_of_running hr, .inr (.inl rfl)⟩

/-! ## Operations on a live decoder never stop -/

/-- Every run of writes is accepted, or fails at one of them. -/
theorem Sink.accepts_or_failsAt (n : Nat) (k : Sink) : k.accepts n = true ∨ ∃ j, j < n ∧ k.failsAt j = true := by
  induction n generalizing k with
  | zero => exact .inl (by simp [Sink.accepts])
  | succ n ih =>
    rcases k.accepts_or_fails with h | h
    · rcases ih (k.got [0#8]) with h' | ⟨j, hj, h'⟩
      · exact .inl (by rw [k.accepts_succ 0#8, h, h']; rfl)
      · exact .inr ⟨j + 1, by omega, by rw [k.failsAt_succ 0#8, h, h']; rfl⟩
    · exact .inr ⟨0, by omega, h⟩

/-- `DICT.EMIT` of an entry that is held does not stop (R177). -/
theorem Decoder.dictEmit_of_holds {cfg : Config} {c : Code} {bs : List Byte} {d : Decoder}
    (h : d.holds cfg c bs = true) : (∃ k, d.dictEmit cfg c = .ok () (d.setSink k))
      ∨ ∃ k, d.dictEmit cfg c = .raised ((d.setSink k).raiseBare .sinkFail) := by
  obtain ⟨en, he, hb, _, ho, hp⟩ := Decoder.holds_spec h
  simp only [Decoder.dictEmit, Decoder.readEntry_of_get he, Run.bind_ok]
  rcases d.sink.accepts_or_failsAt en.len with ha | ⟨j, hj, hf⟩
  · exact .inl ⟨_, Decoder.emitRange_of_accepts cfg _ _ d bs hb (by omega) ha⟩
  · exact .inr ⟨_, Decoder.emitRange_of_fails cfg _ _ d bs j hb (by omega) hj hf⟩

/-- Where R32 holds, every valid code is held, with at least one byte. -/
theorem Decoder.Live.holds {cfg : Config} {d : Decoder} (hl : d.Live cfg) {c : Code}
    (hc : c.toNat < d.dictSize.toNat) : ∃ x bs, d.holds cfg c (x :: bs) = true := by
  obtain ⟨en, bs, he, hb, ho, h1, _⟩ := hl.block hc
  cases bs with
  | nil => simp at h1
  | cons x bs => exact ⟨x, bs, by simp [Decoder.holds, he, hb, ho, hl.room]⟩

/-- Where R32 holds, `DICT.FIRSTBYTE` of a valid code returns a byte (R175). -/
theorem Decoder.Live.firstByte {cfg : Config} {d : Decoder} (hl : d.Live cfg) {c : Code}
    (hc : c.toNat < d.dictSize.toNat) : ∃ x, d.firstByte cfg c = .ok x d := by
  obtain ⟨x, bs, h⟩ := hl.holds hc
  exact ⟨x, Decoder.firstByte_of_holds h⟩

/-- The sink is no part of R32, and `prevCode` may be any valid code. -/
theorem Decoder.Live.setPrevCode {cfg : Config} {d : Decoder} (hl : d.Live cfg) (k : Sink) {c : Code}
    (hc : c.toNat < d.dictSize.toNat) : ((d.setSink k).setPrevCode c).Live cfg := by
  obtain ⟨hsize, _, hlit, hblocks, hptr, hroom, hlen, hgrown, hmark, hfresh⟩ := hl
  exact ⟨hsize, fun _ => hc, hlit, hblocks, hptr, hroom, hlen, hgrown, hmark, hfresh⟩

/-- The growth step on a live decoder: R32 for one entry more, or AllocFail. -/
theorem Decoder.Live.dictAdd {cfg : Config} {d : Decoder} (hl : d.Live cfg) (hrun : d.phase = .run)
    (hd : d.dictSize.toNat < 4096) (x : Byte) :
    (∃ d1, d.dictAdd cfg d.prevCode x = .ok () d1 ∧ d1.Live cfg ∧ d1.dictSize.toNat = d.dictSize.toNat + 1)
    ∨ ∃ d1, d.dictAdd cfg d.prevCode x = .raised d1 := by
  obtain ⟨y, ys, hh⟩ := hl.holds (hl.prev hrun)
  obtain ⟨en, he, hb, hlen, ho, hp⟩ := Decoder.holds_spec hh
  by_cases hr : d.aPtr + round4 ((y :: ys).length + 1) ≤ cfg.arenaBytes
  · obtain ⟨d1, h1, ha⟩ := Decoder.dictAdd_of_room cfg d.prevCode x d en _ he hb (.inr ho) (by omega) hd hr
    obtain ⟨hlive, _, hsize⟩ := ha.live hl hrun hd hh hr
    exact .inl ⟨d1, h1, hlive, hsize⟩
  · exact .inr ⟨_, Decoder.dictAdd_of_full cfg d.prevCode x d en he (by rw [hlen]; omega)⟩

/-- How an operation on a live decoder ends: in a live decoder, or in a fault taken. -/
def Run.EndsLive (cfg : Config) (r : Run Decoder Unit) : Prop :=
  (∃ d', r = .ok () d' ∧ d'.Live cfg) ∨ ∃ d', r = .raised d'

/-- Steps 4 to 6 of a code that adds an entry (R182), the code valid once the entry is there. -/
theorem Decoder.Live.growAndEmit {cfg : Config} {d : Decoder} (hl : d.Live cfg) (hrun : d.phase = .run)
    (hd : d.dictSize.toNat < 4096) {c : Code} (hc : c.toNat ≤ d.dictSize.toNat) (x : Byte) :
    (d.growAndEmit cfg c x).EndsLive cfg := by
  rcases hl.dictAdd hrun hd x with ⟨d1, h1, hl1, hs1⟩ | ⟨d1, h1⟩
  · have hc1 : c.toNat < d1.dictSize.toNat := by omega
    obtain ⟨y, ys, hh⟩ := hl1.holds hc1
    rcases Decoder.dictEmit_of_holds hh with ⟨k, h2⟩ | ⟨k, h2⟩
    · exact .inl ⟨_, by simp only [Decoder.growAndEmit, h1, h2, Run.bind_ok], hl1.setPrevCode k hc1⟩
    · exact .inr ⟨_, by simp only [Decoder.growAndEmit, h1, h2, Run.bind_ok, Run.bind_raised]; rfl⟩
  · exact .inr ⟨d1, by simp only [Decoder.growAndEmit, h1, Run.bind_raised]⟩

/-- R32 holds again once the dictionary is reset and the arena rewound, with a literal in `prevCode` (R186). -/
theorem Decoder.Live.reset {cfg : Config} {d : Decoder} (hl : d.Live cfg) (hrun : d.phase = .run) (b : Byte) :
    ((d.setDictSize initialSize).rewind.setPrevCode (literalCode b)).Live cfg := by
  have hmark := hl.mark
  have hptr := hl.ptr
  have hroom := hl.room
  have hge := blockStart_ge d.entries (d.dictSize.toNat - 256)
  have hsize : ((d.setDictSize initialSize).rewind.setPrevCode (literalCode b)).dictSize.toNat = 256 := rfl
  have hprev : ((d.setDictSize initialSize).rewind.setPrevCode (literalCode b)).prevCode.toNat < 256 :=
    (literalCode_toNat b).trans_lt b.isLt
  refine ⟨by omega, fun _ => by omega, hl.literals, fun k hk => by omega, ?ptr, ?room, fun k hk => by omega,
    fun k hk => by omega, hmark, fun h => ?fresh⟩
  case ptr =>
    rw [hsize, Nat.sub_self]
    exact hmark
  case room =>
    show d.aMark ≤ cfg.arenaBytes
    omega
  case fresh => cases hrun.symm.trans h

/-- The reset step for a literal (R186). -/
theorem Decoder.Live.resetAndEmit {cfg : Config} {d : Decoder} (hl : d.Live cfg) (hrun : d.phase = .run) (b : Byte) :
    (d.resetAndEmit cfg (literalCode b)).EndsLive cfg := by
  have hlit : (literalCode b).toNat < 256 := by rw [literalCode_toNat]; exact b.isLt
  have hsize := hl.size
  obtain ⟨x, hx⟩ := hl.firstByte (show (literalCode b).toNat < d.dictSize.toNat by omega)
  have hl1 := hl.reset hrun b
  obtain ⟨y, ys, hh⟩ := hl1.holds hlit
  rcases Decoder.dictEmit_of_holds (d := (d.setDictSize initialSize).rewind) hh with ⟨k, h2⟩ | ⟨k, h2⟩
  · exact .inl ⟨((d.setDictSize initialSize).rewind.setSink k).setPrevCode (literalCode b),
      by simp only [Decoder.resetAndEmit, hx, h2, Run.bind_ok], hl1.setPrevCode k hlit⟩
  · exact .inr ⟨_, by simp only [Decoder.resetAndEmit, hx, h2, Run.bind_ok, Run.bind_raised]; rfl⟩

end Sys2Proof.Machine
end

section
/-! SUPPORT. Each row of R100 ends in a next state that meets the decoder's invariants. -/

namespace Sys2Proof.Machine

/-! ## How the invariants are met again -/

/-- A decoder that takes a fault meets the invariants of phase FAULT, where its memories and its residual did. -/
theorem Decoder.raise_inv {cfg : Config} {d : Decoder} (hd : d.Canonical) (hres : d.rHave = false → d.rNib = 0#4)
    {f : Cause} {c : Code} {n : DictSize} (hf : f ≠ .none)
    (hbare : f.carriesCode = false → c = 0#12 ∧ n = 0#13) : (d.raise f c n).Inv cfg :=
  ⟨hd.1, hd.2, hres, by simpa [Decoder.raise] using hf, hbare, nofun⟩

/-- A running decoder whose invariants hold has taken no fault. -/
theorem Decoder.Inv.no_fault {cfg : Config} {d : Decoder} (hi : d.Inv cfg) (hr : running d.phase = true) :
    d.faultCause = .none ∧ d.faultCode = 0#12 ∧ d.faultDictSize = 0#13 := by
  have hcause : d.faultCause = .none := hi.record.2 fun h => by rw [h] at hr; cases hr
  obtain ⟨hcode, hsize⟩ := hi.bare (by rw [hcause]; rfl)
  exact ⟨hcause, hcode, hsize⟩

/-- An operation that ends live keeps the invariants. -/
theorem Decoder.Inv.endDec {cfg : Config} {d : Decoder} (hi : d.Inv cfg) (s : State) {r : Run Decoder Unit}
    (he : r.Ends d.Changes d.Fails) (hl : r.EndsLive cfg) :
    ∃ d', s.endDec r = .next (s.setDec d') ∧ d'.Inv cfg := by
  rcases hl with ⟨d', rfl, hl'⟩ | ⟨d', rfl⟩
  · obtain ⟨hen, har, hp, ⟨hc, ho, hs⟩, hh, hn⟩ : d.Changes d' := he
    exact ⟨d', rfl, hen hi.entriesCanonical, har hi.arenaCanonical, by rw [hh, hn]; exact hi.residual,
      by rw [hc, hp]; exact hi.record, by rw [hc, ho, hs]; exact hi.bare, fun _ => hl'⟩
  · obtain ⟨d1, f, h1, hf, _, rfl⟩ : d.Fails d' := he
    obtain ⟨hh, hn⟩ := h1.residual
    exact ⟨_, rfl, Decoder.raise_inv (h1.canonical ⟨hi.entriesCanonical, hi.arenaCanonical⟩)
      (by rw [hh, hn]; exact hi.residual) hf fun _ => ⟨rfl, rfl⟩⟩

/-- The source and the sink are no part of R32. -/
theorem Decoder.Live.setSource {cfg : Config} {d : Decoder} (hl : d.Live cfg) (src : DecSource) (k : Sink) :
    ((d.setSource src).setSink k).Live cfg := by
  obtain ⟨hsize, hprev, hlit, hblocks, hptr, hroom, hlen, hgrown, hmark, hfresh⟩ := hl
  exact ⟨hsize, hprev, hlit, hblocks, hptr, hroom, hlen, hgrown, hmark, hfresh⟩

theorem Decoder.Inv.setSource {cfg : Config} {d : Decoder} (hi : d.Inv cfg) (src : DecSource) (k : Sink) :
    ((d.setSource src).setSink k).Inv cfg :=
  ⟨hi.entriesCanonical, hi.arenaCanonical, hi.residual, hi.record, hi.bare, fun hr => (hi.live hr).setSource src k⟩

/-- In phase RUN the invariants hold also once GETCODE has taken a code. -/
theorem Decoder.Inv.setResidual {cfg : Config} {d : Decoder} (hi : d.Inv cfg) (hrun : d.phase = .run)
    (src : DecSource) {h : Bool} {n : Nibble} (hn : h = false → n = 0#4) :
    ((d.setSource src).setResidual h n).Inv cfg := by
  refine ⟨hi.entriesCanonical, hi.arenaCanonical, hn, hi.record, hi.bare, fun hr => ?_⟩
  obtain ⟨hsize, hprev, hlit, hblocks, hptr, hroom, hlen, hgrown, hmark, _⟩ := hi.live hr
  exact ⟨hsize, hprev, hlit, hblocks, hptr, hroom, hlen, hgrown, hmark, fun hf => by cases hrun.symm.trans hf⟩

/-! ## The rows of phase FIRST -/

/-- The first code (R180): R32 in phase RUN, or SinkFail. -/
theorem Decoder.Inv.exec_decFirst {s : State} (hi : s.dec.Inv s.config) (hp : s.dec.phase = .first) (b : Byte)
    (src : DecSource) {h : Bool} {n : Nibble} (hn : h = false → n = 0#4) :
    ∃ s', exec (.decFirst b) (s.setDec ((s.dec.setSource src).setResidual h n)) = .next s'
      ∧ s'.dec.Inv s.config := by
  have hr : running s.dec.phase = true := by rw [hp]; rfl
  have hl := hi.live hr
  have hsize := hl.size
  have hlit : (literalCode b).toNat < s.dec.dictSize.toNat := by
    rw [literalCode_toNat]
    exact b.isLt.trans_le hsize.1
  obtain ⟨hcause, hcode, hcount⟩ := hi.no_fault hr
  obtain ⟨x, bs, hh⟩ := hl.holds hlit
  have hx : ((s.dec.setSource src).setResidual h n).firstByte s.config (literalCode b)
      = .ok x ((s.dec.setSource src).setResidual h n) := Decoder.firstByte_of_holds hh
  simp only [exec, execDecFirst, State.setDec_dec, State.setDec_config, Decoder.setResidual_phase,
    Decoder.setSource_phase, hp, if_true, hx, Run.bind_ok]
  rcases ((s.dec.setSource src).setResidual h n).emit_cases x with ⟨k, hk⟩ | ⟨k, hk⟩
  · rw [hk, Run.bind_ok, State.endDec_ok]
    refine ⟨_, rfl, hi.entriesCanonical, hi.arenaCanonical, hn, by simp [hcause], fun _ => ⟨hcode, hcount⟩,
      fun _ => ?_⟩
    exact ⟨hsize, fun _ => hlit, hl.literals, hl.blocks, hl.ptr, hl.room, hl.lengths, hl.grown, hl.mark, nofun⟩
  · rw [hk, Run.bind_raised, State.endDec_raised]
    exact ⟨_, rfl, Decoder.raise_inv (d := ((s.dec.setSource src).setResidual h n).setSink k)
      ⟨hi.entriesCanonical, hi.arenaCanonical⟩ hn (by decide) fun _ => ⟨rfl, rfl⟩⟩

/-- A row of R100 in phase FIRST is performed and the invariants hold after it, whatever residual GETCODE has left. -/
theorem DecoderRow.exec_inv_first {s : State} {i : Instr} (hrow : DecoderRow .first s.dec.dictSize i)
    (hp : s.dec.phase = .first) (hi : s.dec.Inv s.config) (src : DecSource) {h : Bool} {n : Nibble}
    (hn : h = false → n = 0#4) :
    ∃ s', exec i (s.setDec ((s.dec.setSource src).setResidual h n)) = .next s' ∧ s'.dec.Inv s.config := by
  have hcan : ((s.dec.setSource src).setResidual h n).Canonical := ⟨hi.entriesCanonical, hi.arenaCanonical⟩
  have hp1 : (s.setDec ((s.dec.setSource src).setResidual h n)).dec.phase = .first := hp
  cases hrow with
  | first b _ => exact hi.exec_decFirst hp b src hn
  | firstBad c _ hc =>
    simp only [exec, execDecFirstBad, if_pos (And.intro hp1 hc)]
    split
    · exact ⟨_, rfl, Decoder.raise_inv hcan hn (by decide) nofun⟩
    · exact ⟨_, rfl, Decoder.raise_inv hcan hn (by decide) nofun⟩
  | eos _ =>
    have hr : running s.dec.phase = true := by rw [hp]; rfl
    obtain ⟨hcause, hcode, hcount⟩ := hi.no_fault hr
    simp only [exec, execDecEos, hp1, running, if_true]
    exact ⟨_, rfl, hcan.1, hcan.2, hn, by simp [hcause], fun _ => ⟨hcode, hcount⟩, nofun⟩
  | corrupt _ hrun => cases hrun
  | known _ hrun => cases hrun
  | kwkwk _ hrun => cases hrun
  | reset _ hrun => cases hrun
  | stale _ hrun => cases hrun

/-! ## The rows of phase RUN -/

theorem widenCode_lt {c : Code} {n : DictSize} (h : widenCode c < n) : c.toNat < n.toNat := by
  rwa [BitVec.lt_def, widenCode_toNat] at h

/-- A row of R100 in phase RUN is performed and the invariants hold after it, under `STALE_POLICY = fault`. -/
theorem DecoderRow.exec_inv_run {s : State} {i : Instr} (hrow : DecoderRow .run s.dec.dictSize i)
    (hp : s.dec.phase = .run) (hs : s.config.stale = .fault) (hi : s.dec.Inv s.config) :
    ∃ s', exec i s = .next s' ∧ s'.dec.Inv s.config := by
  have hr : running s.dec.phase = true := by rw [hp]; rfl
  have hl := hi.live hr
  have hcan : s.dec.Canonical := ⟨hi.entriesCanonical, hi.arenaCanonical⟩
  have ends : ∀ {r : Run Decoder Unit}, r.Ends s.dec.Changes s.dec.Fails → r.EndsLive s.config →
      ∃ s', s.endDec r = .next s' ∧ s'.dec.Inv s.config := by
    intro r he hlive
    obtain ⟨d', h', hd'⟩ := hi.endDec s he hlive
    exact ⟨_, h', hd'⟩
  cases hrow with
  | corrupt c _ hc =>
    simp only [exec, execDecCodeCorrupt, if_pos (And.intro hp hc)]
    exact ⟨_, rfl, Decoder.raise_inv hcan hi.residual (by decide) nofun⟩
  | known c _ hn hc =>
    have hlt := widenCode_lt hc
    obtain ⟨x, hx⟩ := hl.firstByte hlt
    simp only [exec, execDecCodeKnown, if_pos (And.intro hp (And.intro hn hc)), hx, Run.bind_ok]
    exact ends (Decoder.growAndEmit_ends _ _ _ _)
      (hl.growAndEmit hp ((lt_fullSize _).1 hn) (Nat.le_of_lt hlt) x)
  | kwkwk c _ hn hc =>
    have heq : c.toNat = s.dec.dictSize.toNat := by rw [← hc, widenCode_toNat]
    obtain ⟨x, hx⟩ := hl.firstByte (hl.prev hp)
    simp only [exec, execDecCodeKwkwk, if_pos (And.intro hp (And.intro hn hc)), hx, Run.bind_ok]
    exact ends (Decoder.growAndEmit_ends _ _ _ _) (hl.growAndEmit hp ((lt_fullSize _).1 hn) heq.le x)
  | reset b _ hn =>
    simp only [exec, execDecCodeReset, if_pos (And.intro hp hn)]
    exact ends (Decoder.resetAndEmit_ends _ _ _) (hl.resetAndEmit hp b)
  | stale c _ hn hc =>
    simp only [exec, execDecCodeStale, if_pos (And.intro hp (And.intro hn hc)), hs]
    exact ⟨_, rfl, Decoder.raise_inv hcan hi.residual (by decide) nofun⟩
  | eos _ =>
    obtain ⟨hcause, hcode, hcount⟩ := hi.no_fault hr
    simp only [exec, execDecEos, hr, if_true]
    exact ⟨_, rfl, hcan.1, hcan.2, hi.residual, by simp [hcause], fun _ => ⟨hcode, hcount⟩, nofun⟩
  | first _ hf => cases hf
  | firstBad _ hf => cases hf

/-! ## The decoder's turn -/

/-- A turn of a decoder whose invariants hold ends in a next state, and they hold there. -/
theorem State.fetchDecoder_inv {s : State} (hs : s.config.stale = .fault) (hi : s.dec.Inv s.config) :
    ∃ s', perform s.fetchDecoder = .next s' ∧ s'.dec.Inv s.config := by
  cases hr : running s.dec.phase with
  | false => exact ⟨s, by simp [State.fetchDecoder, hr, perform], hi⟩
  | true =>
    rcases State.fetchDecoder_running hr with hf | ⟨src, hf⟩ | ⟨ev, src, h, n, hf, hn⟩
    · exact ⟨s, by rw [hf]; rfl, hi⟩
    · refine ⟨_, by rw [hf]; rfl, ?_⟩
      exact Decoder.raise_inv (d := s.dec.setSource src) ⟨hi.entriesCanonical, hi.arenaCanonical⟩ hi.residual
        (by decide) fun _ => ⟨rfl, rfl⟩
    · have hres : h = false → n = 0#4 := by
        intro hh
        rcases hn with ⟨h1, h2⟩ | h1 | h1
        · rw [h2]; exact hi.residual (h1 ▸ hh)
        · cases h1.symm.trans hh
        · exact h1
      obtain ⟨i, hd⟩ := exists_decodeDec hr (hi.live hr).size.2 ev
      rw [hf, hd]
      have hrow := DecoderRow.of_decodeDec hd
      rcases phase_of_running hr with hp | hp
      · rw [hp] at hrow
        exact hrow.exec_inv_first hp hi src hres
      · rw [hp] at hrow
        exact DecoderRow.exec_inv_run (s := s.setDec ((s.dec.setSource src).setResidual h n)) hrow hp hs
          (hi.setResidual hp src hres)

end Sys2Proof.Machine
end

section
/-! SUPPORT. What a step does to each unit, turn by turn: the invariants R23 and R32, the phases of R26, and that a next state is always there. -/

namespace Sys2Proof.Machine

/-! ## The host's turn -/

/-- ENC.START is refused to a running encoder and starts any other (R224, R229). -/
theorem exec_encStart_cases (s : State) :
    (running s.enc.phase = true ∧ exec .encStart s = .next (s.setAnswer .startRefused))
    ∨ (running s.enc.phase = false ∧ ∃ s', exec .encStart s = .next s'
        ∧ s'.enc = s.enc.start (Config.freeCode s.draws) ∧ s'.dec = s.dec) := by
  cases hr : running s.enc.phase with
  | true => exact .inl ⟨rfl, by simp only [exec, execEncStart, hr, if_true]⟩
  | false =>
    have hexec : exec .encStart s = .next (((s.setEnc (s.enc.start (Config.freeCode s.draws))).setAnswer
        .startAccepted).setDraws (s.draws + 1)) := by
      simp only [exec, execEncStart, hr]
      rfl
    exact .inr ⟨rfl, _, hexec, rfl, rfl⟩

/-- DEC.START is refused to a running decoder; any other it starts, or leaves in phase FAULT where the arena has no room for the literals (R225, R229). -/
theorem exec_decStart_cases (s : State) :
    (running s.dec.phase = true ∧ exec .decStart s = .next (s.setAnswer .startRefused))
    ∨ (running s.dec.phase = false ∧ ∃ s', exec .decStart s = .next s' ∧ s'.enc = s.enc
        ∧ (s'.dec.phase = .first ∨ (s'.dec.phase = .fault ∧ s.config.arenaBytes < 1024))
        ∧ (s.dec.Inv s.config → s'.dec.Inv s.config)) := by
  cases hr : running s.dec.phase with
  | true => exact .inl ⟨rfl, by simp only [exec, execDecStart, hr, if_true]⟩
  | false =>
    refine .inr ⟨rfl, ?_⟩
    have hexec : exec .decStart s = ((s.setAnswer .startAccepted).setDraws (s.draws + 1)).endDec
        (s.dec.start s.config (Config.freeCode s.draws)) := by
      simp only [exec, execDecStart, hr]
      rfl
    by_cases hroom : 1024 ≤ s.config.arenaBytes
    · obtain ⟨es, ar, hstart, _⟩ := s.dec.start_spec s.config (Config.freeCode s.draws) hroom
      obtain ⟨_, hp, hinv, _⟩ := s.dec.started_live s.config (Config.freeCode s.draws) hroom
      simp only [Decoder.started, hstart] at hp hinv
      rw [hexec, hstart]
      exact ⟨_, rfl, rfl, .inl hp, fun _ => hinv⟩
    · obtain ⟨es, ar, ptr, hstart, he, ha⟩ := s.dec.start_allocFail s.config (Config.freeCode s.draws) (by omega)
      rw [hexec, hstart, State.endDec_raised]
      refine ⟨_, rfl, rfl, .inr ⟨rfl, by omega⟩, fun hi => ?_⟩
      refine Decoder.raise_inv ⟨he, ha⟩ ?_ (by decide) fun _ => ⟨rfl, rfl⟩
      simpa [Decoder.forget, Decoder.arenaInit] using hi.residual

/-- STATUS.READ writes the answer alone (R227). -/
theorem exec_statusRead (u : UnitId) (s : State) : ∃ a, exec (.statusRead u) s = .next (s.setAnswer a) := by
  cases u <;> exact ⟨_, rfl⟩

/-- Attaching to the encoder touches of it the streams alone, and not while it runs; of the decoder the source alone (R283, notes/assumptions/20.md). -/
theorem State.attachEncoder_cases (source : List Byte) (answers : List SinkAnswer) (s : State) :
    ((s.attachEncoder source answers).enc = s.enc
      ∨ (running s.enc.phase = false
        ∧ (s.attachEncoder source answers).enc = ((s.enc.setSource source).setSink ⟨[], answers⟩).setSinkNew true))
    ∧ ∃ src, (s.attachEncoder source answers).dec = s.dec.setSource src := by
  unfold State.attachEncoder
  cases hr : running s.enc.phase with
  | true => exact ⟨.inl rfl, s.dec.source, rfl⟩
  | false => exact ⟨.inr ⟨rfl, rfl⟩, _, rfl⟩

/-- Attaching to the decoder touches its streams alone (R283). -/
theorem State.attachDecoder_cases (source : DecSource) (answers : List SinkAnswer) (s : State) :
    (s.attachDecoder source answers).enc = s.enc
    ∧ ∃ src k, (s.attachDecoder source answers).dec = (s.dec.setSource src).setSink k := by
  unfold State.attachDecoder
  cases running s.dec.phase with
  | true => exact ⟨rfl, s.dec.source, s.dec.sink, rfl⟩
  | false => exact ⟨rfl, _, _, rfl⟩

/-- Every command of the host ends in a next state. To the encoder it does nothing, or attaches its streams or starts it where it is not running; the decoder keeps its invariants, and its phase unless DEC.START moves it. -/
theorem State.fetchHost_next (s : State) (c : HostCmd) :
    ∃ s', perform (s.fetchHost c) = .next s'
      ∧ (s'.enc = s.enc
        ∨ (running s.enc.phase = false
          ∧ ((∃ src k b, s'.enc = ((s.enc.setSource src).setSink k).setSinkNew b) ∨ ∃ free, s'.enc = s.enc.start free)))
      ∧ (s'.dec.phase = s.dec.phase
        ∨ (running s.dec.phase = false
          ∧ (s'.dec.phase = .first ∨ (s'.dec.phase = .fault ∧ s.config.arenaBytes < 1024))))
      ∧ (s.dec.Inv s.config → s'.dec.Inv s.config) := by
  cases c with
  | attachEncoder source answers =>
    obtain ⟨henc, src, hdec⟩ := s.attachEncoder_cases source answers
    refine ⟨_, rfl, henc.imp id fun h => ⟨h.1, .inl ⟨_, _, _, h.2⟩⟩, .inl (by rw [hdec]; rfl), fun hi => ?_⟩
    rw [hdec]
    exact hi.setSource src s.dec.sink
  | attachDecoder source answers =>
    obtain ⟨henc, src, k, hdec⟩ := s.attachDecoder_cases source answers
    refine ⟨_, rfl, .inl henc, .inl (by rw [hdec]; rfl), fun hi => ?_⟩
    rw [hdec]
    exact hi.setSource src k
  | encStart =>
    rcases exec_encStart_cases s with ⟨_, h⟩ | ⟨hr, s', h, henc, hdec⟩
    · exact ⟨_, h, .inl rfl, .inl rfl, id⟩
    · exact ⟨s', h, .inr ⟨hr, .inr ⟨_, henc⟩⟩, .inl (by rw [hdec]), by rw [hdec]; exact id⟩
  | decStart =>
    rcases exec_decStart_cases s with ⟨_, h⟩ | ⟨hr, s', h, henc, hp, hinv⟩
    · exact ⟨_, h, .inl rfl, .inl rfl, id⟩
    · exact ⟨s', h, .inl henc, .inr ⟨hr, hp⟩, hinv⟩
  | statusRead u =>
    obtain ⟨a, h⟩ := exec_statusRead u s
    exact ⟨_, h, .inl rfl, .inl rfl, id⟩

/-! ## The decoder's turn -/

/-- The decoder's turn leaves the encoder as it is and moves the decoder's phase only from FIRST or RUN to RUN, DONE or FAULT. -/
theorem perform_fetchDecoder {s s' : State} (h : perform s.fetchDecoder = .next s') :
    s'.enc = s.enc ∧ (s'.dec.phase = s.dec.phase
      ∨ ((s.dec.phase = .first ∨ s.dec.phase = .run)
        ∧ (s'.dec.phase = .run ∨ s'.dec.phase = .done ∨ s'.dec.phase = .fault))) := by
  cases hr : running s.dec.phase with
  | false =>
    simp only [State.fetchDecoder, hr] at h
    cases h
    exact ⟨rfl, .inl rfl⟩
  | true =>
    rcases State.fetchDecoder_running hr with hf | ⟨src, hf⟩ | ⟨ev, src, x, n, hf, _⟩
    · rw [hf] at h
      cases h
      exact ⟨rfl, .inl rfl⟩
    · rw [hf] at h
      cases h
      exact ⟨rfl, .inr ⟨phase_of_running hr, .inr (.inr rfl)⟩⟩
    · cases hd : decodeDec s.dec.phase s.dec.dictSize ev with
      | reject r => rw [hf, hd] at h; cases h
      | instr i =>
        rw [hf, hd] at h
        have hrow := DecoderRow.of_decodeDec hd
        obtain ⟨_, _, _, _, henc⟩ := exec_frame h
        exact ⟨henc hrow.unitOf, .inr (hrow.exec_phase (s := s.setDec ((s.dec.setSource src).setResidual x n)) rfl h)⟩

/-! ## The encoder's turn -/

/-- A driver operation of the encoder moves the phase along a line of R26. -/
theorem EncoderMove.phase {e e' : Encoder} (h : EncoderMove e e') :
    e'.phase = e.phase
    ∨ (e.phase = .first ∧ (e'.phase = .run ∨ e'.phase = .done))
    ∨ (e.phase = .run ∧ (e'.phase = .done ∨ e'.phase = .fault)) := by
  cases h with
  | first b hp => exact .inr (.inl ⟨hp, .inl rfl⟩)
  | hit b _ _ => exact .inl rfl
  | add b k h n _ _ _ _ => exact .inl rfl
  | reset b k h n _ _ => exact .inl rfl
  | eos k n hp _ => exact .inr (.inr ⟨hp, .inl rfl⟩)
  | empty hp => exact .inr (.inl ⟨hp, .inr rfl⟩)
  | fail k hp => exact .inr (.inr ⟨hp, .inr rfl⟩)

theorem State.endEnc_putCode_next (s : State) (c : Code) (e : Encoder) (g : Encoder → Encoder) :
    ∃ s', s.endEnc ((e.putCode c).bind fun _ e1 => .ok () (g e1)) = .next s' := by
  rcases e.putCode_cases c with ⟨_, _, _, h, _⟩ | ⟨_, h⟩ <;> rw [h] <;> exact ⟨_, rfl⟩

theorem State.endEnc_putLast_next (s : State) (c : Code) (e : Encoder) (g : Encoder → Encoder) :
    ∃ s', s.endEnc ((e.putLast c).bind fun _ e1 => .ok () (g e1)) = .next s' := by
  rcases e.putLast_cases c with ⟨_, _, h, _⟩ | ⟨_, h⟩ <;> rw [h] <;> exact ⟨_, rfl⟩

/-- Under its guard an operation answers what it answers without one. -/
theorem exists_next_of_guard {c : Prop} [Decidable c] {r : Refusal} {o : Host.Outcome State Fault Refusal} (hc : c)
    (h : ∃ s', o = .next s') : ∃ s', (if c then o else .refused r) = .next s' := by
  simpa only [hc, if_true] using h

/-- With a count of at most 4096 a running encoder finds a row of R99 for every event, and its operation ends in a next state. -/
theorem exists_decodeEnc {s : State} (hr : running s.enc.phase = true) (hd : s.enc.dictSize.toNat ≤ 4096)
    (ev : SymbolEvent) : ∃ i, decodeEnc s.enc.phase (s.enc.cellFor ev) s.enc.dictSize ev = .instr i
      ∧ ∃ s', exec i s = .next s' := by
  rcases phase_of_running hr with hp | hp
  · cases ev with
    | byte b => exact ⟨.encFirst b, by rw [hp]; rfl, exists_next_of_guard hp ⟨_, rfl⟩⟩
    | eos => exact ⟨.encEosEmpty, by rw [hp]; rfl, exists_next_of_guard hp ⟨_, rfl⟩⟩
  · cases ev with
    | eos =>
      exact ⟨.encEos, by rw [hp]; rfl, exists_next_of_guard hp (s.endEnc_putLast_next _ _ _)⟩
    | byte b =>
      simp only [hp, decodeEnc]
      by_cases hcell : s.enc.cellFor (.byte b) = 0#12
      · rw [if_neg (not_not_intro hcell)]
        by_cases hlt : s.enc.dictSize < 4096#13
        · refine ⟨_, if_pos hlt, ?_⟩
          exact exists_next_of_guard ⟨hp, hcell, hlt⟩ (s.endEnc_putCode_next _ _ _)
        · have hfull : s.enc.dictSize = 4096#13 := by bv_omega
          refine ⟨_, by rw [if_neg hlt, if_pos hfull], ?_⟩
          exact exists_next_of_guard ⟨hp, hcell, hfull⟩ (s.endEnc_putCode_next _ _ _)
      · exact ⟨_, if_pos hcell, exists_next_of_guard ⟨hp, hcell⟩ ⟨_, rfl⟩⟩

/-- A turn of an encoder whose invariants hold ends in a next state. -/
theorem State.fetchEncoder_next {s : State} (hi : s.enc.Inv) : ∃ s', perform s.fetchEncoder = .next s' := by
  cases hr : running s.enc.phase with
  | false => exact ⟨s, by simp [State.fetchEncoder, hr, perform]⟩
  | true =>
    obtain ⟨src, hf⟩ := State.fetchEncoder_running hr
    obtain ⟨i, hd, s', h⟩ := exists_decodeEnc (s := s.setEnc (s.enc.setSource src)) hr (hi.live hr).size.2 s.enc.read.1
    exact ⟨s', by rw [hf]; exact (congrArg _ (congrArg _ hd)).trans h⟩

/-! ## The statements about every step -/

/-- Settles O54: turn by turn, from the rows' own phases. -/
theorem phasesMoveOnlyAlongTheTable : Obligations.PhasesMoveOnlyAlongTheTable := by
  unfold Obligations.PhasesMoveOnlyAlongTheTable
  intro s s' hp h
  rcases step_cases hp h with ⟨c, rest, _, h⟩ | ⟨ag, h, _⟩ | ⟨ag, h, _⟩ | rfl
  case inl =>
    obtain ⟨t, ht, henc, hdec, _⟩ := (s.setAgenda rest).fetchHost_next c
    obtain rfl : t = s' := by simpa only [ht, Host.Outcome.next.injEq] using h
    constructor
    · rcases henc with he | ⟨hr, ⟨src, k, b, he⟩ | ⟨free, he⟩⟩
      · exact .inl (by rw [he]; rfl)
      · exact .inl (by rw [he]; rfl)
      · exact .inr (.inl ⟨hr, by rw [he]; rfl⟩)
    · rcases hdec with hd | ⟨hr, hd | ⟨hd, hroom⟩⟩
      · exact .inl hd
      · exact .inr (.inl ⟨hr, hd⟩)
      · exact .inr (.inr (.inl ⟨hr, hd, hroom⟩))
  case inr.inl =>
    rcases perform_fetchEncoder h with ⟨_, rfl⟩ | ⟨_, src, hm, hdec, _⟩
    · exact ⟨.inl rfl, .inl rfl⟩
    · refine ⟨?_, .inl (by rw [hdec]; rfl)⟩
      exact hm.phase.imp id .inr
  case inr.inr.inl =>
    obtain ⟨henc, hdec⟩ := perform_fetchDecoder h
    refine ⟨.inl (by rw [henc]; rfl), ?_⟩
    rcases hdec with hd | ⟨hf | hr, hd⟩
    · exact .inl hd
    · exact .inr (.inr (.inr (.inl ⟨hf, hd⟩)))
    · rcases hd with hd | hd
      · exact .inl (hd.trans hr.symm)
      · exact .inr (.inr (.inr (.inr ⟨hr, hd⟩)))
  case inr.inr.inr => exact ⟨.inl rfl, .inl rfl⟩

/-- Settles O56: a move of the encoder's turn or a command of the host keeps R23; the decoder's turn does not touch it. -/
theorem stepKeepsTheEncoderInvariants : Obligations.StepKeepsTheEncoderInvariants := by
  unfold Obligations.StepKeepsTheEncoderInvariants
  intro s s' hp hi h
  rcases step_cases hp h with ⟨c, rest, _, h⟩ | ⟨ag, h, _⟩ | ⟨ag, h, _⟩ | rfl
  case inl =>
    obtain ⟨t, ht, henc, _⟩ := (s.setAgenda rest).fetchHost_next c
    obtain rfl : t = s' := by simpa only [ht, Host.Outcome.next.injEq] using h
    rcases henc with he | ⟨hr, ⟨src, k, b, he⟩ | ⟨free, he⟩⟩
    · rw [he]; exact hi
    · rw [he]
      exact ⟨hi.canonical, hi.residual, hi.record, fun h => by cases hr.symm.trans h⟩
    · rw [he]; exact (Encoder.start_live free s.enc).2
  case inr.inl =>
    rcases perform_fetchEncoder h with ⟨_, rfl⟩ | ⟨hr, src, hm, _⟩
    · exact hi
    · exact hm.inv (hi.setSource src) hr
  case inr.inr.inl => rw [(perform_fetchDecoder h).1]; exact hi
  case inr.inr.inr => exact hi

/-- Settles O57: the decoder's turn and the host's commands end in states that meet R32; the encoder's turn does not touch it. -/
theorem stepKeepsTheDecoderInvariants : Obligations.StepKeepsTheDecoderInvariants := by
  unfold Obligations.StepKeepsTheDecoderInvariants
  intro s s' hp hs hi h
  rw [(step_config h).1]
  rcases step_cases hp h with ⟨c, rest, _, h⟩ | ⟨ag, h, _⟩ | ⟨ag, h, _⟩ | rfl
  case inl =>
    obtain ⟨t, ht, _, _, hinv⟩ := (s.setAgenda rest).fetchHost_next c
    obtain rfl : t = s' := by simpa only [ht, Host.Outcome.next.injEq] using h
    exact hinv hi
  case inr.inl =>
    rcases perform_fetchEncoder h with ⟨_, rfl⟩ | ⟨_, _, _, hdec, _⟩
    · exact hi
    · rw [hdec]; exact hi
  case inr.inr.inl =>
    obtain ⟨t, ht, hinv⟩ := State.fetchDecoder_inv (s := s.setAgenda ag) hs hi
    obtain rfl : t = s' := by simpa only [ht, Host.Outcome.next.injEq] using h
    exact hinv
  case inr.inr.inr => exact hi

/-- Every turn ends in a next state where the invariants hold. -/
theorem State.fetchTurn_next {s : State} (hi : s.Inv) (t : Turn) : ∃ s', perform (s.fetchTurn t) = .next s' := by
  cases t with
  | host c => exact (s.fetchHost_next c).imp fun _ h => h.1
  | encoder => exact State.fetchEncoder_next hi.enc
  | decoder => exact (State.fetchDecoder_inv hi.policy hi.dec).imp fun _ h => h.1

/-- Settles O58: the step is one of the turns, or nothing is to be done. -/
theorem invariantStatesAlwaysStep : Obligations.InvariantStatesAlwaysStep := by
  unfold Obligations.InvariantStatesAlwaysStep
  intro s hi
  rw [step_eq_perform]
  cases ha : s.agenda with
  | cons t rest =>
    rw [State.fetch_of_agenda_cons hi.port ha]
    exact State.fetchTurn_next (s := s.setAgenda rest) ⟨hi.policy, hi.port, hi.enc, hi.dec⟩ t
  | nil =>
    rw [State.fetch_of_agenda_nil hi.port ha, State.fetchFree]
    split
    · exact State.fetchTurn_next hi .encoder
    · split
      · exact State.fetchTurn_next hi .decoder
      · exact ⟨s, rfl⟩

end Sys2Proof.Machine
end

section
/-! SUPPORT. The state after power-on, and the operations that read what holds no value (R36). -/

namespace Sys2Proof.Machine

/-- Settles O52: both units are IDLE, so R23 and R32 ask nothing of them, and the memories are empty. -/
theorem resetMeetsTheInvariants : Obligations.ResetMeetsTheInvariants := by
  unfold Obligations.ResetMeetsTheInvariants
  have henc : State.reset.enc.Inv := ⟨rfl, fun _ => rfl, by decide, nofun⟩
  have hdec : State.reset.dec.Inv State.reset.config := ⟨rfl, rfl, fun _ => rfl, by decide, fun _ => ⟨rfl, rfl⟩, nofun⟩
  exact ⟨⟨rfl, rfl, henc, hdec⟩, rfl, rfl, fun _ => rfl, fun _ => rfl, rfl⟩

theorem Decoder.readEntry_of_none {c : Code} {d : Decoder} (h : Memory.get? d.entries c.toNat = none) :
    d.readEntry c = .stop .unwrittenEntry := by
  simp only [Decoder.readEntry, h]

theorem Decoder.readArena_of_none {cfg : Config} {o : Nat} {d : Decoder} (ho : o < cfg.arenaBytes)
    (h : Memory.get? d.arena o = none) : d.readArena cfg o = .stop .unwrittenArena := by
  simp only [Decoder.readArena, Nat.not_le.2 ho, if_false, h]

/-- Settles O33: the first read of each listing is the one that stops. -/
theorem readingWhatHoldsNoValueStops : Obligations.ReadingWhatHoldsNoValueStops := by
  unfold Obligations.ReadingWhatHoldsNoValueStops
  intro s c
  refine ⟨fun hnone => ?entry, fun en hen ho hnone => ?byte⟩
  case entry =>
    have hread := Decoder.readEntry_of_none hnone
    refine ⟨?_, ?_, fun x => ?_⟩
    · simp only [exec, execDictFirstByte, Decoder.firstByte, hread, Run.bind_stop, State.answerDec]
    · simp only [exec, execDictEmit, Decoder.dictEmit, hread, Run.bind_stop, State.endDec_stop]
    · simp only [exec, execDictAdd, Decoder.dictAdd, hread, Run.bind_stop, State.endDec_stop]
  case byte =>
    have hread := Decoder.readEntry_of_get hen
    have hbyte := Decoder.readArena_of_none ho hnone
    refine ⟨?_, fun hlen => ?_, fun hlen hroom x => ?_⟩
    · simp only [exec, execDictFirstByte, Decoder.firstByte, hread, Run.bind_ok, hbyte, State.answerDec]
    · obtain ⟨n, hn⟩ := Nat.exists_eq_add_of_le' hlen
      simp only [exec, execDictEmit, Decoder.dictEmit, hread, Run.bind_ok, hn, Decoder.emitRange, hbyte, Run.bind_stop,
        State.endDec_stop]
    · obtain ⟨n, hn⟩ := Nat.exists_eq_add_of_le' hlen
      rcases s.dec.alloc_cases s.config (en.len + 1) with ⟨_, halloc⟩ | ⟨hfull, _⟩
      · have hbyte' := Decoder.readArena_of_none (d := s.dec.setPtr (s.dec.aPtr + round4 (en.len + 1))) ho hnone
        have hcopy : Decoder.copyBytes s.config en.len en.off s.dec.aPtr (s.dec.setPtr (s.dec.aPtr + round4 (en.len + 1)))
            = .stop .unwrittenArena := by
          rw [hn] at hbyte' ⊢
          simp only [Decoder.copyBytes, hbyte', Run.bind_stop]
        simp only [exec, execDictAdd, Decoder.dictAdd, hread, Run.bind_ok, halloc, hcopy, Run.bind_stop,
          State.endDec_stop]
      · omega

end Sys2Proof.Machine
end

section
/-! SUPPORT. R73: how far the arena can fill where R32 holds, and that with a legal arena no step takes AllocFail. -/

namespace Sys2Proof.Machine

/-! ## The bound of R73 -/

theorem round4_mono {m n : Nat} (h : m ≤ n) : round4 m ≤ round4 n := by
  unfold round4
  omega

/-- The blocks end no later than those of the longest entries R32 (f) allows. -/
theorem blockStart_le_sum {m : List (Nat × Entry)} (k : Nat) (h : ∀ j, j < k → lenOf m (256 + j) ≤ j + 2) :
    blockStart m k ≤ 1024 + ∑ j ∈ Finset.range k, round4 (j + 2) := by
  induction k with
  | zero => exact Nat.le_refl 1024
  | succ k ih =>
    have hinit := ih fun j hj => h j (by omega)
    have hlast := round4_mono (h k (by omega))
    simp only [blockStart, Finset.sum_range_succ]
    omega

/-- Four blocks in a row, of 4q + 2 to 4q + 5 bytes, take 16q + 20. -/
theorem sum_round4 (q : Nat) : ∑ j ∈ Finset.range (4 * q), round4 (j + 2) = 8 * q ^ 2 + 12 * q := by
  induction q with
  | zero => rfl
  | succ q ih =>
    have hfour : round4 (4 * q + 2) + round4 (4 * q + 1 + 2) + round4 (4 * q + 2 + 2) + round4 (4 * q + 3 + 2)
        = 16 * q + 20 := by
      unfold round4
      omega
    have hsquare : (q + 1) ^ 2 = q ^ 2 + 2 * q + 1 := by ring
    rw [show 4 * (q + 1) = 4 * q + 4 by ring]
    simp only [Finset.sum_range_succ, ih]
    omega

/-- The longest 3840 dynamic entries end at 7,385,344. -/
theorem sum_round4_le {k : Nat} (hk : k ≤ 3840) : 1024 + ∑ j ∈ Finset.range k, round4 (j + 2) ≤ 7385344 := by
  have hsub : ∑ j ∈ Finset.range k, round4 (j + 2) ≤ ∑ j ∈ Finset.range (4 * 960), round4 (j + 2) :=
    Finset.sum_le_sum_of_subset (Finset.range_mono hk)
  rw [sum_round4] at hsub
  omega

/-- Where R32 holds, the blocks of the dynamic entries end no later than the longest ones would. -/
theorem Decoder.Live.aPtr_le_sum {cfg : Config} {d : Decoder} (hl : d.Live cfg) :
    d.aPtr ≤ 1024 + ∑ j ∈ Finset.range (d.dictSize.toNat - 256), round4 (j + 2) := by
  rw [hl.ptr]
  exact blockStart_le_sum _ fun j hj => (hl.lengths j (by omega)).2

theorem Decoder.Live.aPtr_le {cfg : Config} {d : Decoder} (hl : d.Live cfg) : d.aPtr ≤ 7385344 := by
  have hsize := hl.size
  exact hl.aPtr_le_sum.trans (sum_round4_le (by omega))

/-- Where R32 holds and the dictionary is not full, an entry one byte longer than a valid one ends below the bound too. -/
theorem Decoder.Live.aPtr_add_le {cfg : Config} {d : Decoder} (hl : d.Live cfg) (hd : d.dictSize.toNat < 4096)
    {n : Nat} (hn : n ≤ d.dictSize.toNat - 256 + 1) : d.aPtr + round4 (n + 1) ≤ 7385344 := by
  have hold := hl.aPtr_le_sum
  have hnew := round4_mono (show n + 1 ≤ d.dictSize.toNat - 256 + 2 by omega)
  have hsum := sum_round4_le (show d.dictSize.toNat - 256 + 1 ≤ 3840 by omega)
  rw [Finset.sum_range_succ] at hsum
  omega

/-! ## Operations that do not allocate -/

/-- The cause recorded is not AllocFail. -/
def Decoder.NoAllocFail (d : Decoder) : Prop := d.faultCause ≠ .allocFail

theorem Decoder.firstByte_noAllocFail {d : Decoder} (h : d.NoAllocFail) (cfg : Config) (c : Code) :
    (d.firstByte cfg c).Ends Decoder.NoAllocFail Decoder.NoAllocFail := by
  rcases d.firstByte_cases cfg c with ⟨x, hx⟩ | ⟨f, hx⟩
  · rw [hx]; exact h
  · rw [hx]; trivial

theorem Decoder.raiseBare_sinkFail_noAllocFail (d : Decoder) : (d.raiseBare .sinkFail).NoAllocFail := nofun

theorem Decoder.emit_noAllocFail {d : Decoder} (h : d.NoAllocFail) (v : Byte) :
    (d.emit v).Ends Decoder.NoAllocFail Decoder.NoAllocFail := by
  rcases d.emit_cases v with ⟨k, hk⟩ | ⟨k, hk⟩
  · rw [hk]; exact h
  · rw [hk]; exact Decoder.raiseBare_sinkFail_noAllocFail _

theorem Decoder.dictEmit_noAllocFail {d : Decoder} (h : d.NoAllocFail) (cfg : Config) (c : Code) :
    (d.dictEmit cfg c).Ends Decoder.NoAllocFail Decoder.NoAllocFail := by
  rcases d.dictEmit_cases cfg c with ⟨k, hk⟩ | ⟨k, hk⟩ | ⟨f, hk⟩
  · rw [hk]; exact h
  · rw [hk]; exact Decoder.raiseBare_sinkFail_noAllocFail _
  · rw [hk]; trivial

/-- The reset step allocates nothing (R186). -/
theorem Decoder.resetAndEmit_noAllocFail {d : Decoder} (h : d.NoAllocFail) (cfg : Config) (c : Code) :
    (d.resetAndEmit cfg c).Ends Decoder.NoAllocFail Decoder.NoAllocFail :=
  (Decoder.firstByte_noAllocFail h cfg c).bind
    (fun _ d1 h1 => (Decoder.dictEmit_noAllocFail (d := (d1.setDictSize initialSize).rewind) h1 cfg c).bind
      (fun _ _ h2 => h2) fun _ => id)
    fun _ => id

/-! ## The growth step -/

/-- With a legal arena the growth step on a live decoder finds room for its block, so it raises no fault (R73, R176). -/
theorem Decoder.Live.dictAdd_of_legal {cfg : Config} {d : Decoder} (hl : d.Live cfg) (hrun : d.phase = .run)
    (hd : d.dictSize.toNat < 4096) (hlegal : 7385344 ≤ cfg.arenaBytes) (x : Byte) :
    (d.dictAdd cfg d.prevCode x).Ends d.Changes fun _ => False := by
  have hprev := hl.prev hrun
  obtain ⟨en, bp, he, hb, ho, _, hlen⟩ := hl.block hprev
  have hbp : bp.length ≤ d.dictSize.toNat - 256 + 1 := by split at hlen <;> omega
  have hroom := hl.aPtr_add_le hd hbp
  have hptr := hl.room
  obtain ⟨d1, h1, _⟩ := Decoder.dictAdd_of_room cfg d.prevCode x d en bp he hb (.inr ho) (by omega) hd (by omega)
  have hends := d.dictAdd_ends cfg d.prevCode x
  rw [h1] at hends ⊢
  exact hends

/-- Steps 4 to 6 of a code that adds an entry (R182) take no AllocFail. -/
theorem Decoder.Live.growAndEmit_noAllocFail {cfg : Config} {d : Decoder} (hl : d.Live cfg) (hrun : d.phase = .run)
    (hd : d.dictSize.toNat < 4096) (hlegal : 7385344 ≤ cfg.arenaBytes) (h : d.NoAllocFail) (c : Code) (x : Byte) :
    (d.growAndEmit cfg c x).Ends Decoder.NoAllocFail Decoder.NoAllocFail := by
  refine (hl.dictAdd_of_legal hrun hd hlegal x).bind (fun _ d1 hc => ?_) fun _ => False.elim
  have h1 : d1.NoAllocFail := by
    rw [Decoder.NoAllocFail, hc.record.1]
    exact h
  exact (Decoder.dictEmit_noAllocFail h1 cfg c).bind (fun _ _ h2 => h2) fun _ => id

/-! ## The turns -/

/-- In phase RUN the source and the residual are no part of R32. -/
theorem Decoder.Live.setResidual {cfg : Config} {d : Decoder} (hl : d.Live cfg) (hrun : d.phase = .run)
    (src : DecSource) (h : Bool) (n : Nibble) : ((d.setSource src).setResidual h n).Live cfg := by
  obtain ⟨hsize, hprev, hlit, hblocks, hptr, hroom, hlen, hgrown, hmark, _⟩ := hl
  exact ⟨hsize, hprev, hlit, hblocks, hptr, hroom, hlen, hgrown, hmark, fun hf => by cases hrun.symm.trans hf⟩

/-- No row of R100 takes AllocFail with a legal arena; R32 is asked for in phase RUN alone, where the rows that allocate are. -/
theorem DecoderRow.exec_noAllocFail {p : Phase} {n : DictSize} {i : Instr} (hrow : DecoderRow p n i) {s s' : State}
    (hp : s.dec.phase = p) (hn : s.dec.dictSize = n) (hl : p = .run → s.dec.Live s.config)
    (hlegal : 7385344 ≤ s.config.arenaBytes) (hno : s.dec.NoAllocFail) (h : exec i s = .next s') :
    s'.dec.NoAllocFail := by
  have ends : ∀ {r : Run Decoder Unit}, r.Ends Decoder.NoAllocFail Decoder.NoAllocFail → s.endDec r = .next s' →
      s'.dec.NoAllocFail := fun hr h => (State.endDec_ends hr h).elim id id
  have grows : ∀ {c' c : Code}, p = .run → n < fullSize →
      s.endDec ((s.dec.firstByte s.config c').bind fun x d1 => d1.growAndEmit s.config c x) = .next s' →
      s'.dec.NoAllocFail := by
    intro c' c hrun hlt h
    rcases s.dec.firstByte_cases s.config c' with ⟨x, hx⟩ | ⟨f, hx⟩
    · rw [hx, Run.bind_ok] at h
      have hd : s.dec.dictSize.toNat < 4096 := (lt_fullSize _).1 (hn ▸ hlt)
      exact ends ((hl hrun).growAndEmit_noAllocFail (hp.trans hrun) hd hlegal hno c x) h
    · rw [hx, Run.bind_stop, State.endDec_stop] at h
      cases h
  cases hrow with
  | first b hf =>
    refine ends ?_ (next_of_guard h).2
    exact (Decoder.firstByte_noAllocFail hno _ _).bind
      (fun x _ h1 => (Decoder.emit_noAllocFail h1 x).bind (fun _ _ h2 => h2) fun _ => id) fun _ => id
  | firstBad c hf hc =>
    have h' := (next_of_guard h).2
    split at h' <;> cases h' <;> exact nofun
  | corrupt c hrun hc => cases (next_of_guard h).2; exact nofun
  | known c hrun hlt hc => exact grows hrun hlt (next_of_guard h).2
  | kwkwk c hrun hlt hc => exact grows hrun hlt (next_of_guard h).2
  | reset b hrun hfull => exact ends (Decoder.resetAndEmit_noAllocFail hno _ _) (next_of_guard h).2
  | stale c hrun hfull hc =>
    have h' := (next_of_guard h).2
    split at h'
    · cases h'; exact nofun
    · exact ends (Decoder.resetAndEmit_noAllocFail hno _ _) h'
  | eos hr => cases (next_of_guard h).2; exact hno

/-- The decoder's turn takes no AllocFail with a legal arena. -/
theorem perform_fetchDecoder_noAllocFail {s s' : State} (hi : s.dec.Inv s.config)
    (hlegal : 7385344 ≤ s.config.arenaBytes) (hno : s.dec.NoAllocFail) (h : perform s.fetchDecoder = .next s') :
    s'.dec.NoAllocFail := by
  cases hr : running s.dec.phase with
  | false =>
    simp only [State.fetchDecoder, hr] at h
    cases h
    exact hno
  | true =>
    rcases State.fetchDecoder_running hr with hf | ⟨src, hf⟩ | ⟨ev, src, x, n, hf, _⟩
    · rw [hf] at h; cases h; exact hno
    · rw [hf] at h; cases h; exact nofun
    · cases hd : decodeDec s.dec.phase s.dec.dictSize ev with
      | reject r => rw [hf, hd] at h; cases h
      | instr i =>
        rw [hf, hd] at h
        refine (DecoderRow.of_decodeDec hd).exec_noAllocFail
          (s := s.setDec ((s.dec.setSource src).setResidual x n)) rfl rfl ?live hlegal hno h
        case live => exact fun hrun => (hi.live hr).setResidual hrun src x n

/-- The host's commands take no AllocFail with a legal arena: DEC.START has room for the literals, and no other command writes the record. -/
theorem perform_fetchHost_noAllocFail {s s' : State} {c : HostCmd} (hi : s.dec.Inv s.config)
    (hlegal : 7385344 ≤ s.config.arenaBytes) (hno : s.dec.NoAllocFail) (h : perform (s.fetchHost c) = .next s') :
    s'.dec.NoAllocFail := by
  cases c with
  | attachEncoder source answers =>
    obtain ⟨_, src, hdec⟩ := s.attachEncoder_cases source answers
    cases h
    rw [hdec]
    exact hno
  | attachDecoder source answers =>
    obtain ⟨_, src, k, hdec⟩ := s.attachDecoder_cases source answers
    cases h
    rw [hdec]
    exact hno
  | encStart =>
    rcases exec_encStart_cases s with ⟨_, he⟩ | ⟨_, t, he, _, hdec⟩
    · cases he.symm.trans h
      exact hno
    · cases he.symm.trans h
      rw [hdec]
      exact hno
  | decStart =>
    rcases exec_decStart_cases s with ⟨_, he⟩ | ⟨_, t, he, _, hphase, hinv⟩
    · cases he.symm.trans h
      exact hno
    · cases he.symm.trans h
      rcases hphase with hfirst | ⟨_, hsmall⟩
      · have hnone := (hinv hi).record.2 (by rw [hfirst]; decide)
        rw [Decoder.NoAllocFail, hnone]
        decide
      · omega
  | statusRead u =>
    obtain ⟨a, he⟩ := exec_statusRead u s
    cases he.symm.trans h
    exact hno

/-- Settles O59: the bound sums the longest blocks R32 (f) allows; turn by turn, whatever is allocated fits below it. -/
theorem arenaNeverOverflows : Obligations.ArenaNeverOverflows := by
  unfold Obligations.ArenaNeverOverflows
  refine ⟨fun _ _ hl => hl.aPtr_le, fun s s' hi hlegal hno h => ?_⟩
  have hbytes : 7385344 ≤ s.config.arenaBytes := of_decide_eq_true hlegal
  rcases step_cases hi.port h with ⟨c, rest, _, h⟩ | ⟨ag, h, _⟩ | ⟨ag, h, _⟩ | rfl
  case inl => exact perform_fetchHost_noAllocFail (s := s.setAgenda rest) hi.dec hbytes hno h
  case inr.inl =>
    rcases perform_fetchEncoder h with ⟨_, rfl⟩ | ⟨_, _, _, hdec, _⟩
    · exact hno
    · rw [hdec]; exact hno
  case inr.inr.inl => exact perform_fetchDecoder_noAllocFail (s := s.setAgenda ag) hi.dec hbytes hno h
  case inr.inr.inr => exact hno

end Sys2Proof.Machine
end

section
/-! SUPPORT. The wire formats and the operand words: how a code lies in bytes as numbers (R93, R94), the rows the selection tables give, each as an iff (R99, R100), and what a word alone is read as (notes/assumptions/16.md). -/

namespace Sys2Proof

/-! ## Slices as numbers (R14 (c)) -/

theorem codeHigh8_eq_ofNat (c : Code) : codeHigh8 c = BitVec.ofNat 8 (c.toNat / 16) :=
  by
  rw [← codeHigh8_toNat, BitVec.ofNat_toNat, BitVec.setWidth_eq]

theorem codeLow8_eq_ofNat (c : Code) : codeLow8 c = BitVec.ofNat 8 (c.toNat % 256) := by
  rw [← codeLow8_toNat, BitVec.ofNat_toNat, BitVec.setWidth_eq]

/-- The byte that holds the low nibble of one code and any other nibble. -/
theorem joinNibbles_codeLow4 (c : Code) (lo : Nibble) :
    joinNibbles (codeLow4 c) lo = BitVec.ofNat 8 (c.toNat % 16 * 16 + lo.toNat) := by
  rw [← codeLow4_toNat, ← joinNibbles_toNat, BitVec.ofNat_toNat, BitVec.setWidth_eq]

/-! ## The two wire words (R93, R94) -/

theorem pair3Bytes_eq (code1 code2 : Code) : pair3Bytes code1 code2 = [BitVec.ofNat 8 (code1.toNat / 16),
    BitVec.ofNat 8 (code1.toNat % 16 * 16 + code2.toNat / 256), BitVec.ofNat 8 (code2.toNat % 256)] := by
  rw [pair3Bytes, codeHigh8_eq_ofNat, joinNibbles_codeLow4, codeHigh4_toNat, codeLow8_eq_ofNat]

theorem tail2Bytes_eq (code : Code) :
    tail2Bytes code = [BitVec.ofNat 8 (code.toNat / 16), BitVec.ofNat 8 (code.toNat % 16 * 16)] := by
  rw [tail2Bytes, codeHigh8_eq_ofNat, joinNibbles_codeLow4]
  rfl

/-- A number is one byte where the two agree modulo 256. -/
theorem ofNat8_congr {m n : Nat} (h : m % 256 = n % 256) : BitVec.ofNat 8 m = BitVec.ofNat 8 n :=
  BitVec.eq_of_toNat_eq h

/-- As a 24-bit word with its first byte most significant, a `PAIR3` is its first code above its second (R93). -/
theorem wordBytes_pair3 (code1 code2 : Code) :
    wordBytes 3 (code1.toNat * 4096 + code2.toNat) = pair3Bytes code1 code2 := by
  have := code1.isLt
  have := code2.isLt
  rw [pair3Bytes_eq]
  simp only [wordBytes, List.cons.injEq, and_true]
  exact ⟨ofNat8_congr (by omega), ofNat8_congr (by omega), ofNat8_congr (by omega)⟩

/-- As a 16-bit word with its first byte most significant, a `TAIL2` is its code above a zero nibble (R94). -/
theorem wordBytes_tail2 (code : Code) : wordBytes 2 (code.toNat * 16) = tail2Bytes code := by
  have := code.isLt
  rw [tail2Bytes_eq]
  simp only [wordBytes, List.cons.injEq, and_true]
  exact ⟨ofNat8_congr (by omega), ofNat8_congr (by omega)⟩

/-- Reading a `PAIR3` gives its two codes and leaves what follows it (R97, R98). -/
theorem decodeWire_pair3Bytes (code1 code2 : Code) (rest : List Byte) :
    decodeWire (pair3Bytes code1 code2 ++ rest) = (.instr (.packPair3 code1 code2), rest) := by
  simp only [pair3Bytes, List.cons_append, List.nil_append, decodeWire, codeFromBytes_slices, codeFromNibble_slices]

/-- Reading a `TAIL2` where the stream ends gives its code, whatever the padding nibble is (R98, R102). -/
theorem decodeWire_tail2 (code : Code) (pad : Nibble) :
    decodeWire [codeHigh8 code, joinNibbles (codeLow4 code) pad] = (.instr (.packTail2 code), []) := by
  simp only [decodeWire, codeFromBytes_slices]

/-- Settles O3: the three bytes as numbers, as one word, and read back. -/
theorem pair3LaysOutTwoCodes : Obligations.Pair3LaysOutTwoCodes := by
  unfold Obligations.Pair3LaysOutTwoCodes
  exact fun code1 code2 rest =>
    ⟨pair3Bytes_eq code1 code2, wordBytes_pair3 code1 code2, decodeWire_pair3Bytes code1 code2 rest⟩

/-- Settles O4: the two bytes as numbers, as one word, and read back under every padding. -/
theorem tail2LaysOutTheLastCode : Obligations.Tail2LaysOutTheLastCode := by
  unfold Obligations.Tail2LaysOutTheLastCode
  intro code pad
  refine ⟨tail2Bytes_eq code, wordBytes_tail2 code, ?_⟩
  rw [← codeHigh8_eq_ofNat, ← joinNibbles_codeLow4]
  exact decodeWire_tail2 code pad

end Sys2Proof
end

section
/-! SUPPORT. The rows of the selection tables, each as an iff (R99, R100). -/

namespace Sys2Proof

open Machine (lt_fullSize eq_fullSize exists_decodeDec)

/-! ## The encoder's table (R99) -/

/-- The RUN rows for a byte (R144). -/
theorem decodeEnc_run_byte_iff {cell : Code} {d : DictSize} {b : Byte} {i : Instr} :
    decodeEnc .run cell d (.byte b) = .instr i ↔
      (cell.toNat ≠ 0 ∧ i = .encByteHit b)
      ∨ (cell.toNat = 0 ∧ d.toNat < 4096 ∧ i = .encByteAdd b)
      ∨ (cell.toNat = 0 ∧ d.toNat = 4096 ∧ i = .encByteReset b) := by
  have hz : cell = 0#12 ↔ cell.toNat = 0 := BitVec.toNat_inj.symm
  have hl : d < 4096#13 ↔ d.toNat < 4096 := lt_fullSize d
  have hf : d = 4096#13 ↔ d.toNat = 4096 := eq_fullSize d
  simp only [decodeEnc, ne_eq, hz, hl, hf]
  split_ifs <;> grind

/-- The whole table, row by row. -/
theorem decodeEnc_iff {p : Phase} {cell : Code} {d : DictSize} {ev : SymbolEvent} {i : Instr} :
    decodeEnc p cell d ev = .instr i ↔
      ((p = .first ∧ ∃ b, ev = .byte b ∧ i = .encFirst b)
      ∨ (p = .first ∧ ev = .eos ∧ i = .encEosEmpty)
      ∨ (p = .run ∧ ∃ b, ev = .byte b ∧ cell.toNat ≠ 0 ∧ i = .encByteHit b)
      ∨ (p = .run ∧ ∃ b, ev = .byte b ∧ cell.toNat = 0 ∧ d.toNat < 4096 ∧ i = .encByteAdd b)
      ∨ (p = .run ∧ ∃ b, ev = .byte b ∧ cell.toNat = 0 ∧ d.toNat = 4096 ∧ i = .encByteReset b)
      ∨ (p = .run ∧ ev = .eos ∧ i = .encEos)) := by
  cases p with
  | first => cases ev <;> simp [decodeEnc, eq_comm]
  | run =>
    cases ev with
    | byte b => simp [decodeEnc_run_byte_iff]
    | eos => simp [decodeEnc, eq_comm]
  | idle => simp [decodeEnc]
  | done => simp [decodeEnc]
  | fault => simp [decodeEnc]

/-- Settles O5: the table, a row for each event of a running unit, and START, fetched as the host's turn. -/
theorem encoderSelectionTableAsWritten : Obligations.EncoderSelectionTableAsWritten := by
  unfold Obligations.EncoderSelectionTableAsWritten
  refine ⟨fun _ _ _ _ _ => decodeEnc_iff, fun p cell d ev hp hd => ?total, fun s rest hport ha => ?start⟩
  case total =>
    rcases hp with rfl | rfl
    · cases ev <;> exact ⟨_, rfl⟩
    · cases ev with
      | eos => exact ⟨_, rfl⟩
      | byte b =>
        by_cases hcell : cell.toNat = 0
        · rcases Nat.lt_or_eq_of_le hd with hlt | hfull
          · exact ⟨_, decodeEnc_run_byte_iff.2 (.inr (.inl ⟨hcell, hlt, rfl⟩))⟩
          · exact ⟨_, decodeEnc_run_byte_iff.2 (.inr (.inr ⟨hcell, hfull, rfl⟩))⟩
        · exact ⟨_, decodeEnc_run_byte_iff.2 (.inl ⟨hcell, rfl⟩)⟩
  case start => exact Machine.State.fetch_of_agenda_cons hport ha

/-! ## The decoder's table (R100) -/

/-- The operand of a row for a literal, bits [7:0] of the code, is the code's number. -/
theorem codeLow8_eq (c : Code) : codeLow8 c = BitVec.ofNat 8 c.toNat :=
  (codeLow8_eq_ofNat c).trans (ofNat8_congr (Nat.mod_mod _ _))

/-- The FIRST rows for a code (R180, R181). -/
theorem decodeDec_first_code_iff {d : DictSize} {c : Code} {i : Instr} :
    decodeDec .first d (.code c) = .instr i ↔
      (c.toNat ≤ 255 ∧ i = .decFirst (BitVec.ofNat 8 c.toNat)) ∨ (256 ≤ c.toNat ∧ i = .decFirstBad c) := by
  simp only [decodeDec]
  split_ifs <;> grind [codeLow8_eq]

theorem lt_widenCode_iff {c : Code} {d : DictSize} : d < widenCode c ↔ d.toNat < c.toNat := by
  rw [BitVec.lt_def, widenCode_toNat]

theorem widenCode_lt_iff {c : Code} {d : DictSize} : widenCode c < d ↔ c.toNat < d.toNat := by
  rw [BitVec.lt_def, widenCode_toNat]

theorem widenCode_eq_iff {c : Code} {d : DictSize} : widenCode c = d ↔ c.toNat = d.toNat := by
  rw [← BitVec.toNat_inj, widenCode_toNat]

/-- The RUN rows for a code, where `dictSize` is one a run reaches (R182). -/
theorem decodeRunCode_iff {d : DictSize} {c : Code} {i : Instr} (hd : d.toNat ≤ 4096) :
    decodeRunCode d c = .instr i ↔
      (d.toNat < c.toNat ∧ i = .decCodeCorrupt c)
      ∨ (d.toNat = 4096 ∧ 256 ≤ c.toNat ∧ i = .decCodeStale c)
      ∨ (d.toNat = 4096 ∧ c.toNat ≤ 255 ∧ i = .decCodeReset (BitVec.ofNat 8 c.toNat))
      ∨ (d.toNat < 4096 ∧ c.toNat = d.toNat ∧ i = .decCodeKwkwk c)
      ∨ (d.toNat < 4096 ∧ c.toNat < d.toNat ∧ i = .decCodeKnown c) := by
  have hc := c.isLt
  have hgt : 4096#13 < d ↔ 4096 < d.toNat := BitVec.lt_def
  have hful : d = 4096#13 ↔ d.toNat = 4096 := eq_fullSize d
  simp only [decodeRunCode, hgt, lt_widenCode_iff, hful, widenCode_eq_iff, if_neg (Nat.not_lt.2 hd)]
  split_ifs <;> grind [codeLow8_eq]

/-- Settles O6: the rows phase by phase and event by event, a row for each event of a running unit, and START, fetched as the host's turn. -/
theorem decoderSelectionTableAsWritten : Obligations.DecoderSelectionTableAsWritten := by
  unfold Obligations.DecoderSelectionTableAsWritten
  refine ⟨fun p d ev i hd => ?rows, fun p d ev hp hd => ?total, fun s rest hport ha => ?start⟩
  case rows =>
    cases p with
    | first =>
      cases ev with
      | code c => simp [decodeDec_first_code_iff]
      | eos => simp [decodeDec, eq_comm]
    | run =>
      cases ev with
      | code c => simp [decodeDec, decodeRunCode_iff hd]
      | eos => simp [decodeDec, eq_comm]
    | idle => simp [decodeDec]
    | done => simp [decodeDec]
    | fault => simp [decodeDec]
  case total => exact exists_decodeDec (by rcases hp with rfl | rfl <;> rfl) hd ev
  case start => exact Machine.State.fetch_of_agenda_cons hport ha

end Sys2Proof
end

section
/-! SUPPORT. Operand words read back (R90, R99, R100), beside a phase or by their width alone (notes/assumptions/16.md). -/

namespace Sys2Proof

/-! ## The event a word stands for -/

@[simp] theorem symbolEventOf_symbolWord (b : Byte) : symbolEventOf (symbolWord b) = .byte b := by
  simp [symbolEventOf, symbolWord]

@[simp] theorem codeEventOf_codeWord (c : Code) : codeEventOf (codeWord c) = .code c := by
  simp [codeEventOf, codeWord]

/-! ## A word read by its width -/

theorem decodeTableWord_24 {w : Nat} (h : w < 2 ^ 24) :
    decodeTableWord 24 w = (decodeWire (wordBytes 3 w)).1.toOption := by
  simp only [decodeTableWord, if_neg (Nat.not_le.2 h), if_true]

theorem decodeTableWord_16 {w : Nat} (h : w < 2 ^ 16) :
    decodeTableWord 16 w = (decodeWire (wordBytes 2 w)).1.toOption := by
  simp only [decodeTableWord, if_neg (Nat.not_le.2 h)]
  rfl

theorem decodeTableWord_codeWord (c : Code) :
    decodeTableWord (codeWord c).bits (codeWord c).value = (decodeDec .first 256#13 (.code c)).toOption := by
  have hw : ¬ 2 ^ 12 ≤ c.toNat := Nat.not_le.2 c.isLt
  rw [← codeEventOf_codeWord c]
  simp only [decodeTableWord, codeWord, if_neg hw]
  rfl

theorem decodeTableWord_symbolWord (b : Byte) :
    decodeTableWord (symbolWord b).bits (symbolWord b).value = (decodeEnc .first 0#12 256#13 (.byte b)).toOption := by
  have hw : ¬ 2 ^ 8 ≤ b.toNat := Nat.not_le.2 b.isLt
  rw [← symbolEventOf_symbolWord b]
  simp only [decodeTableWord, symbolWord, if_neg hw]
  rfl

/-! ## Each operation's word gives the operation back -/

theorem decodeTableWord_packPair3 (code1 code2 : Code) :
    decodeTableWord 24 (code1.toNat * 4096 + code2.toNat) = some (.packPair3 code1 code2) := by
  have := code1.isLt
  have := code2.isLt
  have hread := decodeWire_pair3Bytes code1 code2 []
  rw [List.append_nil] at hread
  rw [decodeTableWord_24 (by omega), wordBytes_pair3, hread]
  rfl

theorem decodeTableWord_packTail2 (code : Code) :
    decodeTableWord 16 (code.toNat * 16) = some (.packTail2 code) := by
  have := code.isLt
  rw [decodeTableWord_16 (by omega), wordBytes_tail2, tail2Bytes, decodeWire_tail2]
  rfl

/-- A literal code keeps the row of a literal, with its byte for operand (R180, R186). -/
theorem ofNat_literalCode (b : Byte) : BitVec.ofNat 8 (literalCode b).toNat = b := by
  rw [← codeLow8_eq, codeLow8_literalCode]

theorem literalCode_le (b : Byte) : (literalCode b).toNat ≤ 255 := by
  rw [literalCode_toNat]
  exact Nat.le_of_lt_succ b.isLt

theorem decodeTableWord_decFirst (b : Byte) :
    decodeTableWord (codeWord (literalCode b)).bits (codeWord (literalCode b)).value = some (.decFirst b) := by
  have hrow := decodeDec_first_code_iff (d := 256#13).2 (.inl ⟨literalCode_le b, rfl⟩)
  rw [decodeTableWord_codeWord, hrow, ofNat_literalCode]
  rfl

theorem decodeTableWord_decFirstBad {c : Code} (hc : 256 ≤ c.toNat) :
    decodeTableWord (codeWord c).bits (codeWord c).value = some (.decFirstBad c) := by
  have hrow := decodeDec_first_code_iff (d := 256#13).2 (.inr ⟨hc, rfl⟩)
  rw [decodeTableWord_codeWord, hrow]
  rfl

/-- Settles O7: the wire words by their slices, every other word by the row of R99 or R100 its operand meets. -/
theorem decodingTheOperandWordGivesTheOperation : Obligations.DecodingTheOperandWordGivesTheOperation := by
  unfold Obligations.DecodingTheOperandWordGivesTheOperation
  refine ⟨?packPair3, ?packTail2, ?encFirst, ?decFirst, ?decFirstBad, ?encByteHit, ?encByteAdd, ?encByteReset,
    ?decCodeCorrupt, ?decCodeKnown, ?decCodeKwkwk, ?decCodeReset, ?decCodeStale⟩
  case packPair3 => exact decodeTableWord_packPair3
  case packTail2 => exact decodeTableWord_packTail2
  case encFirst => exact decodeTableWord_symbolWord
  case decFirst => exact decodeTableWord_decFirst
  case decFirstBad => exact fun c hc => decodeTableWord_decFirstBad (of_decide_eq_true hc)
  case encByteHit =>
    intro b cell d hcell
    rw [encode, symbolEventOf_symbolWord]
    exact decodeEnc_run_byte_iff.2 (.inl ⟨hcell, rfl⟩)
  case encByteAdd =>
    intro b d hd
    rw [encode, symbolEventOf_symbolWord]
    exact decodeEnc_run_byte_iff.2 (.inr (.inl ⟨rfl, hd, rfl⟩))
  case encByteReset =>
    intro b
    rw [encode, symbolEventOf_symbolWord]
    exact decodeEnc_run_byte_iff.2 (.inr (.inr ⟨rfl, rfl, rfl⟩))
  case decCodeCorrupt =>
    intro c d hc
    have := c.isLt
    rw [encode, codeEventOf_codeWord]
    exact (decodeRunCode_iff (by omega)).2 (.inl ⟨hc, rfl⟩)
  case decCodeKnown =>
    intro c d hd hc
    rw [encode, codeEventOf_codeWord]
    exact (decodeRunCode_iff hd.le).2 (.inr (.inr (.inr (.inr ⟨hd, hc, rfl⟩))))
  case decCodeKwkwk =>
    intro c d hc
    have hd : d.toNat < 4096 := hc ▸ c.isLt
    rw [encode, codeEventOf_codeWord]
    exact (decodeRunCode_iff hd.le).2 (.inr (.inr (.inr (.inl ⟨hd, hc, rfl⟩))))
  case decCodeReset =>
    intro b
    rw [encode, codeEventOf_codeWord]
    exact (decodeRunCode_iff (d := 4096#13) (Nat.le_refl 4096)).2
      (.inr (.inr (.inl ⟨rfl, literalCode_le b, by rw [ofNat_literalCode]⟩)))
  case decCodeStale =>
    intro c hc
    rw [encode, codeEventOf_codeWord]
    exact (decodeRunCode_iff (d := 4096#13) (Nat.le_refl 4096)).2 (.inr (.inl ⟨rfl, of_decide_eq_true hc, rfl⟩))

/-- Settles O8: closed words, evaluated. -/
theorem wordsOfTheFormatsDecode : Obligations.WordsOfTheFormatsDecode := by
  unfold Obligations.WordsOfTheFormatsDecode
  decide

end Sys2Proof
end

section
/-! SUPPORT. When an operation is refused, and that a selected one is not (notes/assumptions/12.md, 15.md); the two wire words as operations of the writer (R93 to R95). -/

namespace Sys2Proof.Machine

/-! ## The refusals -/

/-- The operations of the writer that start at a code boundary (R95, notes/assumptions/15.md). -/
def startsAtCodeBoundary : Instr → Bool
  | .packPair3 _ _ => true
  | .packTail2 _ => true
  | _ => false

theorem startsAtCodeBoundary_iff (i : Instr) :
    startsAtCodeBoundary i = true ↔ (∃ code1 code2, i = .packPair3 code1 code2) ∨ ∃ code, i = .packTail2 code := by
  cases i <;> simp [startsAtCodeBoundary]

/-- Why `exec` refuses `i` in `s`: what each reason says of the two. -/
def TurnedAway (i : Instr) (s : State) : Refusal → Prop
  | .notSelected => rowHolds i s = false
  | .notAtCodeBoundary => s.enc.wHave = true ∧ startsAtCodeBoundary i = true
  | .notModelled _ => False

theorem TurnedAway.not_of_rowHolds {i : Instr} {s : State} {r : Refusal} (hrow : rowHolds i s = true)
    (hi : startsAtCodeBoundary i = false) : ¬ TurnedAway i s r := by
  cases r <;> simp [TurnedAway, hrow, hi]

/-- A driver operation whose guard is the condition of its row. -/
theorem refused_iff_of_guard {i : Instr} {s : State} {r : Refusal} {c : Prop} [Decidable c]
    {o : Host.Outcome State Fault Refusal} (hi : startsAtCodeBoundary i = false) (hrow : rowHolds i s = true ↔ c)
    (ho : ∀ r, o ≠ .refused r) : (if c then o else .refused .notSelected) = .refused r ↔ TurnedAway i s r := by
  by_cases hc : c
  · rw [if_pos hc]
    exact iff_of_false (ho r) (TurnedAway.not_of_rowHolds (hrow.2 hc) hi)
  · have hf : rowHolds i s = false := Bool.eq_false_iff.2 fun h => hc (hrow.1 h)
    rw [if_neg hc]
    cases r <;> simp [TurnedAway, hf, hi]

/-- A wire word, which has no row and is guarded by the code boundary. -/
theorem refused_iff_of_boundary {i : Instr} {s : State} {r : Refusal} {o : Host.Outcome State Fault Refusal}
    (hi : startsAtCodeBoundary i = true) (hrow : rowHolds i s = true) (ho : ∀ r, o ≠ .refused r) :
    (if s.enc.wHave = false then o else .refused .notAtCodeBoundary) = .refused r ↔ TurnedAway i s r := by
  cases hw : s.enc.wHave with
  | false => cases r <;> simp [TurnedAway, hrow, hw, ho]
  | true => cases r <;> simp [TurnedAway, hrow, hw, hi]

/-- Any other operation: it has no guard. -/
theorem refused_iff_of_called {i : Instr} {s : State} {r : Refusal} {o : Host.Outcome State Fault Refusal}
    (hi : startsAtCodeBoundary i = false) (hrow : rowHolds i s = true) (ho : ∀ r, o ≠ .refused r) :
    o = .refused r ↔ TurnedAway i s r :=
  iff_of_false (ho r) (TurnedAway.not_of_rowHolds hrow hi)

theorem State.endEnc_ne_refused (s : State) (x : Run Encoder Unit) (r : Refusal) : s.endEnc x ≠ .refused r := by
  cases x <;> nofun

theorem State.endDec_ne_refused (s : State) (x : Run Decoder Unit) (r : Refusal) : s.endDec x ≠ .refused r := by
  cases x <;> nofun

theorem State.answerDec_ne_refused {α : Type} (s : State) (f : α → Answer) (x : Run Decoder α) (r : Refusal) :
    s.answerDec f x ≠ .refused r := by
  cases x <;> nofun

/-- Every refusal of `exec`, operation by operation: the guard of a meaning is the condition of its row. -/
theorem exec_refused_iff {i : Instr} {s : State} {r : Refusal} : exec i s = .refused r ↔ TurnedAway i s r := by
  cases i with
  | packPair3 => exact refused_iff_of_boundary rfl rfl (s.endEnc_ne_refused _)
  | packTail2 => exact refused_iff_of_boundary rfl rfl (s.endEnc_ne_refused _)
  | encFirst => exact refused_iff_of_guard rfl decide_eq_true_iff nofun
  | encByteHit => exact refused_iff_of_guard rfl (by simp [rowHolds]) nofun
  | encByteAdd =>
    exact refused_iff_of_guard rfl (by simp [rowHolds, lt_fullSize, and_assoc]) (s.endEnc_ne_refused _)
  | encByteReset =>
    exact refused_iff_of_guard rfl (by simp [rowHolds, eq_fullSize, and_assoc]) (s.endEnc_ne_refused _)
  | encEos => exact refused_iff_of_guard rfl decide_eq_true_iff (s.endEnc_ne_refused _)
  | encEosEmpty => exact refused_iff_of_guard rfl decide_eq_true_iff nofun
  | decFirst => exact refused_iff_of_guard rfl decide_eq_true_iff (s.endDec_ne_refused _)
  | decFirstBad =>
    refine refused_iff_of_guard rfl (by simp [rowHolds]) fun r => ?_
    split <;> nofun
  | decCodeCorrupt =>
    exact refused_iff_of_guard rfl (by simp [rowHolds, lt_widenCode_iff]) nofun
  | decCodeKnown =>
    exact refused_iff_of_guard rfl (by simp [rowHolds, lt_fullSize, widenCode_lt_iff, and_assoc])
      (s.endDec_ne_refused _)
  | decCodeKwkwk =>
    exact refused_iff_of_guard rfl
      (by simp [rowHolds, lt_fullSize, widenCode_eq_iff, and_assoc])
      (s.endDec_ne_refused _)
  | decCodeReset => exact refused_iff_of_guard rfl (by simp [rowHolds, eq_fullSize]) (s.endDec_ne_refused _)
  | decCodeStale =>
    refine refused_iff_of_guard rfl (by simp [rowHolds, eq_fullSize, and_assoc]) fun r => ?_
    split
    · nofun
    · exact s.endDec_ne_refused _ r
  | decEos => exact refused_iff_of_guard rfl Iff.rfl nofun
  | putCode => exact refused_iff_of_called rfl rfl (s.endEnc_ne_refused _)
  | putLast => exact refused_iff_of_called rfl rfl (s.endEnc_ne_refused _)
  | getCode => exact refused_iff_of_called rfl rfl (s.answerDec_ne_refused _ _)
  | trieLookup => exact refused_iff_of_called rfl rfl nofun
  | trieInsert => exact refused_iff_of_called rfl rfl nofun
  | trieClear => exact refused_iff_of_called rfl rfl nofun
  | arenaInit => exact refused_iff_of_called rfl rfl nofun
  | arenaAlloc => exact refused_iff_of_called rfl rfl (s.answerDec_ne_refused _ _)
  | arenaMark => exact refused_iff_of_called rfl rfl nofun
  | arenaRewind => exact refused_iff_of_called rfl rfl nofun
  | dictInit => exact refused_iff_of_called rfl rfl (s.endDec_ne_refused _)
  | dictFirstByte => exact refused_iff_of_called rfl rfl (s.answerDec_ne_refused _ _)
  | dictAdd => exact refused_iff_of_called rfl rfl (s.endDec_ne_refused _)
  | dictEmit => exact refused_iff_of_called rfl rfl (s.endDec_ne_refused _)
  | srcRead u =>
    refine refused_iff_of_called rfl rfl fun r => ?_
    cases u with
    | encoder => nofun
    | decoder => simp only [exec, execSrcRead]; split <;> nofun
  | snkWrite u => cases u <;> exact refused_iff_of_called rfl rfl nofun
  | encStart =>
    refine refused_iff_of_called rfl rfl fun r => ?_
    simp only [exec, execEncStart]
    split <;> nofun
  | decStart =>
    refine refused_iff_of_called rfl rfl fun r => ?_
    simp only [exec, execDecStart]
    split
    · nofun
    · exact State.endDec_ne_refused _ _ r
  | statusRead u => cases u <;> exact refused_iff_of_called rfl rfl nofun

/-- Settles O13: each reason is the one `TurnedAway` states. -/
theorem operationIsTurnedAwayExactlyOutsideItsRow : Obligations.OperationIsTurnedAwayExactlyOutsideItsRow := by
  unfold Obligations.OperationIsTurnedAwayExactlyOutsideItsRow
  intro i s
  refine ⟨exec_refused_iff, ?_, fun r h => ?_⟩
  · rw [← startsAtCodeBoundary_iff]
    exact exec_refused_iff
  · cases r with
    | notSelected => exact .inl rfl
    | notAtCodeBoundary => exact .inr rfl
    | notModelled m => exact (exec_refused_iff.1 h).elim

/-! ## What is selected is performed -/

/-- `s` is a state in which `exec i` is not refused: `i` has no row or its row holds, and it needs no code boundary. -/
def State.Admits (s : State) (i : Instr) : Prop := rowHolds i s = true ∧ startsAtCodeBoundary i = false

/-- The row of R99 an event of the encoder selects holds (R144). -/
theorem State.admits_of_decodeEnc {s : State} {ev : SymbolEvent} {i : Instr}
    (h : decodeEnc s.enc.phase (s.enc.cellFor ev) s.enc.dictSize ev = .instr i) : s.Admits i := by
  rcases decodeEnc_iff.1 h with ⟨hp, b, rfl, rfl⟩ | ⟨hp, rfl, rfl⟩ | ⟨hp, b, rfl, hcell, rfl⟩
    | ⟨hp, b, rfl, hcell, hd, rfl⟩ | ⟨hp, b, rfl, hcell, hd, rfl⟩ | ⟨hp, rfl, rfl⟩
  · exact ⟨decide_eq_true hp, rfl⟩
  · exact ⟨decide_eq_true hp, rfl⟩
  · have hne : s.enc.lookup s.enc.curNode b ≠ 0#12 := fun h0 => hcell (congrArg BitVec.toNat h0)
    exact ⟨by simp [rowHolds, hp, hne], rfl⟩
  · have heq : s.enc.lookup s.enc.curNode b = 0#12 := BitVec.eq_of_toNat_eq hcell
    exact ⟨by simp [rowHolds, hp, heq, hd], rfl⟩
  · have heq : s.enc.lookup s.enc.curNode b = 0#12 := BitVec.eq_of_toNat_eq hcell
    exact ⟨by simp [rowHolds, hp, heq, hd], rfl⟩
  · exact ⟨decide_eq_true hp, rfl⟩

/-- The row of R100 a result of GETCODE selects holds (R182). -/
theorem DecoderRow.admits {s : State} {i : Instr} (h : DecoderRow s.dec.phase s.dec.dictSize i) : s.Admits i := by
  cases h with
  | first b hp => exact ⟨decide_eq_true hp, rfl⟩
  | firstBad c hp hc => exact ⟨by simp [rowHolds, hp, hc], rfl⟩
  | corrupt c hp hc => exact ⟨by simp [rowHolds, hp, lt_widenCode_iff.1 hc], rfl⟩
  | known c hp hn hc => exact ⟨by simp [rowHolds, hp, (lt_fullSize _).1 hn, widenCode_lt_iff.1 hc], rfl⟩
  | kwkwk c hp hn hc => exact ⟨by simp [rowHolds, hp, (lt_fullSize _).1 hn, widenCode_eq_iff.1 hc], rfl⟩
  | reset b hp hn => exact ⟨by simp [rowHolds, hp, (eq_fullSize _).1 hn], rfl⟩
  | stale c hp hn hc => exact ⟨by simp [rowHolds, hp, (eq_fullSize _).1 hn, hc], rfl⟩
  | eos hr => exact ⟨hr, rfl⟩

theorem Fetched.ofDecoded_eq_run {s s1 : State} {r : Decoded} {i : Instr} (h : Fetched.ofDecoded s r = .run i s1) :
    r = .instr i ∧ s1 = s := by
  cases r with
  | instr j => cases h; exact ⟨rfl, rfl⟩
  | reject r => cases h

theorem State.fetchEncoder_admits {s s1 : State} {i : Instr} (h : s.fetchEncoder = .run i s1) : s1.Admits i := by
  cases hr : running s.enc.phase with
  | false => simp [State.fetchEncoder, hr] at h
  | true =>
    obtain ⟨src, hf⟩ := State.fetchEncoder_running hr
    obtain ⟨hd, rfl⟩ := Fetched.ofDecoded_eq_run (hf.symm.trans h)
    exact State.admits_of_decodeEnc (s := s.setEnc (s.enc.setSource src)) hd

theorem State.fetchDecoder_admits {s s1 : State} {i : Instr} (h : s.fetchDecoder = .run i s1) : s1.Admits i := by
  cases hr : running s.dec.phase with
  | false => simp [State.fetchDecoder, hr] at h
  | true =>
    rcases State.fetchDecoder_running hr with hf | ⟨src, hf⟩ | ⟨ev, src, x, n, hf, _⟩
    · cases hf.symm.trans h
    · cases hf.symm.trans h
    · obtain ⟨hd, rfl⟩ := Fetched.ofDecoded_eq_run (hf.symm.trans h)
      exact DecoderRow.admits (s := s.setDec ((s.dec.setSource src).setResidual x n)) (.of_decodeDec hd)

theorem State.fetchTurn_admits {s s1 : State} {t : Turn} {i : Instr} (h : s.fetchTurn t = .run i s1) :
    s1.Admits i := by
  cases t with
  | encoder => exact State.fetchEncoder_admits h
  | decoder => exact State.fetchDecoder_admits h
  | host c => cases c <;> cases h <;> exact ⟨rfl, rfl⟩

/-- Settles O12: whatever a turn selects is admitted in the state it is performed in, and only what is not admitted is refused. -/
theorem selectedOperationIsNeverTurnedAway : Obligations.SelectedOperationIsNeverTurnedAway := by
  unfold Obligations.SelectedOperationIsNeverTurnedAway
  intro s s1 i r hport hf hrefused
  have hadmits : s1.Admits i := by
    cases ha : s.agenda with
    | cons t rest => exact State.fetchTurn_admits ((State.fetch_of_agenda_cons hport ha).symm.trans hf)
    | nil =>
      rw [State.fetch_of_agenda_nil hport ha, State.fetchFree] at hf
      split at hf
      · exact State.fetchEncoder_admits hf
      · split at hf
        · exact State.fetchDecoder_admits hf
        · cases hf
  exact TurnedAway.not_of_rowHolds hadmits.1 hadmits.2 (exec_refused_iff.1 hrefused)

/-! ## The two wire words at a code boundary (R93, R94) -/

theorem exec_packPair3_of_boundary {s : State} (code1 code2 : Code) (hw : s.enc.wHave = false) :
    exec (.packPair3 code1 code2) s = s.endEnc (Encoder.emitAll (pair3Bytes code1 code2) s.enc) := if_pos hw

theorem exec_packTail2_of_boundary {s : State} (code : Code) (hw : s.enc.wHave = false) :
    exec (.packTail2 code) s = s.endEnc (Encoder.emitAll (tail2Bytes code) s.enc) := if_pos hw

/-- A wire word in mid-byte is refused (R95, notes/assumptions/15.md). -/
theorem exec_refused_of_nibble {i : Instr} {s : State} (hi : startsAtCodeBoundary i = true)
    (hw : s.enc.wHave = true) : exec i s = .refused .notAtCodeBoundary := exec_refused_iff.2 ⟨hw, hi⟩

/-- An operation that only gives bytes to the sink writes those bytes. -/
theorem EncoderWrites.of_emitAll_id {i : Instr} {s : State} {bs : List Byte}
    (h : exec i s = s.endEnc (Encoder.emitAll bs s.enc)) : EncoderWrites i s bs id :=
  .of_emitAll (by rw [h]; exact congrArg s.endEnc (Run.bind_ok_unit _).symm)

/-- PUTCODE at a code boundary: one byte, and the low nibble held (R121). -/
theorem Encoder.putCode_of_boundary {e : Encoder} (c : Code) (hw : e.wHave = false) (ha : e.sink.accepts 1 = true) :
    e.putCode c = .ok () ((e.setSink (e.sink.got [codeHigh8 c])).setResidual true (codeLow4 c)) := by
  rw [Encoder.putCode_eq, if_pos hw, Encoder.emitAll_of_accepts [_] e ha, Run.bind_ok]

/-- PUTCODE in mid-byte: two bytes, and no nibble held (R121). -/
theorem Encoder.putCode_of_nibble {e : Encoder} (c : Code) (hw : e.wHave = true) (ha : e.sink.accepts 2 = true) :
    e.putCode c = .ok ()
      ((e.setSink (e.sink.got [joinNibbles e.wNib (codeHigh4 c), codeLow8 c])).setResidual false 0#4) := by
  rw [Encoder.putCode_eq, if_neg (by rw [hw]; decide), Encoder.emitAll_of_accepts [_, _] e ha, Run.bind_ok]

theorem Encoder.setResidual_self {e : Encoder} {h : Bool} {n : Nibble} (hh : e.wHave = h) (hn : e.wNib = n) :
    e.setResidual h n = e := by
  subst hh hn
  rfl

/-- A sink that accepts `n + 1` writes accepts one and then `n`. -/
theorem Sink.accepts_split {k : Sink} {n : Nat} (v : Byte) (h : k.accepts (n + 1) = true) :
    k.accepts 1 = true ∧ (k.got [v]).accepts n = true := by
  rw [k.accepts_succ v, Bool.and_eq_true] at h
  exact h

/-- Two PUTCODEs from a code boundary are the three bytes of a `PAIR3`, where the sink takes them and the unused nibble is 0. -/
theorem exec_putCode_putCode {s : State} (code1 code2 : Code) (hw : s.enc.wHave = false) (hn : s.enc.wNib = 0#4)
    (ha : s.enc.sink.accepts 3 = true) :
    ∃ s1, exec (.putCode code1) s = .next s1 ∧ exec (.putCode code2) s1 = exec (.packPair3 code1 code2) s := by
  obtain ⟨ha1, ha2⟩ := Sink.accepts_split (codeHigh8 code1) ha
  have hsecond := Encoder.putCode_of_nibble
    (e := (s.enc.setSink (s.enc.sink.got [codeHigh8 code1])).setResidual true (codeLow4 code1)) code2 rfl ha2
  refine ⟨_, congrArg s.endEnc (Encoder.putCode_of_boundary code1 hw ha1), ?_⟩
  rw [exec_packPair3_of_boundary _ _ hw, Encoder.emitAll_of_accepts (pair3Bytes code1 code2) _ ha]
  refine (congrArg (State.endEnc _) hsecond).trans ?_
  have hsame : (s.enc.setSink (s.enc.sink.got (pair3Bytes code1 code2))).setResidual false 0#4
      = s.enc.setSink (s.enc.sink.got (pair3Bytes code1 code2)) := Encoder.setResidual_self hw hn
  have hbytes : (s.enc.sink.got [codeHigh8 code1]).got [joinNibbles (codeLow4 code1) (codeHigh4 code2), codeLow8 code2]
      = s.enc.sink.got (pair3Bytes code1 code2) := Sink.got_got _ _ _
  rw [State.endEnc_ok, State.endEnc_ok, ← hsame, ← hbytes]
  rfl

/-- Settles O16: in mid-byte by the code boundary, at one by the bytes both give to the sink. -/
theorem packPair3IsTwoPutCodes : Obligations.PackPair3IsTwoPutCodes := by
  unfold Obligations.PackPair3IsTwoPutCodes
  refine ⟨fun s _ _ hw => exec_refused_of_nibble rfl hw, fun s code1 code2 hw => ⟨?_, exec_putCode_putCode _ _ hw⟩⟩
  rw [← pair3Bytes_eq]
  exact .of_emitAll_id (exec_packPair3_of_boundary _ _ hw)

/-- Settles O17: in mid-byte by the code boundary, at one by PUTLAST's own bytes. -/
theorem packTail2IsPutLast : Obligations.PackTail2IsPutLast := by
  unfold Obligations.PackTail2IsPutLast
  refine ⟨fun s _ hw => exec_refused_of_nibble rfl hw, fun s code hw => ⟨?_, ?_⟩⟩
  · rw [← tail2Bytes_eq]
    exact .of_emitAll_id (exec_packTail2_of_boundary _ hw)
  · rw [exec_packTail2_of_boundary _ hw, exec, execPutLast, Encoder.putLast_eq, if_pos hw]

end Sys2Proof.Machine
end

section
/-! SUPPORT. A word of the table, placed: what it is read as, what the next step fetches, and that it completes (notes/assumptions/16.md, 17.md). -/

namespace Sys2Proof.Machine

/-- What a word read by its width alone can be (notes/assumptions/16.md). -/
inductive TableOperation : Instr → Prop
  | packPair3 (code1 code2 : Code) : TableOperation (.packPair3 code1 code2)
  | packTail2 (code : Code) : TableOperation (.packTail2 code)
  | encFirst (b : Byte) : TableOperation (.encFirst b)
  | decFirst (c : Byte) : TableOperation (.decFirst c)
  | decFirstBad (c : Code) : 256 ≤ c.toNat → TableOperation (.decFirstBad c)

theorem TableOperation.of_toOption {r : Decoded} {i : Instr} (h : r.toOption = some i)
    (hr : ∀ j, r = .instr j → TableOperation j) : TableOperation i := by
  cases r with
  | instr j => cases h; exact hr _ rfl
  | reject r => cases h

theorem TableOperation.of_decodeTableWord {nbits w : Nat} {i : Instr} (h : decodeTableWord nbits w = some i) :
    TableOperation i := by
  unfold decodeTableWord at h
  split_ifs at h
  · exact .of_toOption h fun j hj => by cases hj; exact .packPair3 _ _
  · exact .of_toOption h fun j hj => by cases hj; exact .packTail2 _
  · refine .of_toOption h fun j hj => ?_
    rcases decodeDec_first_code_iff.1 hj with ⟨_, rfl⟩ | ⟨hc, rfl⟩
    · exact .decFirst _
    · exact .decFirstBad _ hc
  · exact .of_toOption h fun j hj => by cases hj; exact .encFirst _

theorem State.withFetchWord_of_decode {s : State} {nbits w : Nat} {i : Instr} (h : decodeTableWord nbits w = some i) :
    s.withFetchWord nbits w = s.place i := by
  simp only [State.withFetchWord, State.placeWord, h]

/-- `i` is what the next step from `s` fetches and performs, and it completes. -/
def State.PerformsNext (s : State) (i : Instr) : Prop :=
  ∃ s1 s2, s.fetch = .run i s1 ∧ step s = exec i s1 ∧ exec i s1 = .next s2

theorem State.PerformsNext.of_fetch {s s1 s2 : State} {i : Instr} (hf : s.fetch = .run i s1)
    (h : exec i s1 = .next s2) : s.PerformsNext i := ⟨s1, s2, hf, step_of_fetch_run hf, h⟩

/-- Bytes given to the sink of the encoder end in a next state. -/
theorem State.endEnc_emitAll_next (s : State) (bs : List Byte) (e : Encoder) :
    ∃ s', s.endEnc (Encoder.emitAll bs e) = .next s' := by
  rcases Encoder.emitAll_cases bs e with ⟨k, h⟩ | ⟨k, h⟩ <;> rw [h] <;> exact ⟨_, rfl⟩

/-- GETCODE reads a code from the `TAIL2` that holds it (R98, R123). -/
theorem Decoder.getCode_tail2Bytes {d : Decoder} {c : Code} (cfg : Config) (f : Feed) (hr : d.rHave = false)
    (hs : d.source = .stream (tail2Bytes c)) :
    ∃ d1, d.getCode cfg f = .ok (some (.code c)) d1 := by
  refine ⟨(d.setSource (.stream [])).setResidual true (byteLow4 (joinNibbles (codeLow4 c) 0#4)), ?_⟩
  have hc := codeFromBytes_slices c 0#4
  simp only [Decoder.getCode, hr, Decoder.read, hs, tail2Bytes, Decoder.setSource_source, if_true, hc]
  rfl

/-- At its turn a decoder in FIRST with a code in its source performs the row that the code selects. -/
theorem State.performsNext_of_code {s : State} {rest : List Turn} {c : Code} {i : Instr} (hport : s.port = none)
    (ha : s.agenda = .decoder :: rest) (hstale : s.config.stale = .fault) (hinv : s.dec.Inv s.config)
    (hp : s.dec.phase = .first) (hr : s.dec.rHave = false) (hs : s.dec.source = .stream (tail2Bytes c))
    (hi : decodeDec .first s.dec.dictSize (.code c) = .instr i) : s.PerformsNext i := by
  obtain ⟨d1, hg⟩ := Decoder.getCode_tail2Bytes s.config s.enc.feed hr hs
  have hrun : running s.dec.phase = true := by rw [hp]; rfl
  rw [← hp] at hi
  have hf := State.fetchDecoder_of_decodeDec (s := s.setAgenda rest) hrun hg hi
  obtain ⟨s2, hnext, _⟩ := State.fetchDecoder_inv (s := s.setAgenda rest) hstale hinv
  rw [hf] at hnext
  exact .of_fetch ((State.fetch_of_agenda_cons hport ha).trans hf) hnext

/-- The same of the state after reset with the decoder brought to what START leaves and the code placed. -/
theorem codePlaced_performsNext {c : Code} {i : Instr} (hi : decodeDec .first 256#13 (.code c) = .instr i) :
    ((State.reset.setAgenda [.decoder]).setDec
      ((Decoder.powerOn.started Config.default 0#12).setSource (.stream (tail2Bytes c)))).PerformsNext i := by
  obtain ⟨_, hp, hinv, _, _, hd, hr, _⟩ := Decoder.started_live Config.default 0#12 Decoder.powerOn (by decide)
  generalize Decoder.powerOn.started Config.default 0#12 = d at hp hinv hd hr
  exact State.performsNext_of_code rfl rfl rfl (hinv.setSource (.stream (tail2Bytes c)) d.sink) hp hr rfl
    (hd ▸ hi)

/-- Settles O10: a wire word by the port, a symbol by the encoder's turn, a code by the decoder's. -/
theorem placedWordIsPerformedNext : Obligations.PlacedWordIsPerformedNext := by
  unfold Obligations.PlacedWordIsPerformedNext
  intro nbits w i h
  rw [State.withFetchWord_of_decode h]
  show (State.reset.place i).PerformsNext i
  cases TableOperation.of_decodeTableWord h with
  | packPair3 code1 code2 =>
    obtain ⟨s2, h2⟩ := State.reset.endEnc_emitAll_next (pair3Bytes code1 code2) Encoder.powerOn
    exact .of_fetch (State.fetch_of_port rfl) ((exec_packPair3_of_boundary code1 code2 rfl).trans h2)
  | packTail2 code =>
    obtain ⟨s2, h2⟩ := State.reset.endEnc_emitAll_next (tail2Bytes code) Encoder.powerOn
    exact .of_fetch (State.fetch_of_port rfl) ((exec_packTail2_of_boundary code rfl).trans h2)
  | encFirst b => exact .of_fetch rfl rfl
  | decFirst c =>
    refine codePlaced_performsNext ?_
    rw [decodeDec_first_code_iff, ofNat_literalCode]
    exact .inl ⟨literalCode_le c, rfl⟩
  | decFirstBad c hc => exact codePlaced_performsNext (decodeDec_first_code_iff.2 (.inr ⟨hc, rfl⟩))

end Sys2Proof.Machine
end

section
/-! SUPPORT. Pack and unpack undo each other (R124 to R126): what each does to one pair at the front, and the slices of codes read from bytes. -/

namespace Sys2Proof

/-! ## Unpacking what was packed -/

theorem unpack_pair3Bytes (code1 code2 : Code) (rest : List Byte) :
    unpack (pair3Bytes code1 code2 ++ rest) = code1 :: code2 :: unpack rest := by
  simp only [pair3Bytes, List.cons_append, List.nil_append, unpack, codeFromBytes_slices, codeFromNibble_slices]

theorem unpack_tail2Bytes (code : Code) : unpack (tail2Bytes code) = [code] := by
  simp only [tail2Bytes, unpack, codeFromBytes_slices]

/-- Settles O1, by induction on the code list as `pack` takes it, a pair at a time. -/
theorem unpackOfPackIsTheCodeSequence : Obligations.UnpackOfPackIsTheCodeSequence := by
  unfold Obligations.UnpackOfPackIsTheCodeSequence
  intro cs
  induction cs using pack.induct with
  | case1 => rfl
  | case2 code => exact unpack_tail2Bytes code
  | case3 code1 code2 cs ih => rw [pack, unpack_pair3Bytes, ih]

/-! ## The codes read from bytes: as numbers, and their slices (R97) -/

theorem codeFromBytes_eq_ofNat (a b : Byte) : codeFromBytes a b = BitVec.ofNat 12 (a.toNat * 16 + b.toNat / 16) := by
  rw [← codeFromBytes_toNat, BitVec.ofNat_toNat, BitVec.setWidth_eq]

theorem codeFromNibble_eq_ofNat (nib : Nibble) (b : Byte) :
    codeFromNibble nib b = BitVec.ofNat 12 (nib.toNat * 256 + b.toNat) := by
  rw [← codeFromNibble_toNat, BitVec.ofNat_toNat, BitVec.setWidth_eq]

theorem byteLow4_eq_ofNat (b : Byte) : byteLow4 b = BitVec.ofNat 4 (b.toNat % 16) := by
  rw [← byteLow4_toNat, BitVec.ofNat_toNat, BitVec.setWidth_eq]

theorem codeHigh8_codeFromBytes (b0 b1 : Byte) : codeHigh8 (codeFromBytes b0 b1) = b0 := by
  apply BitVec.eq_of_toNat_eq
  have := b1.isLt
  rw [codeHigh8_toNat, codeFromBytes_toNat]
  omega

theorem codeLow4_codeFromBytes (b0 b1 : Byte) : codeLow4 (codeFromBytes b0 b1) = byteHigh4 b1 := by
  apply BitVec.eq_of_toNat_eq
  have := b1.isLt
  rw [codeLow4_toNat, codeFromBytes_toNat, byteHigh4_toNat]
  omega

theorem codeHigh4_codeFromNibble (nib : Nibble) (b : Byte) : codeHigh4 (codeFromNibble nib b) = nib := by
  apply BitVec.eq_of_toNat_eq
  have := b.isLt
  rw [codeHigh4_toNat, codeFromNibble_toNat]
  omega

theorem codeLow8_codeFromNibble (nib : Nibble) (b : Byte) : codeLow8 (codeFromNibble nib b) = b := by
  apply BitVec.eq_of_toNat_eq
  have := b.isLt
  rw [codeLow8_toNat, codeFromNibble_toNat]
  omega

theorem joinNibbles_slices (b : Byte) : joinNibbles (byteHigh4 b) (byteLow4 b) = b := by
  apply BitVec.eq_of_toNat_eq
  rw [joinNibbles_toNat, byteHigh4_toNat, byteLow4_toNat]
  omega

/-- A byte is its high nibble above a zero nibble exactly where its low nibble is zero. -/
theorem joinNibbles_byteHigh4_zero_iff (b : Byte) : joinNibbles (byteHigh4 b) 0#4 = b ↔ b.toNat % 16 = 0 := by
  rw [← BitVec.toNat_inj, joinNibbles_toNat, byteHigh4_toNat, BitVec.toNat_ofNat]
  omega

/-! ## Packing what was unpacked -/

/-- The two codes of three bytes are packed into the same three bytes. -/
theorem pair3Bytes_of_bytes (b0 b1 b2 : Byte) :
    pair3Bytes (codeFromBytes b0 b1) (codeFromNibble (byteLow4 b1) b2) = [b0, b1, b2] := by
  rw [pair3Bytes, codeHigh8_codeFromBytes, codeLow4_codeFromBytes, codeHigh4_codeFromNibble,
    codeLow8_codeFromNibble, joinNibbles_slices]

theorem pack_unpack_cons (b0 b1 b2 : Byte) (rest : List Byte) :
    pack (unpack (b0 :: b1 :: b2 :: rest)) = b0 :: b1 :: b2 :: pack (unpack rest) := by
  rw [unpack, pack, pair3Bytes_of_bytes]
  rfl

/-- The code of two bytes is packed with padding 0, so the second byte returns only where its padding is 0 (R94). -/
theorem tail2Bytes_of_bytes_iff (b0 b1 : Byte) :
    tail2Bytes (codeFromBytes b0 b1) = [b0, b1] ↔ b1.toNat % 16 = 0 := by
  rw [tail2Bytes, codeHigh8_codeFromBytes, codeLow4_codeFromBytes, ← joinNibbles_byteHigh4_zero_iff b1]
  simp only [List.cons.injEq, true_and, and_true]

/-- The streams `pack` writes: 3m bytes, or 3m+2 with a zero padding nibble (R126 (b)). -/
def CanonicalStream (w : List Byte) : Prop :=
  w.length % 3 = 0 ∨ (w.length % 3 = 2 ∧ ∃ b, w.getLast? = some b ∧ b.toNat % 16 = 0)

/-- Three bytes in front leave a stream canonical or not, as it was. -/
theorem canonicalStream_cons_iff (b0 b1 b2 : Byte) (rest : List Byte) :
    CanonicalStream (b0 :: b1 :: b2 :: rest) ↔ CanonicalStream rest := by
  have hlength : (b0 :: b1 :: b2 :: rest).length % 3 = rest.length % 3 := Nat.add_mod_right rest.length 3
  cases rest with
  | nil => exact iff_of_true (.inl hlength) (.inl rfl)
  | cons b bs => rw [CanonicalStream, CanonicalStream, hlength, List.getLast?_cons_cons, List.getLast?_cons_cons,
      List.getLast?_cons_cons]

theorem canonicalStream_pair_iff (b0 b1 : Byte) : CanonicalStream [b0, b1] ↔ b1.toNat % 16 = 0 := by
  simp [CanonicalStream]

theorem not_canonicalStream_singleton (b : Byte) : ¬ CanonicalStream [b] := by
  simp [CanonicalStream]

/-- Settles O2, by induction on the bytes as `unpack` takes them, three at a time. -/
theorem packOfUnpackIsTheStreamExactlyWhenCanonical : Obligations.PackOfUnpackIsTheStreamExactlyWhenCanonical := by
  unfold Obligations.PackOfUnpackIsTheStreamExactlyWhenCanonical
  intro w
  change pack (unpack w) = w ↔ CanonicalStream w
  induction w using unpack.induct with
  | case1 b0 b1 b2 rest ih =>
    rw [pack_unpack_cons, canonicalStream_cons_iff, ← ih]
    simp only [List.cons.injEq, true_and]
  | case2 b0 b1 => exact (tail2Bytes_of_bytes_iff b0 b1).trans (canonicalStream_pair_iff b0 b1).symm
  | case3 b => exact iff_of_false (List.cons_ne_nil b []).symm (not_canonicalStream_singleton b)
  | case4 => exact iff_of_true rfl (.inl rfl)

end Sys2Proof
end

section
/-! SUPPORT. The writer's two operations performed alone, and GETCODE by the answers of its source (R121 to R123). -/

namespace Sys2Proof.Machine

/-! ## PUTCODE and PUTLAST (R121, R122) -/

/-- Settles O14: PUTCODE gives its bytes to the sink and then writes its residual. -/
theorem putCodeEmitsAndAlternates : Obligations.PutCodeEmitsAndAlternates := by
  unfold Obligations.PutCodeEmitsAndAlternates
  intro s c
  refine .of_emitAll ?_
  rw [← Encoder.putCode_bind c s.enc fun e => e, Run.bind_ok_unit]
  rfl

theorem Encoder.lastBytes_length (c : Code) (e : Encoder) : (e.lastBytes c).length = 2 := by
  unfold Encoder.lastBytes
  split <;> rfl

/-- Settles O15: PUTLAST gives its two bytes to the sink and then holds no nibble. -/
theorem putLastFlushesTwoBytes : Obligations.PutLastFlushesTwoBytes := by
  unfold Obligations.PutLastFlushesTwoBytes
  intro s c
  refine ⟨s.enc.lastBytes_length c, .of_emitAll ?_⟩
  rw [← Encoder.putLast_bind c s.enc fun e => e, Run.bind_ok_unit]
  rfl

/-! ## GETCODE by the answers of the source (R123) -/

section
variable {cfg : Config} {f : Feed} {d d1 d2 : Decoder}

/-- EOS at the first read is EOS of GETCODE, from either residual. -/
theorem Decoder.getCode_of_eos (h : d.read f = some (.eos, d1)) : d.getCode cfg f = .ok (some .eos) d1 := by
  unfold Decoder.getCode
  split <;> simp only [h]

theorem Decoder.getCode_of_two_bytes {a b : Byte} (hr : d.rHave = false) (ha : d.read f = some (.byte a, d1))
    (hb : d1.read f = some (.byte b, d2)) : d.getCode cfg f =
      .ok (some (.code (BitVec.ofNat 12 (a.toNat * 16 + b.toNat / 16))))
        (d2.setResidual true (BitVec.ofNat 4 (b.toNat % 16))) := by
  rw [← codeFromBytes_eq_ofNat, ← byteLow4_eq_ofNat]
  simp only [Decoder.getCode, if_pos hr, ha, hb, Decoder.holdNibble]

/-- A byte and then EOS: the truncation policy decides (U4). -/
theorem Decoder.getCode_of_cut_short {a : Byte} (hr : d.rHave = false) (ha : d.read f = some (.byte a, d1))
    (hb : d1.read f = some (.eos, d2)) : d.getCode cfg f = d2.cutShort cfg := by
  simp only [Decoder.getCode, if_pos hr, ha, hb]

theorem Decoder.getCode_of_nibble_byte {b : Byte} (hr : d.rHave = true) (hb : d.read f = some (.byte b, d1)) :
    d.getCode cfg f =
      .ok (some (.code (BitVec.ofNat 12 (d.rNib.toNat * 256 + b.toNat)))) (d1.setResidual false 0#4) := by
  rw [← codeFromNibble_eq_ofNat]
  simp only [Decoder.getCode, hr, Bool.true_eq_false, if_false, hb, Decoder.dropNibble]

theorem Decoder.cutShort_of_silent (h : cfg.truncation = .silent) : d.cutShort cfg = .ok (some .eos) d := by
  simp only [Decoder.cutShort, h]

theorem Decoder.cutShort_of_report (h : cfg.truncation = .report) :
    d.cutShort cfg = .raised (d.raiseBare .truncated) := by
  simp only [Decoder.cutShort, h]

/-! ## Reading a stream (R220) -/

theorem Decoder.read_of_stream_nil (h : d.source = .stream []) : d.read f = some (.eos, d) := by
  simp only [Decoder.read, h]

theorem Decoder.read_of_stream_cons {v : Byte} {rest : List Byte} (h : d.source = .stream (v :: rest)) :
    d.read f = some (.byte v, d.setSource (.stream rest)) := by
  simp only [Decoder.read, h]

end

/-! ## GETCODE as an operation -/

theorem exec_getCode_of_ok {s : State} {r : Option CodeEvent} {d : Decoder}
    (h : s.dec.getCode s.config s.enc.feed = .ok r d) :
    exec .getCode s = .next ((s.setDec d).setAnswer (codeAnswer r)) := congrArg (s.answerDec codeAnswer) h

theorem exec_getCode_of_raised {s : State} {d : Decoder} (h : s.dec.getCode s.config s.enc.feed = .raised d) :
    exec .getCode s = .next (s.setDec d) := congrArg (s.answerDec codeAnswer) h

/-- Settles O18, by how many bytes the stream still holds. -/
theorem getCodeReadsOneCodeOfAStream : Obligations.GetCodeReadsOneCodeOfAStream := by
  unfold Obligations.GetCodeReadsOneCodeOfAStream
  intro s
  have empty (hs : s.dec.source = .stream []) : exec .getCode s = .next (s.setAnswer .eos) :=
    exec_getCode_of_ok (Decoder.getCode_of_eos (Decoder.read_of_stream_nil hs))
  have lone {a : Byte} (hr : s.dec.rHave = false) (hs : s.dec.source = .stream [a]) :
      s.dec.getCode s.config s.enc.feed = (s.dec.setSource (.stream [])).cutShort s.config :=
    Decoder.getCode_of_cut_short hr (Decoder.read_of_stream_cons hs) (Decoder.read_of_stream_nil rfl)
  refine ⟨fun hr a b rest hs => ?_, fun _ => empty, fun hr a hs => ⟨fun ht => ?_, fun ht => ?_⟩,
    fun hr b rest hs => ?_, fun _ => empty⟩
  · exact exec_getCode_of_ok
      (Decoder.getCode_of_two_bytes hr (Decoder.read_of_stream_cons hs) (Decoder.read_of_stream_cons rfl))
  · exact exec_getCode_of_ok ((lone hr hs).trans (Decoder.cutShort_of_silent ht))
  · exact exec_getCode_of_raised ((lone hr hs).trans (Decoder.cutShort_of_report ht))
  · exact exec_getCode_of_ok (Decoder.getCode_of_nibble_byte hr (Decoder.read_of_stream_cons hs))

end Sys2Proof.Machine
end

section
/-! SUPPORT. The encoder unit: the trie's three operations (R140 to R142), the driver's rows without output (R143, R145, R149), and those that emit `curNode` first (R146 to R148). -/

namespace Sys2Proof.Machine

/-! ## The trie (R140 to R142) -/

/-- Settles O20: the range of the result is R23 (c) at this cell. -/
theorem trieLookupReadsTheCell : Obligations.TrieLookupReadsTheCell := by
  unfold Obligations.TrieLookupReadsTheCell
  intro s n b
  refine ⟨s.enc.lookup n b, rfl, rfl, fun hl hne => ?_⟩
  obtain ⟨hlow, hhigh, -⟩ := hl.children n b hne
  exact ⟨hlow, hhigh⟩

/-- Settles O21, by reading after writing in the trie. -/
theorem trieInsertWritesOneCell : Obligations.TrieInsertWritesOneCell := by
  unfold Obligations.TrieInsertWritesOneCell
  intro s n b v
  exact ⟨Memory.setCell s.enc.trie n b v, rfl, Memory.getCell_setCell_self _ _ _ _,
    fun n' b' hother => Memory.getCell_setCell_other _ _ hother⟩

/-- Settles O22: the empty list reads 0 at every cell. -/
theorem trieClearEmptiesEveryCell : Obligations.TrieClearEmptiesEveryCell := by
  unfold Obligations.TrieClearEmptiesEveryCell
  intro s
  exact ⟨[], rfl, Memory.getCell_nil⟩

/-! ## The rows without output (R143, R145, R149) -/

/-- Settles O23: the row holds, and a literal code is the number of its byte. -/
theorem encFirstTakesTheByteAsItsCode : Obligations.EncFirstTakesTheByteAsItsCode := by
  unfold Obligations.EncFirstTakesTheByteAsItsCode
  intro s b hp
  rw [← literalCode_eq]
  exact if_pos hp

/-- Settles O24: the row holds, and `lookup` reads the cell. -/
theorem encByteHitMovesToTheChild : Obligations.EncByteHitMovesToTheChild := by
  unfold Obligations.EncByteHitMovesToTheChild
  intro s b hp hcell
  exact if_pos ⟨hp, hcell⟩

/-- Settles O28: the row holds in phase FIRST, and `phase` is all it writes. -/
theorem encEosEmptyEndsSilently : Obligations.EncEosEmptyEndsSilently := by
  unfold Obligations.EncEosEmptyEndsSilently
  intro s hp
  exact if_pos hp

/-! ## Writing a code and then going on (R121, R122) -/

/-- An operation that does PUTCODE and then `g` writes PUTCODE's bytes, and leaves its residual to `g`. -/
theorem EncoderWrites.of_putCode {i : Instr} {s : State} {c : Code} {g : Encoder → Encoder}
    (h : exec i s = s.endEnc ((s.enc.putCode c).bind fun _ e => .ok () (g e))) :
    EncoderWrites i s (s.enc.putBytes c)
      (fun e => g (e.setResidual (s.enc.putResidual c).1 (s.enc.putResidual c).2)) :=
  .of_emitAll (h.trans (congrArg s.endEnc (Encoder.putCode_bind c s.enc g)))

/-- An operation that does PUTLAST and then `g` writes PUTLAST's bytes, and `g` finds no nibble. -/
theorem EncoderWrites.of_putLast {i : Instr} {s : State} {c : Code} {g : Encoder → Encoder}
    (h : exec i s = s.endEnc ((s.enc.putLast c).bind fun _ e => .ok () (g e))) :
    EncoderWrites i s (s.enc.lastBytes c)
      (fun e => g (if s.enc.wHave = false then e else e.setResidual false 0#4)) :=
  .of_emitAll (h.trans (congrArg s.endEnc (Encoder.putLast_bind c s.enc g)))

/-- What is done after the bytes is done to the encoder with another sink: nothing else of it has changed. -/
theorem EncoderWrites.congr {i : Instr} {s : State} {bs : List Byte} {g g' : Encoder → Encoder}
    (h : EncoderWrites i s bs g) (hg : ∀ k, g (s.enc.setSink k) = g' (s.enc.setSink k)) :
    EncoderWrites i s bs g' := by
  obtain ⟨haccepts, hfails⟩ := h
  refine ⟨fun ha => ?_, hfails⟩
  rw [haccepts ha, hg]

/-! ## The rows that emit `curNode` (R146 to R148) -/

theorem nextCode_eq_ofNat (d : DictSize) : nextCode d = BitVec.ofNat 12 d.toNat :=
  (BitVec.ofNat_toNat 12 d).symm

theorem grow_eq_ofNat {d : DictSize} (hd : d.toNat < 4096) : grow d = BitVec.ofNat 13 (d.toNat + 1) := by
  rw [← grow_toNat hd, BitVec.ofNat_toNat, BitVec.setWidth_eq]

/-- Settles O25: the child's cell is the one written after PUTCODE, and PUTCODE has left `curNode`, `dictSize` and the trie as they were. -/
theorem encByteAddEmitsThenAddsTheChild : Obligations.EncByteAddEmitsThenAddsTheChild := by
  unfold Obligations.EncByteAddEmitsThenAddsTheChild
  intro s b hp hcell hd
  have hexec : exec (.encByteAdd b) s
      = s.endEnc ((s.enc.putCode s.enc.curNode).bind fun _ e => .ok () (e.addPhrase b)) := if_pos ⟨hp, hcell, hd⟩
  refine ⟨Memory.setCell s.enc.trie s.enc.curNode b (nextCode s.enc.dictSize), ?_, fun n' b' hother => ?_, ?_⟩
  · rw [Memory.getCell_setCell_self, nextCode_eq_ofNat]
  · exact Memory.getCell_setCell_other _ _ hother
  · rw [← grow_eq_ofNat hd, ← literalCode_eq]
    exact (EncoderWrites.of_putCode hexec).congr fun _ => rfl

/-- Settles O26: after PUTCODE the trie is the empty list, whatever PUTCODE left. -/
theorem encByteResetEmitsThenClears : Obligations.EncByteResetEmitsThenClears := by
  unfold Obligations.EncByteResetEmitsThenClears
  intro s b hp hcell hd
  have hexec : exec (.encByteReset b) s
      = s.endEnc ((s.enc.putCode s.enc.curNode).bind fun _ e => .ok () (e.resetDictionary b)) :=
    if_pos ⟨hp, hcell, BitVec.eq_of_toNat_eq hd⟩
  refine ⟨[], Memory.getCell_nil, ?_⟩
  rw [← literalCode_eq]
  exact .of_putCode hexec

/-- Settles O27: PUTLAST, and then the phase. -/
theorem encEosFlushesThenEnds : Obligations.EncEosFlushesThenEnds := by
  unfold Obligations.EncEosFlushesThenEnds
  intro s hp
  have hexec : exec .encEos s
      = s.endEnc ((s.enc.putLast s.enc.curNode).bind fun _ e => .ok () (e.setPhase .done)) := if_pos hp
  exact .of_putLast hexec

end Sys2Proof.Machine
end

section
/-! SUPPORT. The decoder unit's arena and table: the allocator (R170 to R173), the four operations of the table (R174 to R177), and the entries R32 guarantees (R193). -/

namespace Sys2Proof.Machine

/-! ## The allocator (R170 to R173) -/

/-- Settles O29: each is one update of the pointer registers. -/
theorem arenaPointerOperationsWriteOneRegister : Obligations.ArenaPointerOperationsWriteOneRegister := by
  unfold Obligations.ArenaPointerOperationsWriteOneRegister
  intro s
  exact ⟨rfl, rfl, rfl⟩

theorem Decoder.alloc_of_room {cfg : Config} {n : Nat} {d : Decoder} (h : d.aPtr + round4 n ≤ cfg.arenaBytes) :
    d.alloc cfg n = .ok d.aPtr (d.setPtr (d.aPtr + round4 n)) := if_neg (Nat.not_lt.2 h)

theorem Decoder.alloc_of_full {cfg : Config} {n : Nat} {d : Decoder} (h : cfg.arenaBytes < d.aPtr + round4 n) :
    d.alloc cfg n = .raised (d.raiseBare .allocFail) := if_pos h

/-- Settles O30: the size is `round4 n`, and one test on it decides between the block and AllocFail. -/
theorem arenaAllocCarvesABlock : Obligations.ArenaAllocCarvesABlock := by
  unfold Obligations.ArenaAllocCarvesABlock
  intro s n
  obtain ⟨hmod, hle, hlt⟩ := round4_spec n
  exact ⟨round4 n, hmod, hle, hlt, fun h => congrArg (s.answerDec Answer.offset) (Decoder.alloc_of_room h),
    fun h => congrArg (s.answerDec Answer.offset) (Decoder.alloc_of_full h)⟩

/-! ## DICT.INIT (R174) -/

/-- Settles O31: the loop over the literals from code 0 on, where all fit and where they do not. -/
theorem dictInitWritesTheLiterals : Obligations.DictInitWritesTheLiterals := by
  unfold Obligations.DictInitWritesTheLiterals
  intro s
  refine ⟨fun hroom => ?fits, fun hfull => ?fails⟩
  case fits =>
    obtain ⟨es, ar, hrun, hlit, hes, har, -⟩ := Decoder.initLiterals_spec s.config 256 0 s.dec (by omega) hroom
    simp only [Nat.zero_add] at hlit hes
    exact ⟨es, ar, congrArg s.endDec hrun, hlit, fun c hc => hes c (.inr hc), har⟩
  case fails =>
    obtain ⟨es, ar, hrun, hlit, hes, har, -⟩ :=
      Decoder.initLiterals_allocFail s.config 256 _ 0 s.dec (by omega) (by omega) rfl hfull
    simp only [Nat.zero_add] at hlit hes
    exact ⟨es, ar, _, rfl, congrArg s.endDec hrun, hlit, fun c hc => hes c (.inr hc), har⟩

/-! ## What R32 guarantees of an entry (R193) -/

/-- Where R32 holds, a literal is the entry of its own value. -/
theorem Decoder.Live.holds_literal {cfg : Config} {d : Decoder} (hl : d.Live cfg) (b : Byte) :
    d.holds cfg (literalCode b) [b] = true := by
  obtain ⟨hentry, hbyte⟩ := hl.literals b.toNat b.isLt
  rw [BitVec.ofNat_toNat, BitVec.setWidth_eq] at hbyte
  have hbelow : 4 * b.toNat + 1 ≤ d.aPtr := by
    have hptr := hl.ptr
    have hmark := blockStart_ge d.entries (d.dictSize.toNat - 256)
    have hb := b.isLt
    omega
  simp [Decoder.holds, literalCode_toNat, hentry, readRange, hbyte, hbelow, hl.room]

theorem Decoder.Live.firstByte_literal {cfg : Config} {d : Decoder} (hl : d.Live cfg) (b : Byte) :
    d.firstByte cfg (literalCode b) = .ok b d := Decoder.firstByte_of_holds (hl.holds_literal b)

/-- Settles O60: R32 (f) bounds an entry by its code, and the last code is 4095. -/
theorem validEntriesAreBoundedAndLiteralsFixed : Obligations.ValidEntriesAreBoundedAndLiteralsFixed := by
  unfold Obligations.ValidEntriesAreBoundedAndLiteralsFixed
  refine ⟨fun cfg d b hl => hl.holds_literal b, fun cfg d c hl hc => ?_⟩
  obtain ⟨en, bs, hentry, hrange, -, hpos, hlen⟩ := hl.block hc
  have hsize := hl.size
  refine ⟨bs, by simp only [Decoder.seq?, hentry, hrange], hpos, ?_⟩
  split at hlen <;> omega

/-! ## DICT.FIRSTBYTE (R175) -/

/-- Settles O32: the table is read and then the arena; for a literal both reads are R32 (c). -/
theorem dictFirstByteReadsTheBlock : Obligations.DictFirstByteReadsTheBlock := by
  unfold Obligations.DictFirstByteReadsTheBlock
  refine ⟨fun s c en x hentry hoff hbyte => ?_, fun s b hl => ?_⟩
  · have hfirst : s.dec.firstByte s.config c = .ok x s.dec := by
      simp only [Decoder.firstByte, Decoder.readEntry_of_get hentry, Run.bind_ok,
        Decoder.readArena_of_get hoff hbyte]
    exact congrArg (s.answerDec Answer.symbol) hfirst
  · exact congrArg (s.answerDec Answer.symbol) (hl.firstByte_literal b)

/-! ## DICT.ADD (R176) -/

/-- A valid entry ends at or below the new block, so the copy overwrites none of it. -/
theorem Decoder.dictAdd_of_holds {cfg : Config} {p : Code} {bp : List Byte} {d : Decoder}
    (h : d.holds cfg p bp = true) (hd : d.dictSize.toNat < 4096)
    (hroom : d.aPtr + round4 (bp.length + 1) ≤ cfg.arenaBytes) (x : Byte) :
    ∃ d1, d.dictAdd cfg p x = .ok () d1 ∧ AddsEntry d bp x d1 := by
  obtain ⟨en, hentry, hrange, -, hbelow, hptr⟩ := Decoder.holds_spec h
  exact Decoder.dictAdd_of_room cfg p x d en bp hentry hrange (.inr hbelow) (hbelow.trans hptr) hd hroom

theorem Decoder.dictAdd_of_holds_full {cfg : Config} {p : Code} {bp : List Byte} {d : Decoder}
    (h : d.holds cfg p bp = true) (hfull : cfg.arenaBytes < d.aPtr + round4 (bp.length + 1)) (x : Byte) :
    d.dictAdd cfg p x = .raised (d.raiseBare .allocFail) := by
  obtain ⟨en, hentry, -, hlen, -⟩ := Decoder.holds_spec h
  rw [← hlen] at hfull
  exact Decoder.dictAdd_of_full cfg p x d en hentry hfull

/-- Settles O34, by whether the block fits. -/
theorem dictAddBuildsTheNewEntry : Obligations.DictAddBuildsTheNewEntry := by
  unfold Obligations.DictAddBuildsTheNewEntry
  intro s p x bp hholds hd
  refine ⟨fun hroom => ?_, fun hfull => congrArg s.endDec (Decoder.dictAdd_of_holds_full hholds hfull x)⟩
  obtain ⟨d1, hadd, hentry⟩ := Decoder.dictAdd_of_holds hholds hd hroom x
  exact ⟨d1, congrArg s.endDec hadd, hentry⟩

/-- Settles O35: the ascending copy to a lower or equal offset reads each byte before it is overwritten, by the induction of `Decoder.copyBytes_spec`. -/
theorem dictAddCopiesDownwardExactly : Obligations.DictAddCopiesDownwardExactly := by
  unfold Obligations.DictAddCopiesDownwardExactly
  intro s p x en bp hentry hrange habove hinside hd hroom
  obtain ⟨d1, hadd, hadds⟩ :=
    Decoder.dictAdd_of_room s.config p x s.dec en bp hentry hrange (.inl habove) hinside hd hroom
  exact ⟨d1, congrArg s.endDec hadd, hadds⟩

/-! ## DICT.EMIT (R177) -/

/-- An operation that brings the decoder to `d1`, emits an entry valid there and then does `g` writes that entry. -/
theorem DecoderWrites.of_holds {i : Instr} {s : State} {d1 : Decoder} {c : Code} {bs : List Byte}
    {g : Decoder → Decoder} (hholds : d1.holds s.config c bs = true)
    (hexec : exec i s = s.endDec ((d1.dictEmit s.config c).bind fun _ e => .ok () (g e))) :
    DecoderWrites i s d1 bs g := by
  obtain ⟨en, hentry, hrange, -, hbelow, hptr⟩ := Decoder.holds_spec hholds
  exact .of_dictEmit hentry hrange (hbelow.trans hptr) hexec

/-- A last line that changes nothing can be added to a listing. -/
theorem Run.eq_bind_id (r : Run Decoder Unit) : r = r.bind fun _ d => .ok () (id d) := by cases r <;> rfl

/-- Settles O36: the entry is emitted and nothing follows. -/
theorem dictEmitWritesTheSequence : Obligations.DictEmitWritesTheSequence := by
  unfold Obligations.DictEmitWritesTheSequence
  intro s c bs hholds
  exact .of_holds hholds (congrArg s.endDec (Run.eq_bind_id _))

end Sys2Proof.Machine
end

section
/-! SUPPORT. The decoder unit's driver: the rows without output (R181, R183, R188), the first code (R180), the codes that add an entry (R184, R185), and the reset step (R186, R187). -/

namespace Sys2Proof.Machine

/-! ## The rows without output (R181, R183, R188) -/

/-- Settles O38: the row holds, and one test on the code names the cause. -/
theorem decFirstBadTakesTheFault : Obligations.DecFirstBadTakesTheFault := by
  unfold Obligations.DecFirstBadTakesTheFault
  intro s c hp
  refine ⟨fun hc => (if_pos ⟨hp, hc.le⟩).trans (if_pos hc), fun hc => ?_⟩
  obtain rfl : c = 256#12 := BitVec.eq_of_toNat_eq hc
  exact (if_pos ⟨hp, hc.ge⟩).trans (if_neg (Nat.lt_irrefl 256))

/-- Settles O39: the row holds, and the fault is all it does. -/
theorem decCodeCorruptTakesTheFault : Obligations.DecCodeCorruptTakesTheFault := by
  unfold Obligations.DecCodeCorruptTakesTheFault
  intro s c hp hc
  exact if_pos ⟨hp, lt_widenCode_iff.2 hc⟩

/-- Settles O44: the row holds in both running phases, and `phase` is all it writes. -/
theorem decEosEndsTheRun : Obligations.DecEosEndsTheRun := by
  unfold Obligations.DecEosEndsTheRun
  intro s hp
  have hrunning : running s.dec.phase = true := by
    rcases hp with hfirst | hrun
    · rw [hfirst]; rfl
    · rw [hrun]; rfl
  exact if_pos hrunning

/-! ## The first code (R180) -/

/-- An operation that brings the decoder to `d1`, emits one byte and then does `g` writes that byte. -/
theorem DecoderWrites.of_emit {i : Instr} {s : State} {d1 : Decoder} {v : Byte} {g : Decoder → Decoder}
    (hexec : exec i s = s.endDec ((d1.emit v).bind fun _ e => .ok () (g e))) : DecoderWrites i s d1 [v] g := by
  refine ⟨fun haccepts => ?_, fun j hj hfails => ?_⟩
  · rw [hexec, Decoder.emit_of_accepts v haccepts, Run.bind_ok, State.endDec_ok]
  · obtain rfl : j = 0 := Nat.lt_one_iff.1 hj
    rw [hexec, Decoder.emit_of_fails v hfails, Run.bind_raised, State.endDec_raised]
    rfl

/-- Settles O37: the byte read is the literal itself (R32 (c)), and it is emitted. -/
theorem decFirstEmitsTheLiteral : Obligations.DecFirstEmitsTheLiteral := by
  unfold Obligations.DecFirstEmitsTheLiteral
  intro s c hl hp
  have hexec : exec (.decFirst c) s = s.endDec ((s.dec.emit c).bind fun _ e =>
      .ok () ((e.setPrevCode (literalCode c)).setPhase .run)) := by
    simp only [exec, execDecFirst, if_pos hp, hl.firstByte_literal c, Run.bind_ok]
  rw [← literalCode_eq]
  exact .of_emit hexec

/-! ## The codes that add an entry (R184, R185) -/

/-- Steps 4 to 6 of a code that adds an entry (R182), where the block fits and the code is valid once the entry is there. -/
theorem exists_decoderWrites_of_growAndEmit {i : Instr} {s : State} {c : Code} {bp bs : List Byte} {x : Byte}
    (hexec : exec i s = s.endDec (s.dec.growAndEmit s.config c x)) (hd : s.dec.dictSize.toNat < 4096)
    (hprev : s.dec.holds s.config s.dec.prevCode bp = true)
    (hroom : s.dec.aPtr + round4 (bp.length + 1) ≤ s.config.arenaBytes)
    (hcode : ∀ d1, AddsEntry s.dec bp x d1 → d1.holds s.config c bs = true) :
    ∃ d1, AddsEntry s.dec bp x d1 ∧ DecoderWrites i s d1 bs (fun d => d.setPrevCode c) := by
  obtain ⟨d1, hadd, hentry⟩ := Decoder.dictAdd_of_holds hprev hd hroom x
  refine ⟨d1, hentry, .of_holds (hcode d1 hentry) ?_⟩
  rw [hexec, Decoder.growAndEmit, hadd, Run.bind_ok]

/-- The same where the block does not fit: AllocFail, before anything is emitted. -/
theorem exec_of_growAndEmit_full {i : Instr} {s : State} {c : Code} {bp : List Byte} {x : Byte}
    (hexec : exec i s = s.endDec (s.dec.growAndEmit s.config c x))
    (hprev : s.dec.holds s.config s.dec.prevCode bp = true)
    (hfull : s.config.arenaBytes < s.dec.aPtr + round4 (bp.length + 1)) :
    exec i s = .next (s.setDec ((s.dec.setRecord .allocFail 0#12 0#13).setPhase .fault)) := by
  rw [hexec, Decoder.growAndEmit, Decoder.dictAdd_of_holds_full hprev hfull x, Run.bind_raised, State.endDec_raised]
  rfl

/-- Settles O40: the code is an older entry, which the addition leaves as it was. -/
theorem decCodeKnownAddsThenEmits : Obligations.DecCodeKnownAddsThenEmits := by
  unfold Obligations.DecCodeKnownAddsThenEmits
  intro s c bp bs x hp hd hc hprev hcode
  have hrow : s.dec.phase = .run ∧ s.dec.dictSize < fullSize ∧ widenCode c < s.dec.dictSize :=
    ⟨hp, (lt_fullSize _).2 hd, widenCode_lt_iff.2 hc⟩
  have hexec : exec (.decCodeKnown c) s = s.endDec (s.dec.growAndEmit s.config c x) := by
    simp only [exec, execDecCodeKnown, if_pos hrow, Decoder.firstByte_of_holds hcode, Run.bind_ok]
  exact ⟨fun hroom => exists_decoderWrites_of_growAndEmit hexec hd hprev hroom
      fun _ hentry => hentry.holds_other hroom hc.ne hcode,
    exec_of_growAndEmit_full hexec hprev⟩

/-- Settles O41: the code is the entry added. -/
theorem decCodeKwkwkAddsThenEmits : Obligations.DecCodeKwkwkAddsThenEmits := by
  unfold Obligations.DecCodeKwkwkAddsThenEmits
  intro s c bp x hp hd hc hprev
  have hrow : s.dec.phase = .run ∧ s.dec.dictSize < fullSize ∧ widenCode c = s.dec.dictSize :=
    ⟨hp, (lt_fullSize _).2 hd, widenCode_eq_iff.2 hc⟩
  have hexec : exec (.decCodeKwkwk c) s = s.endDec (s.dec.growAndEmit s.config c x) := by
    simp only [exec, execDecCodeKwkwk, if_pos hrow, Decoder.firstByte_of_holds hprev, Run.bind_ok]
  exact ⟨fun hroom => exists_decoderWrites_of_growAndEmit hexec hd hprev hroom
      fun _ hentry => hentry.holds_new hroom hc,
    exec_of_growAndEmit_full hexec hprev⟩

/-! ## The reset step (R186, R187) -/

/-- The reset step of a code that is held: after the rewind its entry and its bytes are still there (R74, U3). -/
theorem DecoderWrites.of_resetAndEmit {i : Instr} {s : State} {c : Code} {bs : List Byte} {x : Byte}
    (hexec : exec i s = s.endDec (s.dec.resetAndEmit s.config c))
    (hholds : s.dec.holds s.config c (x :: bs) = true) :
    DecoderWrites i s ((s.dec.setDictSize 256#13).setPtr s.dec.aMark) (x :: bs) (fun d => d.setPrevCode c) := by
  obtain ⟨en, hentry, hrange, -, hbelow, hptr⟩ := Decoder.holds_spec hholds
  refine .of_dictEmit (c := c) (en := en) hentry hrange (hbelow.trans hptr) ?_
  rw [hexec, Decoder.resetAndEmit, Decoder.firstByte_of_holds hholds, Run.bind_ok]
  rfl

/-- Settles O42: the reset step of a literal. -/
theorem decCodeResetRewindsThenEmits : Obligations.DecCodeResetRewindsThenEmits := by
  unfold Obligations.DecCodeResetRewindsThenEmits
  intro s c bs x hp hd hholds
  rw [← literalCode_eq]
  exact .of_resetAndEmit (if_pos ⟨hp, (eq_fullSize _).2 hd⟩) hholds

/-- Settles O43: the row holds, and the policy chooses between the fault and the reset step. -/
theorem decCodeStaleByPolicy : Obligations.DecCodeStaleByPolicy := by
  unfold Obligations.DecCodeStaleByPolicy
  intro s c hp hd hc
  have hfull := (eq_fullSize _).2 hd
  have hrow : s.dec.phase = .run ∧ s.dec.dictSize = fullSize ∧ 256 ≤ c.toNat := ⟨hp, hfull, hc⟩
  refine ⟨fun hfault => ?_, fun hlegacy bs x hholds => .of_resetAndEmit ?_ hholds⟩
  · simp only [exec, execDecCodeStale, if_pos hrow, hfault]
    rw [hfull]
    rfl
  · simp only [exec, execDecCodeStale, if_pos hrow, hlegacy]

end Sys2Proof.Machine
end

section
/-! SUPPORT. The streams: what a read of a pipe answers (R230), SRC.READ and SNK.WRITE (R220, R221), GETCODE over a pipe, and a decoder whose pipe is released from the encoder's sink (notes/assumptions/18.md, 20.md). -/

namespace Sys2Proof.Machine

/-! ## Reading a pipe (R230) -/

/-- A pipe ends where the encoder has reached DONE with the sink it was started on. -/
theorem Encoder.feed_ended_iff (e : Encoder) : e.feed.ended = true ↔ e.phase = .done ∧ e.sinkNew = false := by
  simp only [Encoder.feed, Bool.and_eq_true, decide_eq_true_eq, Bool.not_eq_true']

section
variable {cfg : Config} {f : Feed} {d d1 : Decoder} {taken : Nat}

theorem Decoder.read_of_pipe_cons {v : Byte} {rest : List Byte} (h : d.source = .pipe taken)
    (hf : f.bytes.drop taken = v :: rest) : d.read f = some (.byte v, d.setSource (.pipe (taken + 1))) := by
  simp only [Decoder.read, h, hf]

theorem Decoder.read_of_pipe_ended (h : d.source = .pipe taken) (hf : f.bytes.drop taken = []) (he : f.ended = true) :
    d.read f = some (.eos, d) := by
  simp only [Decoder.read, h, hf, he, if_true]

theorem Decoder.read_of_pipe_waiting (h : d.source = .pipe taken) (hf : f.bytes.drop taken = [])
    (he : ¬f.ended = true) : d.read f = none := by
  simp only [Decoder.read, h, hf, if_neg he]

/-- A source that has not answered the first read leaves GETCODE waiting, from either residual. -/
theorem Decoder.getCode_of_waiting (h : d.read f = none) : d.getCode cfg f = .ok none d := by
  unfold Decoder.getCode
  split <;> simp only [h]

/-- A source that has answered one read of two leaves GETCODE waiting, the byte not taken (notes/assumptions/18.md). -/
theorem Decoder.getCode_of_byte_waiting {a : Byte} (hr : d.rHave = false) (ha : d.read f = some (.byte a, d1))
    (hb : d1.read f = none) : d.getCode cfg f = .ok none d := by
  simp only [Decoder.getCode, if_pos hr, ha, hb]

end

/-- The bytes after the next one, where there is a next one. -/
theorem drop_succ_of_drop_cons {α : Type} {l rest : List α} {n : Nat} {v : α} (h : l.drop n = v :: rest) :
    l.drop (n + 1) = rest := by
  rw [← List.tail_drop, h, List.tail_cons]

/-- Settles O19, by whether the encoder has ended, whether a nibble is held, and how many bytes are left. -/
theorem getCodeOverAPipe : Obligations.GetCodeOverAPipe := by
  unfold Obligations.GetCodeOverAPipe
  intro s taken hs
  refine ⟨?code, ?nibbleCode, ?waits, ?nibbleWaits, ?ended, ?lone⟩
  case code =>
    intro hr a b rest hd
    exact exec_getCode_of_ok (Decoder.getCode_of_two_bytes hr (Decoder.read_of_pipe_cons hs hd)
      (Decoder.read_of_pipe_cons rfl (drop_succ_of_drop_cons hd)))
  case nibbleCode =>
    intro hr b rest hd
    exact exec_getCode_of_ok (Decoder.getCode_of_nibble_byte hr (Decoder.read_of_pipe_cons hs hd))
  case waits =>
    intro he hr hlen
    have hopen := mt s.enc.feed_ended_iff.1 he
    apply exec_getCode_of_ok (r := none) (d := s.dec)
    cases hd : s.enc.sink.accepted.drop taken with
    | nil => exact Decoder.getCode_of_waiting (Decoder.read_of_pipe_waiting hs hd hopen)
    | cons a rest =>
      obtain rfl : rest = [] := by simpa [hd] using hlen
      exact Decoder.getCode_of_byte_waiting hr (Decoder.read_of_pipe_cons hs hd)
        (Decoder.read_of_pipe_waiting rfl (drop_succ_of_drop_cons hd) hopen)
  case nibbleWaits =>
    intro he _ hd
    exact exec_getCode_of_ok (Decoder.getCode_of_waiting
      (Decoder.read_of_pipe_waiting hs hd (mt s.enc.feed_ended_iff.1 he)))
  case ended =>
    intro hp hn hd
    exact exec_getCode_of_ok (Decoder.getCode_of_eos
      (Decoder.read_of_pipe_ended hs hd (s.enc.feed_ended_iff.2 ⟨hp, hn⟩)))
  case lone =>
    intro hp hn hr a hd
    have hcut : s.dec.getCode s.config s.enc.feed = (s.dec.setSource (.pipe (taken + 1))).cutShort s.config :=
      Decoder.getCode_of_cut_short hr (Decoder.read_of_pipe_cons hs hd)
        (Decoder.read_of_pipe_ended rfl (drop_succ_of_drop_cons hd) (s.enc.feed_ended_iff.2 ⟨hp, hn⟩))
    exact ⟨fun ht => exec_getCode_of_ok (hcut.trans (Decoder.cutShort_of_silent ht)),
      fun ht => exec_getCode_of_raised (hcut.trans (Decoder.cutShort_of_report ht))⟩

/-! ## SRC.READ and SNK.WRITE (R220, R221) -/

theorem exec_srcRead_encoder_of_read {s : State} {ev : SymbolEvent} {e : Encoder} (h : s.enc.read = (ev, e)) :
    exec (.srcRead .encoder) s = .next ((s.setEnc e).setAnswer (symbolAnswer ev)) := by
  simp only [exec, execSrcRead, h]

theorem exec_srcRead_decoder_of_some {s : State} {ev : SymbolEvent} {d : Decoder}
    (h : s.dec.read s.enc.feed = some (ev, d)) :
    exec (.srcRead .decoder) s = .next ((s.setDec d).setAnswer (symbolAnswer ev)) := by
  simp only [exec, execSrcRead, h]

theorem exec_srcRead_decoder_of_none {s : State} (h : s.dec.read s.enc.feed = none) :
    exec (.srcRead .decoder) s = .next (s.setAnswer .waiting) := by
  simp only [exec, execSrcRead, h]

theorem Encoder.read_of_source_cons {e : Encoder} {v : Byte} {rest : List Byte} (h : e.source = v :: rest) :
    e.read = (.byte v, e.setSource rest) := by
  simp only [Encoder.read, h]

theorem Encoder.read_of_source_nil {e : Encoder} (h : e.source = []) : e.read = (.eos, e) := by
  simp only [Encoder.read, h]

/-- Settles O45, by the kind of source and what is left in it. -/
theorem srcReadTakesTheFirstByte : Obligations.SrcReadTakesTheFirstByte := by
  unfold Obligations.SrcReadTakesTheFirstByte
  refine ⟨?encoderByte, ?encoderEos, ?streamByte, ?streamEos, ?pipe⟩
  case encoderByte => exact fun _ _ _ h => exec_srcRead_encoder_of_read (Encoder.read_of_source_cons h)
  case encoderEos => exact fun _ h => exec_srcRead_encoder_of_read (Encoder.read_of_source_nil h)
  case streamByte => exact fun _ _ _ h => exec_srcRead_decoder_of_some (Decoder.read_of_stream_cons h)
  case streamEos => exact fun _ h => exec_srcRead_decoder_of_some (Decoder.read_of_stream_nil h)
  case pipe =>
    intro s taken hs
    refine ⟨fun v rest hd => ?_, fun hd => ⟨fun he => ?_, fun he => ?_⟩⟩
    · exact exec_srcRead_decoder_of_some (Decoder.read_of_pipe_cons hs hd)
    · exact exec_srcRead_decoder_of_some (Decoder.read_of_pipe_ended hs hd (s.enc.feed_ended_iff.2 he))
    · exact exec_srcRead_decoder_of_none (Decoder.read_of_pipe_waiting hs hd (mt s.enc.feed_ended_iff.1 he))

theorem exec_snkWrite_encoder_of_write {s : State} {v : Byte} {a : SinkAnswer} {k : Sink}
    (h : s.enc.sink.write v = (a, k)) :
    exec (.snkWrite .encoder v) s = .next ((s.setEnc (s.enc.setSink k)).setAnswer (.sink a)) := by
  simp only [exec, execSnkWrite, h]

theorem exec_snkWrite_decoder_of_write {s : State} {v : Byte} {a : SinkAnswer} {k : Sink}
    (h : s.dec.sink.write v = (a, k)) :
    exec (.snkWrite .decoder v) s = .next ((s.setDec (s.dec.setSink k)).setAnswer (.sink a)) := by
  simp only [exec, execSnkWrite, h]

/-- Settles O46: each unit writes to its own sink, which accepts the byte or does not. -/
theorem snkWriteAppendsOrFails : Obligations.SnkWriteAppendsOrFails := by
  unfold Obligations.SnkWriteAppendsOrFails
  intro s v
  exact ⟨fun h => exec_snkWrite_encoder_of_write (Sink.write_of_accepts v h),
    fun h => exec_snkWrite_encoder_of_write (Sink.write_of_fails v h),
    fun h => exec_snkWrite_decoder_of_write (Sink.write_of_accepts v h),
    fun h => exec_snkWrite_decoder_of_write (Sink.write_of_fails v h)⟩

/-! ## A decoder released from the encoder's sink (notes/assumptions/20.md) -/

/-- The decoder once the encoder has another sink, the old one having shown `f`. -/
def Decoder.release (f : Feed) (d : Decoder) : Decoder := d.setSource (d.source.release f)

/-- A released decoder reads what it read over the pipe, whatever the encoder's sink shows now. -/
theorem Decoder.release_read (f g : Feed) (d : Decoder) :
    (d.release f).read g = (d.read f).map fun a => (a.1, a.2.release f) := Decoder.read_release f g d

/-- The same end of a sub-operation, with the unit changed by `g`. -/
def Run.mapUnit {σ α : Type} (g : σ → σ) : Run σ α → Run σ α
  | .ok a u => .ok a (g u)
  | .raised u => .raised (g u)
  | .stop r => .stop r

theorem Decoder.cutShort_release (cfg : Config) (f : Feed) (d : Decoder) :
    (d.release f).cutShort cfg = (d.cutShort cfg).mapUnit (Decoder.release f) := by
  cases ht : cfg.truncation with
  | silent => rw [Decoder.cutShort_of_silent ht, Decoder.cutShort_of_silent ht]; rfl
  | report => rw [Decoder.cutShort_of_report ht, Decoder.cutShort_of_report ht]; rfl

/-- GETCODE of a released decoder is GETCODE over the pipe, whatever the encoder's sink shows now. -/
theorem Decoder.getCode_release (cfg : Config) (f g : Feed) (d : Decoder) :
    (d.release f).getCode cfg g = (d.getCode cfg f).mapUnit (Decoder.release f) := by
  have hrHave : (d.release f).rHave = d.rHave := rfl
  simp only [Decoder.getCode, Decoder.release_read, hrHave]
  split
  · cases d.read f with
    | none => rfl
    | some a =>
      obtain ⟨ev, d1⟩ := a
      cases ev with
      | eos => rfl
      | byte v =>
        simp only [Option.map_some, Decoder.release_read]
        cases d1.read f with
        | none => rfl
        | some a =>
          obtain ⟨ev, d2⟩ := a
          cases ev with
          | eos => exact d2.cutShort_release cfg f
          | byte w => rfl
  · cases d.read f with
    | none => rfl
    | some a =>
      obtain ⟨ev, d1⟩ := a
      cases ev <;> rfl

theorem State.attachEncoder_of_not_running {s : State} (hr : running s.enc.phase = false) (source : List Byte)
    (answers : List SinkAnswer) : s.attachEncoder source answers =
      ((s.setAnswer .attached).setEnc (((s.enc.setSource source).setSink ⟨[], answers⟩).setSinkNew true)).setDec
        (s.dec.release s.enc.feed) := by
  simp only [State.attachEncoder, hr, Bool.false_eq_true, if_false]
  rfl

/-- GETCODE and SRC.READ of a released decoder, beside any other encoder `e`, are those over the pipe. -/
theorem exec_read_release {i : Instr} (hi : i = .getCode ∨ i = .srcRead .decoder) (s : State) (e : Encoder) :
    exec i ((s.setEnc e).setDec (s.dec.release s.enc.feed))
      = onNext (fun u => (u.setEnc e).setDec (u.dec.release s.enc.feed)) (exec i s) := by
  rcases hi with rfl | rfl
  · simp only [exec, execGetCode, State.setDec_dec, State.setDec_config, State.setDec_enc, State.setEnc_config,
      State.setEnc_enc, Decoder.getCode_release]
    cases s.dec.getCode s.config s.enc.feed <;> rfl
  · simp only [exec, execSrcRead, State.setDec_dec, State.setDec_enc, State.setEnc_enc, Decoder.release_read]
    cases s.dec.read s.enc.feed <;> rfl

/-- Settles O50: attaching releases the decoder, and a released decoder reads as the pipe did. -/
theorem freshSinkLeavesThePipeTheOldOne : Obligations.FreshSinkLeavesThePipeTheOldOne := by
  unfold Obligations.FreshSinkLeavesThePipeTheOldOne
  intro s source answers hr
  refine ⟨_, State.attachEncoder_of_not_running hr source answers, rfl, ?_, rfl, fun i hi => ?_⟩
  · simp only [Encoder.feed, State.setDec_enc, State.setEnc_enc, Encoder.setSinkNew_sinkNew,
      Encoder.setSinkNew_sink, Encoder.setSink_sink, Bool.not_true, Bool.and_false]
  · exact exec_read_release hi (s.setAnswer .attached) _

end Sys2Proof.Machine
end

section
/-! SUPPORT. The host's commands: START by what it finds (R224, R225, R229), attaching to a running unit (R283), and STATUS.READ (R227). -/

namespace Sys2Proof.Machine

/-! ## START where the unit is not running (R224, R225) -/

theorem exec_encStart_of_not_running {s : State} (hr : running s.enc.phase = false) :
    exec .encStart s = .next (((s.setEnc (s.enc.start (Config.freeCode s.draws))).setAnswer .startAccepted).setDraws
      (s.draws + 1)) := by
  simp only [exec, execEncStart, hr, Bool.false_eq_true, if_false]

theorem exec_decStart_of_not_running {s : State} (hr : running s.dec.phase = false) :
    exec .decStart s = ((s.setAnswer .startAccepted).setDraws (s.draws + 1)).endDec
      (s.dec.start s.config (Config.freeCode s.draws)) := by
  simp only [exec, execDecStart, hr, Bool.false_eq_true, if_false]

/-- Settles O47: the lines of ENC.START, with the empty list as the trie. -/
theorem encStartEstablishesTheInitialState : Obligations.EncStartEstablishesTheInitialState := by
  unfold Obligations.EncStartEstablishesTheInitialState
  intro s hr
  exact ⟨[], Config.freeCode s.draws, Memory.getCell_nil, exec_encStart_of_not_running hr⟩

/-- Settles O48, by whether the arena has room for the literals. -/
theorem decStartEstablishesTheInitialState : Obligations.DecStartEstablishesTheInitialState := by
  unfold Obligations.DecStartEstablishesTheInitialState
  intro s hr
  refine ⟨fun hroom => ?starts, fun hfull => ?fails⟩
  case starts =>
    obtain ⟨es, ar, hstart, hlit, hes, har, -⟩ := s.dec.start_spec s.config (Config.freeCode s.draws) hroom
    refine ⟨es, ar, Config.freeCode s.draws, ?_, hlit, hes, har⟩
    rw [exec_decStart_of_not_running hr, hstart]
    rfl
  case fails =>
    obtain ⟨es, ar, ptr, hstart, -⟩ := s.dec.start_allocFail s.config (Config.freeCode s.draws) hfull
    refine ⟨_, (exec_decStart_of_not_running hr).trans (congrArg (State.endDec _) hstart),
      rfl, rfl, rfl, rfl, ?sink, ?source⟩
    case sink => simp [Decoder.arenaInit, Decoder.forget]
    case source => simp [Decoder.arenaInit, Decoder.forget]

/-! ## A running unit turns the host away (R229, R283) -/

/-- Settles O49: each command tests the phase of its unit before anything else. -/
theorem runningUnitRefusesTheHost : Obligations.RunningUnitRefusesTheHost := by
  unfold Obligations.RunningUnitRefusesTheHost
  intro s
  exact ⟨fun hr => ⟨if_pos hr, fun _ _ => if_pos hr⟩, fun hr => ⟨if_pos hr, fun _ _ => if_pos hr⟩⟩

/-! ## STATUS.READ (R24, R227, R240) -/

theorem lookup_phaseNumber (p : Phase) :
    [(Phase.idle, 0#3), (Phase.first, 1#3), (Phase.run, 2#3), (Phase.done, 3#3), (Phase.fault, 4#3)].lookup p
      = some (phaseNumber p) := by
  cases p <;> rfl

theorem lookup_causeNumber (f : Cause) :
    [(Cause.none, 0#3), (Cause.corruptCode, 1#3), (Cause.sinkFail, 2#3), (Cause.allocFail, 3#3),
      (Cause.noPrevCode, 4#3), (Cause.staleCode, 5#3), (Cause.truncated, 6#3)].lookup f = some (causeNumber f) := by
  cases f <;> rfl

/-- Settles O51: the numbers are those of the two tables. -/
theorem statusReadReportsThePhaseAndRecord : Obligations.StatusReadReportsThePhaseAndRecord := by
  unfold Obligations.StatusReadReportsThePhaseAndRecord
  intro s
  exact ⟨_, _, _, _, rfl, rfl, lookup_phaseNumber _, lookup_phaseNumber _, lookup_causeNumber _, lookup_causeNumber _⟩

end Sys2Proof.Machine
end

section
/-! SUPPORT. The turn of a unit that is not running (R231, U8): nothing is fetched and nothing changes. -/

namespace Sys2Proof.Machine

theorem State.fetchEncoder_of_not_running {s : State} (hr : running s.enc.phase = false) :
    s.fetchEncoder = .quiet s := by
  simp only [State.fetchEncoder, hr, Bool.false_eq_true, if_false]

theorem State.fetchDecoder_of_not_running {s : State} (hr : running s.dec.phase = false) :
    s.fetchDecoder = .quiet s := by
  simp only [State.fetchDecoder, hr, Bool.false_eq_true, if_false]

theorem State.fetchFree_of_not_running {s : State} (he : running s.enc.phase = false)
    (hd : running s.dec.phase = false) : s.fetchFree = .quiet s := by
  simp only [State.fetchFree, he, hd, Bool.false_eq_true, if_false]

/-- A turn of a unit changes no unit that is not running. -/
theorem step_keeps_not_running {s s' : State} (hp : s.port = none) (hturn : ∀ c rest, s.agenda ≠ .host c :: rest)
    (h : step s = .next s') :
    (running s.enc.phase = false → s'.enc = s.enc) ∧ (running s.dec.phase = false → s'.dec = s.dec) := by
  rcases step_cases hp h with ⟨c, rest, ha, _⟩ | ⟨ag, h, _⟩ | ⟨ag, h, _⟩ | rfl
  case inl => exact absurd ha (hturn c rest)
  case inr.inl =>
    rcases perform_fetchEncoder h with ⟨_, rfl⟩ | ⟨hr, _, _, hdec, _⟩
    · exact ⟨fun _ => rfl, fun _ => rfl⟩
    · exact ⟨fun hidle => absurd (hr.symm.trans hidle) nofun, fun _ => hdec⟩
  case inr.inr.inl =>
    refine ⟨fun _ => (perform_fetchDecoder h).1, fun hidle => ?_⟩
    rw [State.fetchDecoder_of_not_running (s := s.setAgenda ag) hidle] at h
    cases h
    rfl
  case inr.inr.inr => exact ⟨fun _ => rfl, fun _ => rfl⟩

/-- Settles O11: a turn of a unit that is not running is quiet, and a turn of the other unit does not touch it. -/
theorem unitOutsideARunTakesNoStep : Obligations.UnitOutsideARunTakesNoStep := by
  unfold Obligations.UnitOutsideARunTakesNoStep
  refine ⟨fun s rest hp ha hr => ?encoder, fun s rest hp ha hr => ?decoder, fun s hp ha he hd => ?free,
    fun s s' => step_keeps_not_running⟩
  case encoder =>
    exact step_of_fetch_quiet ((State.fetch_of_agenda_cons hp ha).trans (State.fetchEncoder_of_not_running hr))
  case decoder =>
    exact step_of_fetch_quiet ((State.fetch_of_agenda_cons hp ha).trans (State.fetchDecoder_of_not_running hr))
  case free =>
    exact step_of_fetch_quiet ((State.fetch_of_agenda_nil hp ha).trans (State.fetchFree_of_not_running he hd))

end Sys2Proof.Machine
end
